-- ==== Sys2Proof/Word.lean ====
section
/-! DEFINITION. The word types of CHIP-8/rhodes-b-core (00_scope.md R6, R7): every value of the core is unsigned. -/

namespace Sys2Proof

/-- A 4-bit field: a register number or a row count (30_encoding.md R61). -/
abbrev Nibble := BitVec 4

/-- A memory byte, a register V0 to VF, a timer (00_scope.md R6 `REG_W`, `TIMER_W`). -/
abbrev Byte := BitVec 8

/-- A 12-bit address operand `nnn` (30_encoding.md R63). -/
abbrev Addr := BitVec 12

/-- An instruction word, I, pc, a stack entry (00_scope.md R6 `I_W`, `PC_W`, `STACK_W`). -/
abbrev Word := BitVec 16

/-- The value given to `raise` (00_scope.md R8; 10_state.md R28 `fault_info`). -/
abbrev Info := BitVec 17

/-- The high byte of a word, the one stored first (20_memory.md R47). -/
def hiByte (w : Word) : Byte := w.extractLsb' 8 8

/-- The low byte of a word, the one stored second (20_memory.md R47). -/
def loByte (w : Word) : Byte := w.extractLsb' 0 8

end Sys2Proof
end

