-- ==== Sys2Proof/Config.lean ====
section
/-! DEFINITION. The implementation parameters (00_scope.md R6) and the free values, which have no body:
nothing can be proved of a free value but what holds of every value. -/

namespace Sys2Proof.Config

/-- The highest memory address, `MEM_SIZE − 1` (00_scope.md R6). -/
@[simp] abbrev maxAddr : Nat := 0xFFF

/-- `PROG_BASE`: the load address, the entry point, and the lowest address a program may write
(00_scope.md R6; 20_memory.md R44). -/
@[simp] abbrev progBase : Nat := 0x200

/-- `STACK_DEPTH` (00_scope.md R6): this hardware takes 16. -/
@[simp] abbrev stackDepth : Nat := 16

/-- `MAX_ROM`: the largest program `load_program` accepts (00_scope.md R6). -/
@[simp] abbrev maxRom : Nat := 3584

/-- `TIMER_DIV − 1`: OPEN (00_scope.md R6; 60_exceptions.md R208). DESIGN CHOICE: log entry 8. -/
opaque timerDivPred : Nat

/-- `INSTR_DIV − 1`: OPEN (00_scope.md R6; 60_exceptions.md R210). DESIGN CHOICE: log entry 8. -/
opaque instrDivPred : Nat

/-- `TIMER_DIV`: clock cycles per tick, an open integer ≥ 1 (00_scope.md R6). -/
def timerDiv : Nat := timerDivPred + 1

/-- `INSTR_DIV`: clock cycles per instruction step, an open integer ≥ 1 (00_scope.md R6). -/
def instrDiv : Nat := instrDivPred + 1

/-- FREE VALUE. `in_rnd` at the n-th step that no scheduled move describes (60_exceptions.md R214; log entry 2). -/
opaque freeRandom : Nat → Byte

/-- FREE VALUE. `in_collision` at the n-th such step (60_exceptions.md R211; log entry 2). -/
opaque freeCollision : Nat → Bool

/-- FREE VALUE. The keys for which `in_key_down` answers 1 at the n-th such step (60_exceptions.md R212; log entry 2). -/
opaque freeKeysDown : Nat → List Byte

/-- FREE VALUE. `in_key_event` at the n-th such step (60_exceptions.md R212; log entry 2). -/
opaque freeKeyEvent : Nat → Option Byte

/-- FREE VALUE. How many unscheduled steps come before the next unscheduled tick, drawn at the n-th unscheduled move
(60_exceptions.md R209: any number; log entry 2). -/
opaque freeGap : Nat → Nat

/-- FREE VALUE. The don't-care byte `disp_rows[k]`, k ≥ n, of a draw request (60_exceptions.md R211; log entry 13). -/
opaque freeDispRow : Nat → Byte

end Sys2Proof.Config
end

