-- ==== Sys2Proof/Machine/Font.lean ====
section
/-! DEFINITION. The default value of the parameter FONT (20_memory.md R42; 93_implementation_defined.md). PRESUMED
(log entry 5): the spec supplies the conventional table from general knowledge and makes it the default. The parameter
itself is `Memory.font` in Machine/State.lean. -/

namespace Sys2Proof

/-- Glyphs 0 to 7, five bytes each (20_memory.md R42). -/
def Config.glyphsLow : List (List Byte) :=
  [[0xF0, 0x90, 0x90, 0x90, 0xF0], [0x20, 0x60, 0x20, 0x20, 0x70],
   [0xF0, 0x10, 0xF0, 0x80, 0xF0], [0xF0, 0x10, 0xF0, 0x10, 0xF0],
   [0x90, 0x90, 0xF0, 0x10, 0x10], [0xF0, 0x80, 0xF0, 0x10, 0xF0],
   [0xF0, 0x80, 0xF0, 0x90, 0xF0], [0xF0, 0x10, 0x20, 0x40, 0x40]]

/-- Glyphs 8 to F. -/
def Config.glyphsHigh : List (List Byte) :=
  [[0xF0, 0x90, 0xF0, 0x90, 0xF0], [0xF0, 0x90, 0xF0, 0x10, 0xF0],
   [0xF0, 0x90, 0xF0, 0x90, 0x90], [0xE0, 0x90, 0xE0, 0x90, 0xE0],
   [0xF0, 0x80, 0x80, 0x80, 0xF0], [0xE0, 0x90, 0x90, 0x90, 0xE0],
   [0xF0, 0x80, 0xF0, 0x80, 0xF0], [0xF0, 0x80, 0xF0, 0x80, 0x80]]

/-- The default FONT: 80 bytes, the glyph of digit d at 5·d. -/
def Config.defaultFont : Vector Byte 80 := ⟨(Config.glyphsLow ++ Config.glyphsHigh).flatten.toArray, rfl⟩

end Sys2Proof
end

