-- ==== Sys2Proof/Machine/State.lean ====
section
/-! DEFINITION. The state of one core: everything 10_state.md R33 names, and the model's own fields that carry
the ports (R29; 30_encoding.md R79; 60_exceptions.md R211 to R215), which stand here because the host's step
is a function of the state alone (log entries 1 to 5, 13). -/

namespace Sys2Proof.Machine

/-- `run_state` (10_state.md R28). -/
inductive RunState
  | idle | run | waitKey | halted
  deriving DecidableEq, Repr

/-- `halt_cause` (10_state.md R28; 60_exceptions.md R200). Code 7 is never written and has no constructor. -/
inductive HaltCause
  | none | outOfBounds | stackOverflow | stackUnderflow | invalidOpcode | uninitializedProgram | stop
  deriving DecidableEq, Repr

/-- The values on the input pins at one step, each a free draw (30_encoding.md R79; 60_exceptions.md R211 to
R215). MODEL's own field: log entry 1. -/
structure Inputs where
  /-- `stop` (R215) -/
  stop : Bool
  /-- `in_rnd`: `rnd_byte` (R214) -/
  rnd : Byte
  /-- the key numbers for which `in_key_down` answers 1 at this step (R212) -/
  keysDown : List Byte
  /-- `in_key_event`: the press event offered at this step (R212) -/
  keyEvent : Option Byte
  /-- `in_collision`: `disp_collision` (R211) -/
  collision : Bool
  deriving DecidableEq, Repr

/-- A side-effect request on the display port (00_scope.md R8; 60_exceptions.md R211). -/
inductive Request
  /-- `Clear()` -/
  | clear
  /-- `Draw(x, y, rows)`; `rows` holds the n row bytes, top row first -/
  | draw (x y : Byte) (rows : List Byte)
  deriving DecidableEq, Repr

/-- One cycle of the memory port (20_memory.md R52): `m_addr`, `m_we`, and `m_wdata` of a write or `m_rdata`
of a read. -/
structure BusCycle where
  addr : Addr
  we : Bool
  data : Byte
  deriving DecidableEq, Repr

/-- What the block drives out in the latest move. MODEL's own field: log entry 13. -/
structure Outputs where
  /-- the step's display requests, at most one (30_encoding.md R79) -/
  requests : List Request
  /-- `rnd_req` (60_exceptions.md R214) -/
  rndReq : Bool
  /-- `key_q`: the key number queried (R212) -/
  keyQuery : Option Byte
  /-- `key_evt_ack` (R212) -/
  keyAck : Bool
  /-- the memory port's cycles, oldest first (20_memory.md R52) -/
  bus : List BusCycle
  deriving DecidableEq, Repr

/-- One move of the machine or of its host (60_exceptions.md R209, R215; 20_memory.md R53; 70_reset_and_hazards.md
R230). -/
inductive Move
  /-- an instruction step, or a key-wait step, with these values on the input pins -/
  | step (inp : Inputs)
  /-- a 60 Hz timer tick (R207) -/
  | tick
  /-- a rising clock edge with `rst` = 0: the dividers, a tick and a step that fall due (R208, R210) -/
  | clk (inp : Inputs)
  /-- the host's `start` (R215) -/
  | start
  /-- the host's `stop` between steps (R215) -/
  | stop
  /-- the host's `load_program(bytes)` (20_memory.md R53) -/
  | load (bytes : List Byte)
  /-- the host's `rst` (70_reset_and_hazards.md R230) -/
  | rst
  deriving DecidableEq, Repr

/-- Memory as plain data (20_memory.md R40, R41; `Memory.wf` in Machine/Ops.lean). -/
structure Memory where
  /-- MODEL's own: the parameter FONT, the reset contents of 0x000 to 0x04F, which no move changes (20_memory.md R42;
  log entry 5) -/
  font : Vector Byte 80
  /-- the bytes that differ from the reset contents, by strictly rising address -/
  cells : List Host.Cell
  deriving DecidableEq, Repr

/-- The whole state (10_state.md R33). -/
structure State where
  /-- V0 to VF (10_state.md R20, R21) -/
  v : Vector Byte 16
  /-- I (R22) -/
  iReg : Word
  /-- pc (R23) -/
  pc : Word
  /-- sp, the number of entries on the stack (R25) -/
  sp : BitVec 5
  /-- stack[0..15] (R24) -/
  stack : Vector Word 16
  /-- DT (R26) -/
  dt : Byte
  /-- ST (R27) -/
  st : Byte
  /-- the 4096-byte memory (20_memory.md R40) -/
  mem : Memory
  /-- `run_state` (R28) -/
  runState : RunState
  /-- `halt_cause` (R28) -/
  haltCause : HaltCause
  /-- `fault_pc` (R28) -/
  faultPc : Word
  /-- `fault_info` (R28) -/
  faultInfo : Info
  /-- `loaded` (R28) -/
  loaded : Bool
  /-- `ill_seen` (R28) -/
  illSeen : Bool
  /-- `wait_x` (R28) -/
  waitX : Nibble
  /-- `div_cnt` (R28; 60_exceptions.md R208) -/
  divCnt : Nat
  /-- `step_cnt` (R28; 60_exceptions.md R210) -/
  stepCnt : Nat
  /-- MODEL's own: the level of the strap `strict` (R29; log entry 4) -/
  strict : Bool
  /-- MODEL's own: the input pins as the current step sees them (log entry 1) -/
  inputs : Inputs
  /-- MODEL's own: what the latest move drove out (log entry 13) -/
  out : Outputs
  /-- MODEL's own: the moves that come next, oldest first (log entry 2) -/
  schedule : List Move
  /-- MODEL's own: how many unscheduled steps come before the next unscheduled tick (60_exceptions.md R209; log
  entry 2) -/
  stepsToTick : Nat
  /-- MODEL's own: how many unscheduled moves there were, each with its own free values of Config (log entry 2) -/
  draws : Nat
  deriving DecidableEq, Repr

/-- Why the machine has no step (30_encoding.md R78, R79 item 3). Both are safe: the core executes nothing. -/
inductive Fault
  /-- a step in IDLE: the core executes nothing before `start`. Raised by `coreStep`; safe. -/
  | noStepIdle
  /-- a step in HALTED: nothing happens until reset (60_exceptions.md R204). Raised by `coreStep`; safe. -/
  | noStepHalted
  deriving DecidableEq, Repr

/-- Why a move has no meaning. -/
inductive Refusal
  /-- an instruction without a meaning yet; raised by `exec` alone; safe. No arm raises it now. -/
  | notModelled (mnemonic : String)
  /-- `load_program` outside IDLE: "this spec gives it no meaning" (20_memory.md R53). Raised by
  `loadProgram`; safe. -/
  | loadOutsideIdle
  deriving DecidableEq, Repr

/-- The three outcomes of a move. -/
abbrev Result := Host.Outcome State Fault Refusal

/-- The quiet input pins. -/
def Inputs.quiet : Inputs :=
  { stop := false, rnd := 0, keysDown := [], keyEvent := .none, collision := false }

/-- No output pulse. -/
def Outputs.quiet : Outputs :=
  { requests := [], rndReq := false, keyQuery := .none, keyAck := false, bus := [] }

/-- Reset, the parameter FONT given (10_state.md R30; 20_memory.md R42; 70_reset_and_hazards.md R230). Memory lists
nothing: an unlisted byte reads as its reset contents. The strap is at the documented default FAULT (92_eei_decisions.md D7; log entry 4); the
schedule is empty, and the first unscheduled move is a tick, which changes nothing in IDLE (log entry 2). -/
def State.resetWith (font : Vector Byte 80) : State where
  v := Vector.replicate 16 0
  iReg := 0
  pc := 0x0200
  sp := 0
  stack := Vector.replicate 16 0
  dt := 0
  st := 0
  mem := { font := font, cells := [] }
  runState := .idle
  haltCause := .none
  faultPc := 0
  faultInfo := 0
  loaded := false
  illSeen := false
  waitX := 0
  divCnt := 0
  stepCnt := 0
  strict := true
  inputs := .quiet
  out := .quiet
  schedule := []
  stepsToTick := 0
  draws := 0

/-- Reset with the default FONT (20_memory.md R42; log entry 5). -/
def State.reset : State := State.resetWith Config.defaultFont

end Sys2Proof.Machine
end

