-- ==== Sys2Proof/Machine/Ops.lean ====
section
/-! DEFINITION. The named operations over memory, registers, stack and ports, the halt entry (the exception of
this hardware) and reset, its only way out. -/

namespace Sys2Proof.Machine

/-! ## Memory -/

/-- What an unlisted address reads as: the reset contents, FONT from 0x000 and zero after it (10_state.md R30;
20_memory.md R41, R42). -/
def Memory.unlisted (m : Memory) (a : Nat) : Byte := m.font[a]?.getD 0

/-- The byte listed at an address. -/
def Memory.lookup : List Host.Cell → Nat → Option Byte
  | [], _ => none
  | (b, v) :: rest, a => if a = b then some v else Memory.lookup rest a

/-- The byte at an address, with no check. -/
def Memory.read (m : Memory) (a : Nat) : Byte := (Memory.lookup m.cells a).getD (m.unlisted a)

/-- Insert a cell before the first higher address. -/
def Memory.insertCell (c : Host.Cell) : List Host.Cell → List Host.Cell
  | [] => [c]
  | d :: rest => if c.1 < d.1 then c :: d :: rest else d :: Memory.insertCell c rest

/-- Write a byte, with no check: the old cell goes, and the new one is listed only where it differs from what
an unlisted address reads as. -/
def Memory.write (m : Memory) (a : Nat) (v : Byte) : Memory :=
  let rest := m.cells.filter fun c => c.1 ≠ a
  { m with cells := if v = m.unlisted a then rest else Memory.insertCell (a, v) rest }

/-- The canonical form: addresses strictly rising and inside the address space, no cell equal to what its
address reads as unlisted. -/
abbrev Memory.wf (m : Memory) : Prop :=
  m.cells.Pairwise (fun c d => c.1 < d.1) ∧ ∀ c ∈ m.cells, c.1 ≤ Config.maxAddr ∧ c.2 ≠ m.unlisted c.1

/-- Write bytes at ascending addresses (20_memory.md R45). -/
def Memory.writeBytes (m : Memory) (a : Nat) : List Byte → Memory
  | [] => m
  | b :: bs => Memory.writeBytes (m.write a b) (a + 1) bs

/-- Read n bytes at ascending addresses (20_memory.md R45). -/
def Memory.readBytes (m : Memory) (a : Nat) : Nat → List Byte
  | 0 => []
  | n + 1 => m.read a :: Memory.readBytes m (a + 1) n

/-- An address a read refuses: `a > 0xFFF` (20_memory.md R43). -/
def readRefused (a : Nat) : Bool := decide (a > Config.maxAddr)

/-- An address a program write refuses: `a > 0xFFF` or `a < 0x200` (20_memory.md R44). -/
def writeRefused (a : Nat) : Bool := decide (a > Config.maxAddr) || decide (a < Config.progBase)

/-- The first address of a, a+1, …, a+n−1 a check refuses, in ascending order (20_memory.md R46). The
addresses are unbounded integers (00_scope.md R10). -/
def firstRefused (refused : Nat → Bool) (a : Nat) : Nat → Option Nat
  | 0 => none
  | n + 1 => if refused a then some a else firstRefused refused (a + 1) n

/-! ## Registers -/

/-- `V[x]` (00_scope.md R8). -/
def State.readV (s : State) (x : Nibble) : Byte := s.v[x.toNat]'x.isLt

/-- `V[x] <- b` (00_scope.md R8). -/
def State.writeV (s : State) (x : Nibble) (b : Byte) : State := { s with v := s.v.set x.toNat b x.isLt }

/-- The number of VF. -/
abbrev VF : Nibble := 0xF#4

/-- `I <- w`. -/
def State.setI (s : State) (w : Word) : State := { s with iReg := w }

/-- `pc <- target` (00_scope.md R8). -/
def State.setPc (s : State) (w : Word) : State := { s with pc := w }

/-- `pc <- pc + 2` (30_encoding.md R74). The sum is 16 bits wide and cannot overflow from a pc that was
fetched (log entry 7). -/
def State.advance (s : State) : State := s.setPc (s.pc + 2)

/-- A skip: `pc + 4` when the condition holds, `pc + 2` when it fails (30_encoding.md R74). -/
def State.skipIf (s : State) (c : Bool) : State := s.setPc (if c then s.pc + 4 else s.pc + 2)

/-- `DT <- b`. -/
def State.setDt (s : State) (b : Byte) : State := { s with dt := b }

/-- `ST <- b`. -/
def State.setSt (s : State) (b : Byte) : State := { s with st := b }

/-- `V[first + k] <- bytes[k]` for every k (44_index_memory.md R155). -/
def State.writeRegs (s : State) (first : Nat) : List Byte → State
  | [] => s
  | b :: bs => State.writeRegs (s.writeV (BitVec.ofNat 4 first) b) (first + 1) bs

/-- The values of V0..V(n−1), in order (44_index_memory.md R154). -/
def State.regs (s : State) (n : Nat) : List Byte := s.v.toList.take n

/-! ## Call stack -/

/-- `stack[k]`; an index past the array, which no sp in 0..16 gives, reads 0 (log entry 6). -/
def State.stackAt (s : State) (k : Nat) : Word := s.stack[k]?.getD 0

/-- The stack is full (10_state.md R25; log entry 6 for an sp past STACK_DEPTH, which no run reaches). -/
def State.stackFull (s : State) : Bool := decide (Config.stackDepth ≤ s.sp.toNat)

/-- Push, post-increment: `stack[sp] <- r; sp <- sp + 1` (10_state.md R25). The caller has checked `stackFull`. -/
def State.push (s : State) (r : Word) : State :=
  { s with stack := s.stack.setIfInBounds s.sp.toNat r, sp := s.sp + 1 }

/-- Pop, pre-decrement: `sp <- sp − 1`, result `stack[sp]` (10_state.md R25). The caller has checked sp ≠ 0. -/
def State.pop (s : State) : State × Word :=
  ({ s with sp := s.sp - 1 }, s.stackAt (s.sp - 1).toNat)

/-! ## Key wait and invalid words -/

/-- `wait_x <- x; run_state <- WAIT_KEY` (45_timers_keys.md R161). -/
def State.enterWait (s : State) (x : Nibble) : State := { s with waitX := x, runState := .waitKey }

/-- `run_state <- RUN` (45_timers_keys.md R161). -/
def State.leaveWait (s : State) : State := { s with runState := .run }

/-- `ill_seen <- 1` (30_encoding.md R76). -/
def State.markIllSeen (s : State) : State := { s with illSeen := true }

/-! ## Output pins -/

/-- `emit` a display request (00_scope.md R8). -/
def State.emit (s : State) (r : Request) : State :=
  { s with out := { s.out with requests := s.out.requests ++ [r] } }

/-- Pulse `rnd_req`: one random byte is consumed (60_exceptions.md R214). -/
def State.takeRandom (s : State) : State := { s with out := { s.out with rndReq := true } }

/-- Drive `key_q` (60_exceptions.md R212). -/
def State.queryKey (s : State) (k : Byte) : State := { s with out := { s.out with keyQuery := some k } }

/-- Assert `key_evt_ack`: the offered event is taken (60_exceptions.md R212). -/
def State.ackKey (s : State) : State := { s with out := { s.out with keyAck := true } }

/-- The port cycles that move these bytes at ascending addresses (20_memory.md R45, R52). -/
def busCycles (we : Bool) (a : Nat) : List Byte → List BusCycle
  | [] => []
  | b :: bs => { addr := BitVec.ofNat 12 a, we := we, data := b } :: busCycles we (a + 1) bs

/-- Record cycles of the memory port (20_memory.md R52). -/
def State.logBus (s : State) (cycles : List BusCycle) : State :=
  { s with out := { s.out with bus := s.out.bus ++ cycles } }

/-- `in_key_down(k)` (60_exceptions.md R212). -/
def Inputs.keyDown (inp : Inputs) (k : Byte) : Bool := inp.keysDown.contains k

/-! ## Loads and stores of the datapath -/

/-- Read n bytes at a through the memory port; the range has been checked. -/
def State.loadBytes (s : State) (a n : Nat) : State × List Byte :=
  let bytes := s.mem.readBytes a n
  (s.logBus (busCycles false a bytes), bytes)

/-- Write bytes at a through the memory port; the range has been checked. -/
def State.storeBytes (s : State) (a : Nat) (bytes : List Byte) : State :=
  { s with mem := s.mem.writeBytes a bytes }.logBus (busCycles true a bytes)

/-- A program in place at `PROG_BASE`, its size checked (20_memory.md R53). -/
def State.placeProgram (s : State) (bytes : List Byte) : State :=
  { s with mem := s.mem.writeBytes Config.progBase bytes, loaded := true }

/-! ## The halt entry and reset -/

/-- `raise E(info)` (60_exceptions.md R202): the halt entry, this hardware's only exception entry. It writes
`halt_cause`, `fault_pc`, `fault_info` and `run_state` and nothing else. -/
def State.raise (s : State) (e : HaltCause) (info : Info) : State :=
  { s with haltCause := e, faultPc := s.pc, faultInfo := info, runState := .halted }

/-- `raise OutOfBounds(a)` for an address of unbounded arithmetic (60_exceptions.md R201). -/
def State.raiseOutOfBounds (s : State) (a : Nat) : State := s.raise .outOfBounds (BitVec.ofNat 17 a)

/-- `rst` (70_reset_and_hazards.md R230; 60_exceptions.md R204): the only way out of HALTED, there being no
return from a halt. Every piece of state takes its reset value; the parameter FONT, the strap, the pins, the moves
to come and the counters of the unscheduled ones belong to the world outside and stay (log entry 10). -/
def State.resetBy (s : State) : State :=
  { State.resetWith s.mem.font with
    strict := s.strict
    inputs := s.inputs
    schedule := s.schedule
    stepsToTick := s.stepsToTick
    draws := s.draws }

/-! ## Steps and ticks -/

/-- A step begins: the input pins take their values and no output pulse stands yet (log entries 1, 13). -/
def State.latch (s : State) (inp : Inputs) : State := { s with inputs := inp, out := .quiet }

/-- A move that drives no output. -/
def State.quietOut (s : State) : State := { s with out := .quiet }

/-- `run_state ∈ {RUN, WAIT_KEY}` (60_exceptions.md R207, R210). -/
def RunState.active : RunState → Bool
  | .idle => false
  | .run => true
  | .waitKey => true
  | .halted => false

/-- A timer counts down and stays at 0 (60_exceptions.md R207). -/
def countDown (t : Byte) : Byte := if t = 0 then 0 else t - 1

/-- `Tick` (60_exceptions.md R207): only in RUN and WAIT_KEY, and only DT and ST. -/
def State.tick (s : State) : State :=
  if s.runState.active then { s with dt := countDown s.dt, st := countDown s.st } else s

/-- One rising edge of a divider: the new count and whether it wrapped (60_exceptions.md R208, R210). -/
def divide (div cnt : Nat) : Nat × Bool := if cnt = div - 1 then (0, true) else (cnt + 1, false)

/-- The dividers' counts (10_state.md R28). -/
def State.setDividers (s : State) (d c : Nat) : State := { s with divCnt := d, stepCnt := c }

/-- The dividers on a rising edge of `clk`: a tick that falls due is applied first, and the answer says
whether a step falls due in the same cycle (60_exceptions.md R208 to R210). -/
def State.clockEdge (timerDiv instrDiv : Nat) (s : State) : State × Bool :=
  let d := divide timerDiv s.divCnt
  let c := divide instrDiv s.stepCnt
  let ticked := if d.2 then s.tick else s
  (ticked.setDividers d.1 c.1, c.2 && s.runState.active)

end Sys2Proof.Machine
end

