-- ==== Sys2Proof/Machine/Flags.lean ====
section
/-! DEFINITION. The flag computations and the order in which a result and its flag are written
(43_alu.md R130; 00_scope.md R9; 10_state.md R21). -/

namespace Sys2Proof.Machine

/-- A flag as the byte VF takes. -/
def flagByte (f : Bool) : Byte := if f then 1 else 0

/-- Carry of a + b: `a + b > 255` in unbounded integers (43_alu.md R130). -/
def carryOf (a b : Byte) : Bool := decide (a.toNat + b.toNat > 255)

/-- No borrow of a − b: not `a < b` (43_alu.md R130: VF = 1 means no borrow). -/
def noBorrowOf (a b : Byte) : Bool := !decide (a.toNat < b.toNat)

/-- Old bit 0 (43_alu.md R139). -/
def lsbOf (a : Byte) : Bool := a.getLsbD 0

/-- Old bit 7 (43_alu.md R141). -/
def msbOf (a : Byte) : Bool := a.getLsbD 7

/-- `V[x] <- r; VF <- f`, the flag written last, so that it remains when x = 0xF (00_scope.md R9;
92_eei_decisions.md D9). -/
def State.writeResultFlag (s : State) (x : Nibble) (r : Byte) (f : Bool) : State :=
  (s.writeV x r).writeV VF (flagByte f)

end Sys2Proof.Machine
end

