-- ==== Sys2Proof/Machine/Operands.lean ====
section
/-! DEFINITION. Operand forms: zero extension of immediates, the effective addresses and the values computed
from an operand (30_encoding.md R63; 00_scope.md R10). -/

namespace Sys2Proof.Machine

/-- `zext_16(nnn)` (30_encoding.md R63). -/
def zextAddr (nnn : Addr) : Word := nnn.setWidth 16

/-- `zext_16(V[x])` (42_control_flow.md R117; 44_index_memory.md R151, R152). -/
def zextByte (b : Byte) : Word := b.setWidth 16

/-- The first byte address of a transfer at I, an unbounded integer (00_scope.md R10). -/
def State.dataAddr (s : State) : Nat := s.iReg.toNat

/-- The number of registers V0..Vx, the upper bound included (30_encoding.md R63). -/
def rangeCount (x : Nibble) : Nat := x.toNat + 1

/-- The target of `JP V0, nnn`: the 16-bit sum, which cannot overflow (42_control_flow.md R117). -/
def State.computedTarget (s : State) (nnn : Addr) : Word := zextByte (s.readV 0) + zextAddr nnn

/-- The address of the glyph for a whole byte: `zext_16(V[x]) * 5` (44_index_memory.md R152). -/
def glyphAddr (b : Byte) : Word := zextByte b * 5

/-- The three decimal digits: hundreds, tens, ones (43_alu.md R130; 44_index_memory.md R153). -/
def bcdDigits (b : Byte) : List Byte := [b / 100, (b / 10) % 10, b % 10]

end Sys2Proof.Machine
end

