-- ==== Sys2Proof/Machine/Alu.lean ====
section
/-! DEFINITION. The ALU, register loads and the random byte (43_alu.md). Every operand is read from the state
before any write (00_scope.md R9). -/

namespace Sys2Proof.Machine

/-- R131 `LD Vx, nn`. -/
def execLdImm (x : Nibble) (nn : Byte) (s : State) : Result := .next (s.writeV x nn).advance

/-- R132 `ADD Vx, nn`: no flag. -/
def execAddImm (x : Nibble) (nn : Byte) (s : State) : Result := .next (s.writeV x (s.readV x + nn)).advance

/-- R133 `LD Vx, Vy`. -/
def execLdReg (x y : Nibble) (s : State) : Result := .next (s.writeV x (s.readV y)).advance

/-- R134 `OR Vx, Vy`. -/
def execOrReg (x y : Nibble) (s : State) : Result := .next (s.writeV x (s.readV x ||| s.readV y)).advance

/-- R135 `AND Vx, Vy`. -/
def execAndReg (x y : Nibble) (s : State) : Result := .next (s.writeV x (s.readV x &&& s.readV y)).advance

/-- R136 `XOR Vx, Vy`. -/
def execXorReg (x y : Nibble) (s : State) : Result := .next (s.writeV x (s.readV x ^^^ s.readV y)).advance

/-- R137 `ADD Vx, Vy`. -/
def execAddReg (x y : Nibble) (s : State) : Result :=
  let a := s.readV x
  let b := s.readV y
  .next (s.writeResultFlag x (a + b) (carryOf a b)).advance

/-- R138 `SUB Vx, Vy`. -/
def execSubReg (x y : Nibble) (s : State) : Result :=
  let a := s.readV x
  let b := s.readV y
  .next (s.writeResultFlag x (a - b) (noBorrowOf a b)).advance

/-- R139 `SHR Vx {, Vy}`: y is not read. -/
def execShr (x _y : Nibble) (s : State) : Result :=
  let a := s.readV x
  .next (s.writeResultFlag x (a >>> 1) (lsbOf a)).advance

/-- R140 `SUBN Vx, Vy`. -/
def execSubnReg (x y : Nibble) (s : State) : Result :=
  let a := s.readV x
  let b := s.readV y
  .next (s.writeResultFlag x (b - a) (noBorrowOf b a)).advance

/-- R141 `SHL Vx {, Vy}`: y is not read. -/
def execShl (x _y : Nibble) (s : State) : Result :=
  let a := s.readV x
  .next (s.writeResultFlag x (a <<< 1) (msbOf a)).advance

/-- R142 `RND Vx, nn`: one random byte is consumed, whatever nn is. -/
def execRnd (x : Nibble) (nn : Byte) (s : State) : Result :=
  .next (s.takeRandom.writeV x (s.inputs.rnd &&& nn)).advance

end Sys2Proof.Machine
end

