-- ==== Sys2Proof/Machine/ControlFlow.lean ====
section
/-! DEFINITION. Returns, jumps, calls and skips (42_control_flow.md). -/

namespace Sys2Proof.Machine

/-- R110 `RET`. -/
def execRet (s : State) : Result :=
  if s.sp = 0 then .next (s.raise .stackUnderflow 0)
  else
    let (s', target) := s.pop
    .next (s'.setPc target)

/-- R111 `JP nnn`. -/
def execJp (nnn : Addr) (s : State) : Result := .next (s.setPc (zextAddr nnn))

/-- R112 `CALL nnn`: pushes pc + 2. -/
def execCall (nnn : Addr) (s : State) : Result :=
  if s.stackFull then .next (s.raise .stackOverflow (s.sp.setWidth 17))
  else .next ((s.push (s.pc + 2)).setPc (zextAddr nnn))

/-- R113 `SE Vx, nn`. -/
def execSeImm (x : Nibble) (nn : Byte) (s : State) : Result := .next (s.skipIf (s.readV x == nn))

/-- R114 `SNE Vx, nn`. -/
def execSneImm (x : Nibble) (nn : Byte) (s : State) : Result := .next (s.skipIf (s.readV x != nn))

/-- R115 `SE Vx, Vy`. -/
def execSeReg (x y : Nibble) (s : State) : Result := .next (s.skipIf (s.readV x == s.readV y))

/-- R116 `SNE Vx, Vy`. -/
def execSneReg (x y : Nibble) (s : State) : Result := .next (s.skipIf (s.readV x != s.readV y))

/-- R117 `JP V0, nnn`: no mask, no wrap. -/
def execJpV0 (nnn : Addr) (s : State) : Result := .next (s.setPc (s.computedTarget nnn))

/-- R118 `SKP Vx`: the query is the full 8 bits of VX. -/
def execSkp (x : Nibble) (s : State) : Result :=
  .next ((s.queryKey (s.readV x)).skipIf (s.inputs.keyDown (s.readV x)))

/-- R119 `SKNP Vx`. -/
def execSknp (x : Nibble) (s : State) : Result :=
  .next ((s.queryKey (s.readV x)).skipIf (!s.inputs.keyDown (s.readV x)))

end Sys2Proof.Machine
end

