-- ==== Sys2Proof/Machine/Display.lean ====
section
/-! DEFINITION. The display instructions (41_display.md). -/

namespace Sys2Proof.Machine

/-- R100 `CLS`: emit Clear(). -/
def execCls (s : State) : Result := .next (s.emit .clear).advance

/-- The collision flag DRW writes: 0 for an empty sprite, else the display's answer (R101; 92_eei_decisions.md D11). -/
def State.collisionFlag (s : State) (n : Nibble) : Bool := if n = 0 then false else s.inputs.collision

/-- R101 `DRW Vx, Vy, n`: the whole range is checked, the n rows are read at I, the request is emitted, and VF
takes the collision bit. -/
def execDrw (x y n : Nibble) (s : State) : Result :=
  match firstRefused readRefused s.dataAddr n.toNat with
  | some a => .next (s.raiseOutOfBounds a)
  | none =>
    let (s', rows) := s.loadBytes s.dataAddr n.toNat
    .next ((s'.emit (.draw (s.readV x) (s.readV y) rows)).writeV VF (flagByte (s.collisionFlag n))).advance

end Sys2Proof.Machine
end

