-- ==== Sys2Proof/Machine/IndexMemory.lean ====
section
/-! DEFINITION. The address register and the memory transfers (44_index_memory.md). No transfer writes I (R156). -/

namespace Sys2Proof.Machine

/-- R150 `LD I, nnn`. -/
def execLdI (nnn : Addr) (s : State) : Result := .next (s.setI (zextAddr nnn)).advance

/-- R151 `ADD I, Vx`: wraps at 16 bits, VF untouched. -/
def execAddI (x : Nibble) (s : State) : Result := .next (s.setI (s.iReg + zextByte (s.readV x))).advance

/-- R152 `LD F, Vx`: the whole of VX times 5. -/
def execLdF (x : Nibble) (s : State) : Result := .next (s.setI (glyphAddr (s.readV x))).advance

/-- The checked store of FX33 and FX55: every address is checked, in ascending order, before any write
(20_memory.md R44, R46). -/
def State.storeChecked (s : State) (bytes : List Byte) : State :=
  match firstRefused writeRefused s.dataAddr bytes.length with
  | some a => s.raiseOutOfBounds a
  | none => (s.storeBytes s.dataAddr bytes).advance

/-- R153 `LD B, Vx`. -/
def execLdB (x : Nibble) (s : State) : Result := .next (s.storeChecked (bcdDigits (s.readV x)))

/-- R154 `LD [I], Vx`: V0..VX, both ends included. -/
def execLdMemVx (x : Nibble) (s : State) : Result := .next (s.storeChecked (s.regs (rangeCount x)))

/-- R155 `LD Vx, [I]`: every address is checked before any register is written; reading below 0x200 is allowed. -/
def execLdVxMem (x : Nibble) (s : State) : Result :=
  match firstRefused readRefused s.dataAddr (rangeCount x) with
  | some a => .next (s.raiseOutOfBounds a)
  | none =>
    let (s', bytes) := s.loadBytes s.dataAddr (rangeCount x)
    .next (s'.writeRegs 0 bytes).advance

end Sys2Proof.Machine
end

