-- ==== Sys2Proof/Machine/TimersKeys.lean ====
section
/-! DEFINITION. Timer access and the key wait (45_timers_keys.md). -/

namespace Sys2Proof.Machine

/-- R160 `LD Vx, DT`. -/
def execLdVxDt (x : Nibble) (s : State) : Result := .next (s.writeV x s.dt).advance

/-- R161 `LD Vx, K`, the step that executes the word: it enters the wait and does not advance pc. -/
def execLdVxK (x : Nibble) (s : State) : Result := .next (s.enterWait x)

/-- R162 `LD DT, Vx`. -/
def execLdDtVx (x : Nibble) (s : State) : Result := .next (s.setDt (s.readV x)).advance

/-- R163 `LD ST, Vx`. -/
def execLdStVx (x : Nibble) (s : State) : Result := .next (s.setSt (s.readV x)).advance

/-- R161, a step in WAIT_KEY: the stop check first (60_exceptions.md R215), then at most one press event. -/
def waitStep (s : State) : State :=
  if s.inputs.stop then s.raise .stop 0
  else
    match s.inputs.keyEvent with
    | none => s
    | some k => (s.ackKey.writeV s.waitX k).leaveWait.advance

end Sys2Proof.Machine
end

