-- ==== Sys2Proof/Syntax.lean ====
section
/-! DEFINITION. The abstract syntax: one constructor per row of spec/opcode_table.json (30_encoding.md R64).
Operands are the fields of R62 and R63, typed at their widths. -/

namespace Sys2Proof

/-- The 34 instructions. `x`, `y` name registers, `nn` is an 8-bit immediate, `nnn` a 12-bit address and
`n` a row count (30_encoding.md R63). The docstrings give the pattern of R64. -/
inductive Instr
  /-- `00E0` CLS -/
  | cls
  /-- `00EE` RET -/
  | ret
  /-- `1NNN` JP nnn -/
  | jp (nnn : Addr)
  /-- `2NNN` CALL nnn -/
  | call (nnn : Addr)
  /-- `3XNN` SE Vx, nn -/
  | seImm (x : Nibble) (nn : Byte)
  /-- `4XNN` SNE Vx, nn -/
  | sneImm (x : Nibble) (nn : Byte)
  /-- `5XY0` SE Vx, Vy -/
  | seReg (x y : Nibble)
  /-- `6XNN` LD Vx, nn -/
  | ldImm (x : Nibble) (nn : Byte)
  /-- `7XNN` ADD Vx, nn -/
  | addImm (x : Nibble) (nn : Byte)
  /-- `8XY0` LD Vx, Vy -/
  | ldReg (x y : Nibble)
  /-- `8XY1` OR Vx, Vy -/
  | orReg (x y : Nibble)
  /-- `8XY2` AND Vx, Vy -/
  | andReg (x y : Nibble)
  /-- `8XY3` XOR Vx, Vy -/
  | xorReg (x y : Nibble)
  /-- `8XY4` ADD Vx, Vy -/
  | addReg (x y : Nibble)
  /-- `8XY5` SUB Vx, Vy -/
  | subReg (x y : Nibble)
  /-- `8XY6` SHR Vx {, Vy}: y is decoded and ignored (R66; 92_eei_decisions.md D8) -/
  | shr (x y : Nibble)
  /-- `8XY7` SUBN Vx, Vy -/
  | subnReg (x y : Nibble)
  /-- `8XYE` SHL Vx {, Vy}: y is decoded and ignored (R66; 92_eei_decisions.md D8) -/
  | shl (x y : Nibble)
  /-- `9XY0` SNE Vx, Vy -/
  | sneReg (x y : Nibble)
  /-- `ANNN` LD I, nnn -/
  | ldI (nnn : Addr)
  /-- `BNNN` JP V0, nnn -/
  | jpV0 (nnn : Addr)
  /-- `CXNN` RND Vx, nn -/
  | rnd (x : Nibble) (nn : Byte)
  /-- `DXYN` DRW Vx, Vy, n -/
  | drw (x y n : Nibble)
  /-- `EX9E` SKP Vx -/
  | skp (x : Nibble)
  /-- `EXA1` SKNP Vx -/
  | sknp (x : Nibble)
  /-- `FX07` LD Vx, DT -/
  | ldVxDt (x : Nibble)
  /-- `FX0A` LD Vx, K -/
  | ldVxK (x : Nibble)
  /-- `FX15` LD DT, Vx -/
  | ldDtVx (x : Nibble)
  /-- `FX18` LD ST, Vx -/
  | ldStVx (x : Nibble)
  /-- `FX1E` ADD I, Vx -/
  | addI (x : Nibble)
  /-- `FX29` LD F, Vx -/
  | ldF (x : Nibble)
  /-- `FX33` LD B, Vx -/
  | ldB (x : Nibble)
  /-- `FX55` LD [I], Vx -/
  | ldMemVx (x : Nibble)
  /-- `FX65` LD Vx, [I] -/
  | ldVxMem (x : Nibble)
  deriving DecidableEq, Repr

end Sys2Proof
end

