-- ==== Sys2Proof/WellFormed.lean ====
section
/-! DEFINITION. Well-formedness: every operand number fits its field (30_encoding.md R63, R68: `nnn` is
0..0xFFF, `nn` 0..0xFF, `n` 0..15, a register V0..VF; "a value out of range is an assembly error, not a
truncation"), a directive's value fits (R68), and a program fits the memory above 0x200 (20_memory.md R53).

A term of `Instr` carries its operands at their widths, so `Instr.wf` holds of every term; the checks bite
on the numbers an assembler or a host supplies (Machine/Assembler.lean applies them before it builds an
`Instr`). -/

namespace Sys2Proof

/-- The kinds of number a source line may hold (30_encoding.md R63, R68). -/
inductive NumKind
  | reg | nibble | byte | addr | word
  deriving DecidableEq, Repr

/-- The width of the field that takes such a number. -/
def NumKind.width : NumKind → Nat
  | .reg => 4
  | .nibble => 4
  | .byte => 8
  | .addr => 12
  | .word => 16

/-- A number fits the field of its kind (30_encoding.md R68). -/
def NumKind.fits (k : NumKind) (v : Nat) : Bool := decide (v < 2 ^ k.width)

/-- The operand numbers of an instruction, in the order of its syntax (30_encoding.md R64). -/
def Instr.numbers : Instr → List (NumKind × Nat)
  | .cls => []
  | .ret => []
  | .jp nnn => [(.addr, nnn.toNat)]
  | .call nnn => [(.addr, nnn.toNat)]
  | .seImm x nn => [(.reg, x.toNat), (.byte, nn.toNat)]
  | .sneImm x nn => [(.reg, x.toNat), (.byte, nn.toNat)]
  | .seReg x y => [(.reg, x.toNat), (.reg, y.toNat)]
  | .ldImm x nn => [(.reg, x.toNat), (.byte, nn.toNat)]
  | .addImm x nn => [(.reg, x.toNat), (.byte, nn.toNat)]
  | .ldReg x y => [(.reg, x.toNat), (.reg, y.toNat)]
  | .orReg x y => [(.reg, x.toNat), (.reg, y.toNat)]
  | .andReg x y => [(.reg, x.toNat), (.reg, y.toNat)]
  | .xorReg x y => [(.reg, x.toNat), (.reg, y.toNat)]
  | .addReg x y => [(.reg, x.toNat), (.reg, y.toNat)]
  | .subReg x y => [(.reg, x.toNat), (.reg, y.toNat)]
  | .shr x y => [(.reg, x.toNat), (.reg, y.toNat)]
  | .subnReg x y => [(.reg, x.toNat), (.reg, y.toNat)]
  | .shl x y => [(.reg, x.toNat), (.reg, y.toNat)]
  | .sneReg x y => [(.reg, x.toNat), (.reg, y.toNat)]
  | .ldI nnn => [(.addr, nnn.toNat)]
  | .jpV0 nnn => [(.addr, nnn.toNat)]
  | .rnd x nn => [(.reg, x.toNat), (.byte, nn.toNat)]
  | .drw x y n => [(.reg, x.toNat), (.reg, y.toNat), (.nibble, n.toNat)]
  | .skp x => [(.reg, x.toNat)]
  | .sknp x => [(.reg, x.toNat)]
  | .ldVxDt x => [(.reg, x.toNat)]
  | .ldVxK x => [(.reg, x.toNat)]
  | .ldDtVx x => [(.reg, x.toNat)]
  | .ldStVx x => [(.reg, x.toNat)]
  | .addI x => [(.reg, x.toNat)]
  | .ldF x => [(.reg, x.toNat)]
  | .ldB x => [(.reg, x.toNat)]
  | .ldMemVx x => [(.reg, x.toNat)]
  | .ldVxMem x => [(.reg, x.toNat)]

/-- Every operand number fits its field. -/
def Instr.wf (i : Instr) : Bool := i.numbers.all fun kv => kv.1.fits kv.2

/-- A program image `load_program` accepts (20_memory.md R53: L ≤ MAX_ROM). -/
def Image.wf (bytes : List Byte) : Bool := decide (bytes.length ≤ Config.maxRom)

end Sys2Proof
end

