-- ==== Sys2Proof/Machine/Fetch.lean ====
section
/-! DEFINITION. What a step does before the instruction rule: the checks in the order of 60_exceptions.md R203,
the fetch (30_encoding.md R71) and the invalid-opcode policy (R76). -/

namespace Sys2Proof.Machine

/-- R71: the word at pc, or the address that is out of bounds. -/
def fetchWord (s : State) : Except Nat Word :=
  let a := s.pc.toNat
  if readRefused a then .error a
  else if readRefused (a + 1) then .error (a + 1)
  else .ok (s.mem.read a ++ s.mem.read (a + 1))

/-- The fetch's two cycles on the memory port (20_memory.md R45, R52). -/
def State.logFetch (s : State) : State :=
  s.logBus (busCycles false s.pc.toNat (s.mem.readBytes s.pc.toNat 2))

/-- R76: an invalid word under the policy of the strap (10_state.md R29). -/
def State.invalidOpcode (s : State) (w : Word) : State :=
  if s.strict then s.raise .invalidOpcode (w.setWidth 17)
  else s.markIllSeen.advance

/-- What the checks before the instruction rule come to. -/
inductive Fetched
  /-- the instruction at pc, and the state its rule starts from -/
  | instr (i : Instr) (s : State)
  /-- the step is over: a halt, or an invalid word passed over -/
  | ended (s : State)

/-- A step in RUN up to dispatch (30_encoding.md R70 to R73, R76), in the priority of 60_exceptions.md R203. -/
def fetch (s : State) : Fetched :=
  if s.inputs.stop then .ended (s.raise .stop 0)
  else if !s.loaded then .ended (s.raise .uninitializedProgram 0)
  else
    match fetchWord s with
    | .error a => .ended (s.raiseOutOfBounds a)
    | .ok w =>
      match decodeWord w with
      | .ok i => .instr i s.logFetch
      | .error _ => .ended (s.logFetch.invalidOpcode w)

end Sys2Proof.Machine
end

