-- ==== Sys2Proof/Machine/HostPort.lean ====
section
/-! DEFINITION. The host's operations on the block (20_memory.md R53; 60_exceptions.md R215). -/

namespace Sys2Proof.Machine

/-- R53 `load_program(bytes)`: accepted in IDLE only; an oversized program raises OutOfBounds(0x1000) and
writes nothing. -/
def loadProgram (bytes : List Byte) (s : State) : Result :=
  match s.runState with
  | .idle =>
    if Image.wf bytes then .next (s.placeProgram bytes)
    else .next (s.raiseOutOfBounds (Config.progBase + Config.maxRom))
  | .run => .refused .loadOutsideIdle
  | .waitKey => .refused .loadOutsideIdle
  | .halted => .refused .loadOutsideIdle

/-- R215 `start`: IDLE to RUN, ignored in every other state. -/
def State.startBy (s : State) : State :=
  match s.runState with
  | .idle => { s with runState := .run }
  | .run => s
  | .waitKey => s
  | .halted => s

/-- R215 `stop` between steps: IDLE, RUN and WAIT_KEY halt with cause Stop; HALTED ignores it
(92_eei_decisions.md D24; log entry 12). -/
def State.stopBy (s : State) : State :=
  match s.runState with
  | .idle => s.raise .stop 0
  | .run => s.raise .stop 0
  | .waitKey => s.raise .stop 0
  | .halted => s

/-- The stop pin on a clock edge at which no step begins (60_exceptions.md R215): it halts an IDLE core. RUN and
WAIT_KEY sample it when their next step begins, and HALTED ignores it. DESIGN CHOICE: the spec does not say at which
event IDLE samples the pin, and the model samples it on every clock edge (log entry 12). -/
def State.sampleStop (s : State) (stop : Bool) : State :=
  match s.runState with
  | .idle => if stop then s.raise .stop 0 else s
  | .run => s
  | .waitKey => s
  | .halted => s

end Sys2Proof.Machine
end

