-- ==== Sys2Proof/Machine/Run.lean ====
section
/-! DEFINITION. One move of the machine: an instruction step, a key-wait step, a tick, a clock edge or a host
operation (30_encoding.md R70, R78, R79; 60_exceptions.md R209, R215). -/

namespace Sys2Proof.Machine

/-- A step of the core whose input pins are latched (30_encoding.md R70 to R79). In IDLE and HALTED there is
no step (R78, R79 item 3; log entry 3). -/
def coreStep (s : State) : Result :=
  match s.runState with
  | .idle => .fault .noStepIdle
  | .halted => .fault .noStepHalted
  | .waitKey => .next (waitStep s)
  | .run =>
    match fetch s with
    | .instr i s' => exec i s'
    | .ended s' => .next s'

/-- One rising edge of `clk`, the divider lengths given (60_exceptions.md R208 to R210, R215): the dividers count, in
every state; a tick that falls due is applied; then a step that falls due runs. Where none does, the stop pin still
halts an IDLE core: that IDLE samples it on every edge is a DESIGN CHOICE (log entry 12). -/
def clkMove (timerDiv instrDiv : Nat) (inp : Inputs) (s : State) : Result :=
  let e := s.clockEdge timerDiv instrDiv
  if e.2 then coreStep (e.1.latch inp) else .next (e.1.quietOut.sampleStop inp.stop)

/-- One move (60_exceptions.md R209, R215). -/
def runMove (m : Move) (s : State) : Result :=
  match m with
  | .step inp => coreStep (s.latch inp)
  | .tick => .next s.quietOut.tick
  | .clk inp => clkMove Config.timerDiv Config.instrDiv inp s
  | .start => .next s.quietOut.startBy
  | .stop => .next s.quietOut.stopBy
  | .load bytes => loadProgram bytes s.quietOut
  | .rst => .next s.resetBy

/-- The input pins of an unscheduled step: no stop, and free values for the rest (log entry 2). -/
def freeInputs (n : Nat) : Inputs :=
  { stop := false, rnd := Config.freeRandom n, keysDown := Config.freeKeysDown n,
    keyEvent := Config.freeKeyEvent n, collision := Config.freeCollision n }

/-- The next move, and the state with it taken from the schedule. With the schedule empty, steps with free inputs
and ticks follow each other, any number of steps between two ticks and so infinitely many ticks in an infinite run
(60_exceptions.md R209; log entry 2). -/
def State.nextMove (s : State) : Move × State :=
  match s.schedule with
  | m :: rest => (m, { s with schedule := rest })
  | [] =>
    match s.stepsToTick with
    | 0 => (.tick, { s with stepsToTick := Config.freeGap s.draws, draws := s.draws + 1 })
    | k + 1 => (.step (freeInputs s.draws), { s with stepsToTick := k, draws := s.draws + 1 })

/-- Where a step fetches its next instruction once a program is placed: at pc, or at the entry point when no
fetch at pc can succeed (30_encoding.md R71). -/
def State.fetchAddr (s : State) : Nat := if s.pc.toNat + 1 ≤ Config.maxAddr then s.pc.toNat else Config.progBase

/-- `load_program` and `start` in one (70_reset_and_hazards.md R231): these bytes stand where the next step
fetches, and the very next move is that step (log entry 11). -/
def State.placeAtFetch (s : State) (bytes : List Byte) : State :=
  { s with
    mem := s.mem.writeBytes s.fetchAddr bytes
    pc := BitVec.ofNat 16 s.fetchAddr
    loaded := true
    runState := .run
    schedule := []
    stepsToTick := s.stepsToTick + 1 }

end Sys2Proof.Machine
end

