-- ==== Sys2Proof/Machine/Step.lean ====
section
/-! DEFINITION. The step function and the placing of one instruction word. -/

namespace Sys2Proof.Machine

/-- One move: the oldest of the schedule, or an unscheduled tick or step. -/
def step (s : State) : Host.Outcome State Fault Refusal := runMove s.nextMove.1 s.nextMove.2

/-- `s` with the instruction of the opcode-table number `w` where the next step fetches, so that the next step
runs it (log entry 11). -/
def State.withFetchWord (s : State) (nbits w : Nat) : State :=
  s.placeAtFetch [hiByte (tableWord nbits w), loByte (tableWord nbits w)]

end Sys2Proof.Machine
end

