-- ==== Sys2Proof/Machine/Assembler.lean ====
section
/-! DEFINITION. The assembler of 30_encoding.md R68, R69, from tokens on: mnemonics, operands, labels and the two
directives (log entry 16 for what lies before the tokens). Every mnemonic form makes exactly one word; a
value out of range is an error, not a truncation. -/

namespace Sys2Proof.Asm

/-- The mnemonics (30_encoding.md R68; 92_eei_decisions.md D23). -/
inductive Mnemonic
  | cls | ret | jp | call | se | sne | ld | add | or | and | xor | sub | shr | subn | shl | rnd | drw | skp | sknp
  deriving DecidableEq, Repr

/-- The operand tokens (30_encoding.md R68). -/
inductive Operand
  | reg (k : Nat)
  | num (v : Nat)
  | label (name : String)
  | i | dt | st | k | f | b | memI
  deriving DecidableEq, Repr

/-- A line of source (30_encoding.md R68). -/
inductive Line
  | label (name : String)
  | instr (m : Mnemonic) (operands : List Operand)
  | word (v : Nat)
  | byte (v : Nat)
  deriving DecidableEq, Repr

/-- An assembly error. -/
inductive Error
  | outOfRange (v : Nat)
  | unknownLabel (name : String)
  | noSuchForm
  deriving DecidableEq, Repr

/-- The labels and their addresses. -/
abbrev Labels := List (String × Nat)

/-- A number that fits its field, at the field's width (30_encoding.md R68). -/
def number (k : NumKind) (v : Nat) : Except Error (BitVec k.width) :=
  if k.fits v then .ok (BitVec.ofNat k.width v) else .error (.outOfRange v)

/-- An `nnn` operand: a number, or a label wherever `nnn` may stand (30_encoding.md R68). -/
def address (labels : Labels) : Operand → Except Error Addr
  | .num v => number .addr v
  | .label name =>
    match labels.lookup name with
    | some a => number .addr a
    | none => .error (.unknownLabel name)
  | _ => .error .noSuchForm

/-- One register operand. -/
def oneReg (f : Nibble → Instr) (x : Nat) : Except Error Instr := do
  let x ← number .reg x
  .ok (f x)

/-- Two register operands. -/
def twoRegs (f : Nibble → Nibble → Instr) (x y : Nat) : Except Error Instr := do
  let x ← number .reg x
  let y ← number .reg y
  .ok (f x y)

/-- A register and an 8-bit immediate. -/
def regByte (f : Nibble → Byte → Instr) (x nn : Nat) : Except Error Instr := do
  let x ← number .reg x
  let nn ← number .byte nn
  .ok (f x nn)

/-- Two register operands, written `Vx, Vy` (30_encoding.md R64). -/
def formVxVy (f : Nibble → Nibble → Instr) : List Operand → Except Error Instr
  | [.reg x, .reg y] => twoRegs f x y
  | _ => .error .noSuchForm

/-- `Vx {, Vy}`: the second operand is optional, and y = 0 when it is omitted (30_encoding.md R68). -/
def formShift (f : Nibble → Nibble → Instr) : List Operand → Except Error Instr
  | [.reg x] => twoRegs f x 0
  | [.reg x, .reg y] => twoRegs f x y
  | _ => .error .noSuchForm

/-- `Vx, nn` or `Vx, Vy`: the skips SE and SNE. -/
def formSkip (f : Nibble → Byte → Instr) (g : Nibble → Nibble → Instr) : List Operand → Except Error Instr
  | [.reg x, .num nn] => regByte f x nn
  | [.reg x, .reg y] => twoRegs g x y
  | _ => .error .noSuchForm

/-- One register operand. -/
def formVx (f : Nibble → Instr) : List Operand → Except Error Instr
  | [.reg x] => oneReg f x
  | _ => .error .noSuchForm

/-- No operand. -/
def formNone (i : Instr) : List Operand → Except Error Instr
  | [] => .ok i
  | _ => .error .noSuchForm

/-- `JP nnn` and `JP V0, nnn`. -/
def formJp (labels : Labels) : List Operand → Except Error Instr
  | [a] => do .ok (.jp (← address labels a))
  | [.reg 0, a] => do .ok (.jpV0 (← address labels a))
  | _ => .error .noSuchForm

/-- `CALL nnn`. -/
def formCall (labels : Labels) : List Operand → Except Error Instr
  | [a] => do .ok (.call (← address labels a))
  | _ => .error .noSuchForm

/-- `ADD Vx, nn`, `ADD Vx, Vy` and `ADD I, Vx`. -/
def formAdd : List Operand → Except Error Instr
  | [.reg x, .num nn] => regByte .addImm x nn
  | [.reg x, .reg y] => twoRegs .addReg x y
  | [.i, .reg x] => oneReg .addI x
  | _ => .error .noSuchForm

/-- The forms of LD whose first operand is Vx. -/
def formLdVx (x : Nat) : Operand → Except Error Instr
  | .num nn => regByte .ldImm x nn
  | .reg y => twoRegs .ldReg x y
  | .dt => oneReg .ldVxDt x
  | .k => oneReg .ldVxK x
  | .memI => oneReg .ldVxMem x
  | _ => .error .noSuchForm

/-- The forms of LD whose second operand is Vx and whose first is no register V. -/
def formLdFrom (x : Nat) : Operand → Except Error Instr
  | .dt => oneReg .ldDtVx x
  | .st => oneReg .ldStVx x
  | .f => oneReg .ldF x
  | .b => oneReg .ldB x
  | .memI => oneReg .ldMemVx x
  | _ => .error .noSuchForm

/-- The forms of LD (30_encoding.md R64). -/
def formLd (labels : Labels) : List Operand → Except Error Instr
  | [.reg x, second] => formLdVx x second
  | [.i, a] => do .ok (.ldI (← address labels a))
  | [first, .reg x] => formLdFrom x first
  | _ => .error .noSuchForm

/-- `RND Vx, nn`. -/
def formRnd : List Operand → Except Error Instr
  | [.reg x, .num nn] => regByte .rnd x nn
  | _ => .error .noSuchForm

/-- `DRW Vx, Vy, n`. -/
def formDrw : List Operand → Except Error Instr
  | [.reg x, .reg y, .num n] => do
    let x ← number .reg x
    let y ← number .reg y
    let n ← number .nibble n
    .ok (.drw x y n)
  | _ => .error .noSuchForm

/-- The instruction of a mnemonic and its operands: the syntax column of R64. -/
def assembleInstr (labels : Labels) (m : Mnemonic) (operands : List Operand) : Except Error Instr :=
  match m with
  | .cls => formNone .cls operands
  | .ret => formNone .ret operands
  | .jp => formJp labels operands
  | .call => formCall labels operands
  | .se => formSkip .seImm .seReg operands
  | .sne => formSkip .sneImm .sneReg operands
  | .ld => formLd labels operands
  | .add => formAdd operands
  | .or => formVxVy .orReg operands
  | .and => formVxVy .andReg operands
  | .xor => formVxVy .xorReg operands
  | .sub => formVxVy .subReg operands
  | .shr => formShift .shr operands
  | .subn => formVxVy .subnReg operands
  | .shl => formShift .shl operands
  | .rnd => formRnd operands
  | .drw => formDrw operands
  | .skp => formVx .skp operands
  | .sknp => formVx .sknp operands

/-- The bytes of a line, most significant byte first (30_encoding.md R68, R69). -/
def lineBytes (labels : Labels) : Line → Except Error (List Byte)
  | .label _ => .ok []
  | .instr m operands => do .ok (encodeBytes (← assembleInstr labels m operands))
  | .word v => do
    let w ← number .word v
    .ok [hiByte w, loByte w]
  | .byte v => do
    let b ← number .byte v
    .ok [b]

/-- How many bytes a line takes. -/
def Line.size : Line → Nat
  | .label _ => 0
  | .instr _ _ => 2
  | .word _ => 2
  | .byte _ => 1

/-- The address of every label, in source order from the address given. -/
def labelsFrom (a : Nat) : List Line → Labels
  | [] => []
  | l :: rest =>
    match l with
    | .label name => (name, a) :: labelsFrom a rest
    | .instr _ _ => labelsFrom (a + l.size) rest
    | .word _ => labelsFrom (a + l.size) rest
    | .byte _ => labelsFrom (a + l.size) rest

/-- The bytes of all lines. -/
def linesBytes (labels : Labels) : List Line → Except Error (List Byte)
  | [] => .ok []
  | l :: rest => do
    let here ← lineBytes labels l
    let after ← linesBytes labels rest
    .ok (here ++ after)

/-- A program: code from 0x200 onward in source order (30_encoding.md R68). -/
def assemble (lines : List Line) : Except Error (List Byte) :=
  linesBytes (labelsFrom Config.progBase lines) lines

/-- The source line of an instruction (the syntax column of R64). -/
def sourceOf : Instr → Mnemonic × List Operand
  | .cls => (.cls, [])
  | .ret => (.ret, [])
  | .jp nnn => (.jp, [.num nnn.toNat])
  | .call nnn => (.call, [.num nnn.toNat])
  | .seImm x nn => (.se, [.reg x.toNat, .num nn.toNat])
  | .sneImm x nn => (.sne, [.reg x.toNat, .num nn.toNat])
  | .seReg x y => (.se, [.reg x.toNat, .reg y.toNat])
  | .ldImm x nn => (.ld, [.reg x.toNat, .num nn.toNat])
  | .addImm x nn => (.add, [.reg x.toNat, .num nn.toNat])
  | .ldReg x y => (.ld, [.reg x.toNat, .reg y.toNat])
  | .orReg x y => (.or, [.reg x.toNat, .reg y.toNat])
  | .andReg x y => (.and, [.reg x.toNat, .reg y.toNat])
  | .xorReg x y => (.xor, [.reg x.toNat, .reg y.toNat])
  | .addReg x y => (.add, [.reg x.toNat, .reg y.toNat])
  | .subReg x y => (.sub, [.reg x.toNat, .reg y.toNat])
  | .shr x y => (.shr, [.reg x.toNat, .reg y.toNat])
  | .subnReg x y => (.subn, [.reg x.toNat, .reg y.toNat])
  | .shl x y => (.shl, [.reg x.toNat, .reg y.toNat])
  | .sneReg x y => (.sne, [.reg x.toNat, .reg y.toNat])
  | .ldI nnn => (.ld, [.i, .num nnn.toNat])
  | .jpV0 nnn => (.jp, [.reg 0, .num nnn.toNat])
  | .rnd x nn => (.rnd, [.reg x.toNat, .num nn.toNat])
  | .drw x y n => (.drw, [.reg x.toNat, .reg y.toNat, .num n.toNat])
  | .skp x => (.skp, [.reg x.toNat])
  | .sknp x => (.sknp, [.reg x.toNat])
  | .ldVxDt x => (.ld, [.reg x.toNat, .dt])
  | .ldVxK x => (.ld, [.reg x.toNat, .k])
  | .ldDtVx x => (.ld, [.dt, .reg x.toNat])
  | .ldStVx x => (.ld, [.st, .reg x.toNat])
  | .addI x => (.add, [.i, .reg x.toNat])
  | .ldF x => (.ld, [.f, .reg x.toNat])
  | .ldB x => (.ld, [.b, .reg x.toNat])
  | .ldMemVx x => (.ld, [.memI, .reg x.toNat])
  | .ldVxMem x => (.ld, [.reg x.toNat, .memI])

end Sys2Proof.Asm
end

