-- ==== Sys2Proof/Machine/Ports.lean ====
section
/-! DEFINITION. What the block drives on its output pins, computed from the state (60_exceptions.md R200, R211
to R215). Nothing in a step reads these. -/

namespace Sys2Proof.Machine

/-- The 2-bit code of `run_state` (10_state.md R28). -/
def RunState.code : RunState → BitVec 2
  | .idle => 0
  | .run => 1
  | .waitKey => 2
  | .halted => 3

/-- The 3-bit code of `halt_cause` (10_state.md R28; 60_exceptions.md R200). -/
def HaltCause.code : HaltCause → BitVec 3
  | .none => 0
  | .outOfBounds => 1
  | .stackOverflow => 2
  | .stackUnderflow => 3
  | .invalidOpcode => 4
  | .uninitializedProgram => 5
  | .stop => 6

/-- The status port (60_exceptions.md R215). -/
structure StatusPort where
  runState : BitVec 2
  haltCause : BitVec 3
  faultPc : Word
  faultInfo : Info
  loaded : Bool
  illSeen : Bool
  deriving DecidableEq, Repr

/-- What the host reads on the status port. -/
def State.statusPort (s : State) : StatusPort :=
  { runState := s.runState.code, haltCause := s.haltCause.code, faultPc := s.faultPc,
    faultInfo := s.faultInfo, loaded := s.loaded, illSeen := s.illSeen }

/-- The audio port: `tone = (ST ≠ 0)` (60_exceptions.md R213). -/
def State.tone (s : State) : Bool := s.st != 0

/-- `disp_clear` (60_exceptions.md R211). -/
def State.dispClear (s : State) : Bool := s.out.requests.contains .clear

/-- The pins that go with `disp_draw` (60_exceptions.md R211). -/
structure DrawPins where
  x : Byte
  y : Byte
  n : Nibble
  rows : Vector Byte 15
  deriving DecidableEq, Repr

/-- The pins of one request; a row byte at index ≥ n is don't-care, a free value (60_exceptions.md R211). -/
def Request.drawPins : Request → Option DrawPins
  | .clear => none
  | .draw x y rows =>
    some { x := x, y := y, n := BitVec.ofNat 4 rows.length
           rows := Vector.ofFn fun k => rows.getD k.val (Config.freeDispRow k.val) }

/-- `disp_draw` with its pins, when the latest move drew (60_exceptions.md R211). -/
def State.dispDraw (s : State) : Option DrawPins := s.out.requests.findSome? Request.drawPins

end Sys2Proof.Machine
end

