-- ==== Sys2Proof/Safety.lean ====
section
/-! DEFINITION. The terms claims are made in: what one state keeps of another (frames), and the invariant of
the machine. -/

namespace Sys2Proof.Safety

open Sys2Proof.Machine

/-! ## Frames: `t` keeps of `s` what the name says. -/

/-- Every register but those listed. -/
def KeepsRegs (but : List Nibble) (s t : State) : Prop := ∀ r, r ∉ but → t.readV r = s.readV r

/-- Every byte of memory. -/
def KeepsMem (s t : State) : Prop := ∀ a, t.mem.read a = s.mem.read a

/-- Every byte of memory outside the n bytes from a. -/
def KeepsMemOutside (a n : Nat) (s t : State) : Prop :=
  ∀ b, (b < a ∨ a + n ≤ b) → t.mem.read b = s.mem.read b

/-- I. -/
def KeepsI (s t : State) : Prop := t.iReg = s.iReg

/-- The call stack and its pointer. -/
def KeepsStack (s t : State) : Prop := t.sp = s.sp ∧ t.stack = s.stack

/-- DT and ST. -/
def KeepsTimers (s t : State) : Prop := t.dt = s.dt ∧ t.st = s.st

/-- `halt_cause`, `fault_pc`, `fault_info`: the exception registers (10_state.md R28). -/
def KeepsHalt (s t : State) : Prop :=
  t.haltCause = s.haltCause ∧ t.faultPc = s.faultPc ∧ t.faultInfo = s.faultInfo

/-- The block's other internal status: `loaded`, `ill_seen`, `div_cnt`, `step_cnt` (10_state.md R28). -/
def KeepsFlags (s t : State) : Prop :=
  t.loaded = s.loaded ∧ t.illSeen = s.illSeen ∧ t.divCnt = s.divCnt ∧ t.stepCnt = s.stepCnt

/-- The display requests made so far in this step. -/
def KeepsRequests (s t : State) : Prop := t.out.requests = s.out.requests

/-- The other output pulses: `rnd_req`, `key_q`, `key_evt_ack` (60_exceptions.md R212, R214). -/
def KeepsPulses (s t : State) : Prop :=
  t.out.rndReq = s.out.rndReq ∧ t.out.keyQuery = s.out.keyQuery ∧ t.out.keyAck = s.out.keyAck

/-- The memory port made these cycles and no other (20_memory.md R52). -/
def BusAdds (cycles : List BusCycle) (s t : State) : Prop := t.out.bus = s.out.bus ++ cycles

/-- All status registers of 10_state.md R28. -/
def KeepsStatus (s t : State) : Prop :=
  t.runState = s.runState ∧ t.waitX = s.waitX ∧ KeepsHalt s t ∧ KeepsFlags s t

/-- The model's own fields that hold the world outside: the parameter FONT, strap, input pins, schedule, counters. -/
def KeepsWorld (s t : State) : Prop :=
  t.mem.font = s.mem.font ∧ t.strict = s.strict ∧ t.inputs = s.inputs ∧ t.schedule = s.schedule ∧
  t.stepsToTick = s.stepsToTick ∧ t.draws = s.draws

/-- Everything but V0 to VF, pc and the output pins. -/
def KeepsRest (s t : State) : Prop :=
  KeepsMem s t ∧ KeepsI s t ∧ KeepsStack s t ∧ KeepsTimers s t ∧ KeepsStatus s t ∧ KeepsWorld s t

/-- `exec i s` answers a next state, and `P` holds of it. -/
def Completes (i : Instr) (s : State) (P : State → Prop) : Prop := ∃ t, exec i s = .next t ∧ P t

/-- What a step does not touch when it only writes registers, moves pc, or drives pulses `P` describes. -/
def OnlyRegs (but : List Nibble) (s t : State) : Prop :=
  KeepsRegs but s t ∧ KeepsRest s t ∧ t.out = s.out

/-- The architectural state a fault must not change (30_encoding.md R77): V0 to VF, I, pc, sp, stack, DT, ST
and memory. -/
def KeepsArchitecture (s t : State) : Prop :=
  KeepsRegs [] s t ∧ KeepsI s t ∧ t.pc = s.pc ∧ KeepsStack s t ∧ KeepsTimers s t ∧ KeepsMem s t

/-- The halt entry of 60_exceptions.md R202: the four registers it writes, and everything else as it was. -/
def HaltsWith (e : HaltCause) (info : Info) (s t : State) : Prop :=
  t.haltCause = e ∧ t.faultPc = s.pc ∧ t.faultInfo = info ∧ t.runState = .halted ∧
  KeepsArchitecture s t ∧ t.waitX = s.waitX ∧ KeepsFlags s t ∧ KeepsWorld s t ∧ t.out = s.out

/-! ## What an instruction may write -/

/-- The six instructions that write VF as a flag (10_state.md R21). -/
def setsFlag : Instr → Bool
  | .addReg _ _ => true
  | .subReg _ _ => true
  | .shr _ _ => true
  | .subnReg _ _ => true
  | .shl _ _ => true
  | .drw _ _ _ => true
  | .cls => false
  | .ret => false
  | .jp _ => false
  | .call _ => false
  | .seImm _ _ => false
  | .sneImm _ _ => false
  | .seReg _ _ => false
  | .ldImm _ _ => false
  | .addImm _ _ => false
  | .ldReg _ _ => false
  | .orReg _ _ => false
  | .andReg _ _ => false
  | .xorReg _ _ => false
  | .sneReg _ _ => false
  | .ldI _ => false
  | .jpV0 _ => false
  | .rnd _ _ => false
  | .skp _ => false
  | .sknp _ => false
  | .ldVxDt _ => false
  | .ldVxK _ => false
  | .ldDtVx _ => false
  | .ldStVx _ => false
  | .addI _ => false
  | .ldF _ => false
  | .ldB _ => false
  | .ldMemVx _ => false
  | .ldVxMem _ => false

/-- `r` is an ordinary destination register of the step that executes the instruction (the rules of 41 to 45). -/
def isDestination (r : Nibble) : Instr → Bool
  | .ldImm x _ => r == x
  | .addImm x _ => r == x
  | .ldReg x _ => r == x
  | .orReg x _ => r == x
  | .andReg x _ => r == x
  | .xorReg x _ => r == x
  | .addReg x _ => r == x
  | .subReg x _ => r == x
  | .shr x _ => r == x
  | .subnReg x _ => r == x
  | .shl x _ => r == x
  | .rnd x _ => r == x
  | .ldVxDt x => r == x
  | .ldVxMem x => decide (r.toNat ≤ x.toNat)
  | .cls => false
  | .ret => false
  | .jp _ => false
  | .call _ => false
  | .seImm _ _ => false
  | .sneImm _ _ => false
  | .seReg _ _ => false
  | .sneReg _ _ => false
  | .ldI _ => false
  | .jpV0 _ => false
  | .drw _ _ _ => false
  | .skp _ => false
  | .sknp _ => false
  | .ldVxK _ => false
  | .ldDtVx _ => false
  | .ldStVx _ => false
  | .addI _ => false
  | .ldF _ => false
  | .ldB _ => false
  | .ldMemVx _ => false

/-! ## Dead stack entries -/

/-- Two states that differ at most in the stack entries at index ≥ sp (10_state.md R25). -/
def SameButDeadStack (s t : State) : Prop :=
  t = { s with stack := t.stack } ∧ ∀ k < s.sp.toNat, t.stackAt k = s.stackAt k

/-- Two results that differ at most in dead stack entries. -/
def SameResult : Result → Result → Prop
  | .next s, .next t => SameButDeadStack s t
  | .fault a, .fault b => a = b
  | .refused a, .refused b => a = b
  | .next _, .fault _ => False
  | .next _, .refused _ => False
  | .fault _, .next _ => False
  | .fault _, .refused _ => False
  | .refused _, .next _ => False
  | .refused _, .fault _ => False

/-! ## Clock edges -/

/-- The count of a divider and the number of times it wrapped, n rising edges after its reset
(60_exceptions.md R208, R210). -/
def afterEdges (div : Nat) : Nat → Nat × Nat
  | 0 => (0, 0)
  | n + 1 =>
    let before := afterEdges div n
    let edge := divide div before.1
    (edge.1, if edge.2 then before.2 + 1 else before.2)

/-! ## Infinite runs -/

/-- An infinite run of the machine, from any state. -/
structure Run where
  state : Nat → State
  next : ∀ n, step (state n) = .next (state (n + 1))

/-- The next move is a tick, or a clock edge on which one falls due (60_exceptions.md R208, R209). -/
def ticksNext (s : State) : Bool :=
  match s.nextMove.1 with
  | .tick => true
  | .clk _ => (divide Config.timerDiv s.nextMove.2.divCnt).2
  | .step _ => false
  | .start => false
  | .stop => false
  | .load _ => false
  | .rst => false

/-- Weak fairness (60_exceptions.md R209): if the core never halts in the run, infinitely many ticks occur. -/
def Run.Fair (r : Run) : Prop :=
  (∀ n, (r.state n).runState ≠ .halted) → ∀ n, ∃ m, n ≤ m ∧ ticksNext (r.state m) = true

/-! ## The invariant -/

/-- What holds at reset and after every move. -/
structure Inv (s : State) : Prop where
  /-- memory is in canonical form (20_memory.md R40) -/
  memory : s.mem.wf
  /-- no byte below 0x200 differs from its reset contents (20_memory.md R44) -/
  lowMemory : ∀ c ∈ s.mem.cells, Config.progBase ≤ c.1
  /-- sp counts the entries, 0..STACK_DEPTH (10_state.md R25) -/
  stackPointer : s.sp.toNat ≤ Config.stackDepth
  /-- a pushed return address is at most 0x1000 (42_control_flow.md R110, R112) -/
  returnAddresses : ∀ k : Fin 16, s.stack[k].toNat ≤ 0x1000
  /-- no instruction sets pc above 0x10FE (10_state.md R23) -/
  programCounter : s.pc.toNat ≤ 0x10FE
  /-- a waiting core stands at an FX0A that was fetched (45_timers_keys.md R161) -/
  waiting : s.runState = .waitKey → s.pc.toNat ≤ 0xFFE ∧ s.loaded = true
  /-- a halt cause is recorded exactly in HALTED (10_state.md R28; 60_exceptions.md R202) -/
  haltRecord : s.haltCause = .none ↔ s.runState ≠ .halted
  /-- under FAULT no invalid word is passed over (30_encoding.md R76) -/
  illegalSeen : s.strict = true → s.illSeen = false
  /-- `div_cnt` is 0..TIMER_DIV−1 (10_state.md R28) -/
  timerDivider : s.divCnt < Config.timerDiv
  /-- `step_cnt` is 0..INSTR_DIV−1 (10_state.md R28) -/
  instrDivider : s.stepCnt < Config.instrDiv
  /-- a step makes at most one display request (30_encoding.md R79) -/
  oneRequest : s.out.requests.length ≤ 1
  /-- the memory port never sees a write below 0x200 (20_memory.md R52) -/
  busWrites : ∀ c ∈ s.out.bus, c.we = true → Config.progBase ≤ c.addr.toNat

end Sys2Proof.Safety
end

