-- ==== Sys2Proof/Certificates/Slice0/Obligations.lean ====
section
/-! DEFINITION. The statements for the provers. Each docstring names the rule it formalises; a clause that rests
on a choice of the model names its log entry. -/

open Sys2Proof Sys2Proof.Machine Sys2Proof.Safety

/-! ## Encoding -/

/-- R64, R73: what the encoder makes of an instruction, the decoder reads back, every operand at every value. -/
def Obligations.DecodeOfEncode : Prop := ∀ i : Instr, decodeWord (encode i) = .ok i

/-- R60, R64, R66: a word that decodes is the encoding of what it decodes to, so no bit of it is dropped. -/
def Obligations.EncodeOfDecode : Prop := ∀ (w : Word) (i : Instr), decodeWord w = .ok i → encode i = w

/-- R64, R65: a word is an instruction exactly when it matches a row of the opcode map, and otherwise it is
rejected by name. -/
def Obligations.DecodesExactlyTheRows : Prop :=
  ∀ w : Word,
    ((∃ i, decodeWord w = .ok i) ↔ ∃ row ∈ opcodeMap, row.matches w = true) ∧
    (∀ e, decodeWord w = .error e → e = .invalidOpcode w)

/-- R64: the rows are disjoint: no word matches two rows. -/
def Obligations.RowsAreDisjoint : Prop :=
  ∀ (w : Word) (j k : Nat) (r q : OpcodeRow),
    opcodeMap[j]? = some r → opcodeMap[k]? = some q → r.matches w = true → q.matches w = true → j = k

/-- R47, R60: an instruction is two bytes, the most significant first, whatever follows them. -/
def Obligations.BytesAreBigEndian : Prop :=
  ∀ (i : Instr) (rest : List Byte),
    encodeBytes i = [(encode i).extractLsb' 8 8, (encode i).extractLsb' 0 8] ∧
    decodeBytes (encodeBytes i ++ rest) = .ok (i, rest)

/-- R64 on words written out: one word of each family, and words of R65. -/
def Obligations.WordsOfTheTable : Prop :=
  decodeWord 0x00E0 = .ok .cls ∧ decodeWord 0xD015 = .ok (.drw 0 1 5) ∧
  decodeWord 0x220A = .ok (.call 0x20A) ∧ decodeWord 0xB206 = .ok (.jpV0 0x206) ∧
  decodeWord 0x8126 = .ok (.shr 1 2) ∧ decodeWord 0xC30F = .ok (.rnd 3 0x0F) ∧
  decodeWord 0xA300 = .ok (.ldI 0x300) ∧ decodeWord 0xF165 = .ok (.ldVxMem 1) ∧
  decodeWord 0xF30A = .ok (.ldVxK 3) ∧
  decodeWord 0x0000 = .error (.invalidOpcode 0x0000) ∧ decodeWord 0x5121 = .error (.invalidOpcode 0x5121) ∧
  decodeWord 0x8008 = .error (.invalidOpcode 0x8008) ∧ decodeWord 0xF100 = .error (.invalidOpcode 0xF100)

/-- R68, R69: the source line of an instruction assembles to that instruction, whatever the labels. -/
def Obligations.SourceAssembles : Prop :=
  ∀ (labels : Asm.Labels) (i : Instr),
    Asm.assembleInstr labels (Asm.sourceOf i).1 (Asm.sourceOf i).2 = .ok i

/-! ## Display -/

/-- R100. -/
def Obligations.ClsEmitsClear : Prop :=
  decodeWord 0x00E0 = .ok .cls ∧
  ∀ s, Completes .cls s fun t =>
    t.out = { s.out with requests := s.out.requests ++ [.clear] } ∧ t.pc = s.pc + 2 ∧
    KeepsRegs [] s t ∧ KeepsRest s t

/-- R101: the checks, the request, the collision flag, and what stays. -/
def Obligations.DrwDrawsAndSetsCollision : Prop :=
  ∀ x y n : Nibble,
    decodeWord (0xD#4 ++ x ++ y ++ n) = .ok (.drw x y n) ∧
    ∀ s,
      ((n = 0 ∨ s.dataAddr + n.toNat ≤ 0x1000) →
        Completes (.drw x y n) s fun t =>
          (∃ rows : List Byte, rows.length = n.toNat ∧
            (∀ k < n.toNat, rows[k]? = some (s.mem.read (s.dataAddr + k))) ∧
            t.out.requests = s.out.requests ++ [.draw (s.readV x) (s.readV y) rows] ∧
            BusAdds (busCycles false s.dataAddr rows) s t) ∧
          t.readV VF = (if n = 0 then 0 else if s.inputs.collision then 1 else 0) ∧
          t.pc = s.pc + 2 ∧ KeepsRegs [VF] s t ∧ KeepsRest s t ∧ KeepsPulses s t) ∧
      (n ≠ 0 → 0x1000 < s.dataAddr + n.toNat →
        ∃ t, exec (.drw x y n) s = .next t ∧
          HaltsWith .outOfBounds (BitVec.ofNat 17 (max s.dataAddr 0x1000)) s t)

/-! ## Control flow -/

/-- R110. -/
def Obligations.RetPopsIntoPc : Prop :=
  decodeWord 0x00EE = .ok .ret ∧
  ∀ s,
    (s.sp ≠ 0 → Completes .ret s fun t =>
      t.pc = s.stackAt (s.sp.toNat - 1) ∧ t.sp = s.sp - 1 ∧ t.stack = s.stack ∧
      KeepsRegs [] s t ∧ KeepsMem s t ∧ KeepsI s t ∧ KeepsTimers s t ∧ KeepsStatus s t ∧ KeepsWorld s t ∧
      t.out = s.out) ∧
    (s.sp = 0 → ∃ t, exec .ret s = .next t ∧ HaltsWith .stackUnderflow 0 s t)

/-- R111. -/
def Obligations.JpJumps : Prop :=
  ∀ nnn : Addr, decodeWord (0x1#4 ++ nnn) = .ok (.jp nnn) ∧
    ∀ s, Completes (.jp nnn) s fun t => t.pc.toNat = nnn.toNat ∧ OnlyRegs [] s t

/-- R112: pc + 2 is pushed, post-increment; a full stack raises and changes nothing else. -/
def Obligations.CallPushesReturnAddress : Prop :=
  ∀ nnn : Addr, decodeWord (0x2#4 ++ nnn) = .ok (.call nnn) ∧
    ∀ s,
      (s.sp.toNat < 16 → Completes (.call nnn) s fun t =>
        t.pc.toNat = nnn.toNat ∧ t.sp.toNat = s.sp.toNat + 1 ∧ t.stackAt s.sp.toNat = s.pc + 2 ∧
        (∀ k, k ≠ s.sp.toNat → t.stackAt k = s.stackAt k) ∧
        KeepsRegs [] s t ∧ KeepsMem s t ∧ KeepsI s t ∧ KeepsTimers s t ∧ KeepsStatus s t ∧ KeepsWorld s t ∧
        t.out = s.out) ∧
      (s.sp = 16 → ∃ t, exec (.call nnn) s = .next t ∧ HaltsWith .stackOverflow 16 s t)

/-- R113, R114. -/
def Obligations.SkipsOnImmediate : Prop :=
  ∀ (x : Nibble) (nn : Byte),
    decodeWord (0x3#4 ++ x ++ nn) = .ok (.seImm x nn) ∧ decodeWord (0x4#4 ++ x ++ nn) = .ok (.sneImm x nn) ∧
    ∀ s,
      (Completes (.seImm x nn) s fun t =>
        t.pc = (if s.readV x = nn then s.pc + 4 else s.pc + 2) ∧ OnlyRegs [] s t) ∧
      (Completes (.sneImm x nn) s fun t =>
        t.pc = (if s.readV x ≠ nn then s.pc + 4 else s.pc + 2) ∧ OnlyRegs [] s t)

/-- R115, R116. -/
def Obligations.SkipsOnRegister : Prop :=
  ∀ x y : Nibble,
    decodeWord (0x5#4 ++ x ++ y ++ 0x0#4) = .ok (.seReg x y) ∧
    decodeWord (0x9#4 ++ x ++ y ++ 0x0#4) = .ok (.sneReg x y) ∧
    ∀ s,
      (Completes (.seReg x y) s fun t =>
        t.pc = (if s.readV x = s.readV y then s.pc + 4 else s.pc + 2) ∧ OnlyRegs [] s t) ∧
      (Completes (.sneReg x y) s fun t =>
        t.pc = (if s.readV x ≠ s.readV y then s.pc + 4 else s.pc + 2) ∧ OnlyRegs [] s t)

/-- R117: V0 always, no mask, no wrap. -/
def Obligations.JpV0JumpsToSum : Prop :=
  ∀ nnn : Addr, decodeWord (0xB#4 ++ nnn) = .ok (.jpV0 nnn) ∧
    ∀ s, Completes (.jpV0 nnn) s fun t =>
      t.pc.toNat = (s.readV 0).toNat + nnn.toNat ∧ OnlyRegs [] s t

/-- R118, R119: the query is the full VX and changes nothing else. -/
def Obligations.SkipsOnKey : Prop :=
  ∀ x : Nibble,
    decodeWord (0xE#4 ++ x ++ 0x9E#8) = .ok (.skp x) ∧ decodeWord (0xE#4 ++ x ++ 0xA1#8) = .ok (.sknp x) ∧
    ∀ s,
      (Completes (.skp x) s fun t =>
        t.pc = (if s.inputs.keyDown (s.readV x) = true then s.pc + 4 else s.pc + 2) ∧
        t.out = { s.out with keyQuery := some (s.readV x) } ∧ KeepsRegs [] s t ∧ KeepsRest s t) ∧
      (Completes (.sknp x) s fun t =>
        t.pc = (if s.inputs.keyDown (s.readV x) = false then s.pc + 4 else s.pc + 2) ∧
        t.out = { s.out with keyQuery := some (s.readV x) } ∧ KeepsRegs [] s t ∧ KeepsRest s t)

/-! ## ALU -/

/-- R131. -/
def Obligations.LdImmLoads : Prop :=
  ∀ (x : Nibble) (nn : Byte), decodeWord (0x6#4 ++ x ++ nn) = .ok (.ldImm x nn) ∧
    ∀ s, Completes (.ldImm x nn) s fun t => t.readV x = nn ∧ t.pc = s.pc + 2 ∧ OnlyRegs [x] s t

/-- R132: modulo 256, no flag. -/
def Obligations.AddImmWrapsWithoutFlag : Prop :=
  ∀ (x : Nibble) (nn : Byte), decodeWord (0x7#4 ++ x ++ nn) = .ok (.addImm x nn) ∧
    ∀ s, Completes (.addImm x nn) s fun t =>
      (t.readV x).toNat = ((s.readV x).toNat + nn.toNat) % 256 ∧ t.pc = s.pc + 2 ∧ OnlyRegs [x] s t

/-- R133. -/
def Obligations.LdRegCopies : Prop :=
  ∀ x y : Nibble, decodeWord (0x8#4 ++ x ++ y ++ 0x0#4) = .ok (.ldReg x y) ∧
    ∀ s, Completes (.ldReg x y) s fun t => t.readV x = s.readV y ∧ t.pc = s.pc + 2 ∧ OnlyRegs [x] s t

/-- R134, R135, R136: bit by bit, and VF is no flag of them. -/
def Obligations.LogicWorksBitwise : Prop :=
  ∀ x y : Nibble,
    decodeWord (0x8#4 ++ x ++ y ++ 0x1#4) = .ok (.orReg x y) ∧
    decodeWord (0x8#4 ++ x ++ y ++ 0x2#4) = .ok (.andReg x y) ∧
    decodeWord (0x8#4 ++ x ++ y ++ 0x3#4) = .ok (.xorReg x y) ∧
    ∀ s,
      (Completes (.orReg x y) s fun t =>
        (∀ k < 8, (t.readV x).getLsbD k = ((s.readV x).getLsbD k || (s.readV y).getLsbD k)) ∧
        t.pc = s.pc + 2 ∧ OnlyRegs [x] s t) ∧
      (Completes (.andReg x y) s fun t =>
        (∀ k < 8, (t.readV x).getLsbD k = ((s.readV x).getLsbD k && (s.readV y).getLsbD k)) ∧
        t.pc = s.pc + 2 ∧ OnlyRegs [x] s t) ∧
      (Completes (.xorReg x y) s fun t =>
        (∀ k < 8, (t.readV x).getLsbD k = ((s.readV x).getLsbD k ^^ (s.readV y).getLsbD k)) ∧
        t.pc = s.pc + 2 ∧ OnlyRegs [x] s t)

/-- R137: the sum modulo 256 unless x is VF, and the carry in VF in every case. -/
def Obligations.AddRegSetsCarry : Prop :=
  ∀ x y : Nibble, decodeWord (0x8#4 ++ x ++ y ++ 0x4#4) = .ok (.addReg x y) ∧
    ∀ s, Completes (.addReg x y) s fun t =>
      (x ≠ VF → (t.readV x).toNat = ((s.readV x).toNat + (s.readV y).toNat) % 256) ∧
      t.readV VF = (if (s.readV x).toNat + (s.readV y).toNat > 255 then 1 else 0) ∧
      t.pc = s.pc + 2 ∧ OnlyRegs [x, VF] s t

/-- R138, R140: VX − VY, or VY − VX for SUBN, modulo 256, and VF = 1 when there is no borrow. -/
def Obligations.SubtractionsSetNotBorrow : Prop :=
  ∀ x y : Nibble,
    decodeWord (0x8#4 ++ x ++ y ++ 0x5#4) = .ok (.subReg x y) ∧
    decodeWord (0x8#4 ++ x ++ y ++ 0x7#4) = .ok (.subnReg x y) ∧
    ∀ s,
      (Completes (.subReg x y) s fun t =>
        (x ≠ VF → ((t.readV x).toNat : Int) = ((s.readV x).toNat - (s.readV y).toNat : Int) % 256) ∧
        t.readV VF = (if (s.readV x).toNat < (s.readV y).toNat then 0 else 1) ∧
        t.pc = s.pc + 2 ∧ OnlyRegs [x, VF] s t) ∧
      (Completes (.subnReg x y) s fun t =>
        (x ≠ VF → ((t.readV x).toNat : Int) = ((s.readV y).toNat - (s.readV x).toNat : Int) % 256) ∧
        t.readV VF = (if (s.readV y).toNat < (s.readV x).toNat then 0 else 1) ∧
        t.pc = s.pc + 2 ∧ OnlyRegs [x, VF] s t)

/-- R139, R141: one bit, logical, the bit shifted out in VF; y selects nothing. -/
def Obligations.ShiftsSetBitShiftedOut : Prop :=
  ∀ x y : Nibble,
    decodeWord (0x8#4 ++ x ++ y ++ 0x6#4) = .ok (.shr x y) ∧
    decodeWord (0x8#4 ++ x ++ y ++ 0xE#4) = .ok (.shl x y) ∧
    ∀ s,
      (Completes (.shr x y) s fun t =>
        (x ≠ VF → (t.readV x).toNat = (s.readV x).toNat / 2) ∧ (t.readV VF).toNat = (s.readV x).toNat % 2 ∧
        t.pc = s.pc + 2 ∧ OnlyRegs [x, VF] s t) ∧
      (Completes (.shl x y) s fun t =>
        (x ≠ VF → (t.readV x).toNat = 2 * (s.readV x).toNat % 256) ∧
        (t.readV VF).toNat = (s.readV x).toNat / 128 ∧ t.pc = s.pc + 2 ∧ OnlyRegs [x, VF] s t) ∧
      (∀ z, exec (.shr x z) s = exec (.shr x y) s ∧ exec (.shl x z) s = exec (.shl x y) s)

/-- R142: one byte is consumed, whatever nn is. The byte is a free value: this holds of every one. -/
def Obligations.RndMasksTheRandomByte : Prop :=
  ∀ (x : Nibble) (nn : Byte), decodeWord (0xC#4 ++ x ++ nn) = .ok (.rnd x nn) ∧
    ∀ s, Completes (.rnd x nn) s fun t =>
      (∀ k < 8, (t.readV x).getLsbD k = (s.inputs.rnd.getLsbD k && nn.getLsbD k)) ∧
      t.out = { s.out with rndReq := true } ∧ t.pc = s.pc + 2 ∧ KeepsRegs [x] s t ∧ KeepsRest s t

/-! ## Address register and memory -/

/-- R150, R151, R152: the three instructions that write I. -/
def Obligations.IndexRegisterIsSet : Prop :=
  (∀ nnn : Addr, decodeWord (0xA#4 ++ nnn) = .ok (.ldI nnn) ∧
    ∀ s, Completes (.ldI nnn) s fun t => t.iReg.toNat = nnn.toNat ∧ t.pc = s.pc + 2 ∧
      KeepsRegs [] s t ∧ KeepsMem s t ∧ KeepsStack s t ∧ KeepsTimers s t ∧ KeepsStatus s t ∧ KeepsWorld s t ∧
      t.out = s.out) ∧
  (∀ x : Nibble, decodeWord (0xF#4 ++ x ++ 0x1E#8) = .ok (.addI x) ∧
    ∀ s, Completes (.addI x) s fun t =>
      t.iReg.toNat = (s.iReg.toNat + (s.readV x).toNat) % 65536 ∧ t.pc = s.pc + 2 ∧
      KeepsRegs [] s t ∧ KeepsMem s t ∧ KeepsStack s t ∧ KeepsTimers s t ∧ KeepsStatus s t ∧ KeepsWorld s t ∧
      t.out = s.out) ∧
  (∀ x : Nibble, decodeWord (0xF#4 ++ x ++ 0x29#8) = .ok (.ldF x) ∧
    ∀ s, Completes (.ldF x) s fun t =>
      t.iReg.toNat = (s.readV x).toNat * 5 ∧ t.pc = s.pc + 2 ∧
      KeepsRegs [] s t ∧ KeepsMem s t ∧ KeepsStack s t ∧ KeepsTimers s t ∧ KeepsStatus s t ∧ KeepsWorld s t ∧
      t.out = s.out)

/-- R153, R44, R46: hundreds, tens and ones at I, I+1, I+2, or the first refused address and nothing written. -/
def Obligations.LdBStoresDecimalDigits : Prop :=
  ∀ x : Nibble, decodeWord (0xF#4 ++ x ++ 0x33#8) = .ok (.ldB x) ∧
    ∀ s,
      (0x200 ≤ s.dataAddr → s.dataAddr + 3 ≤ 0x1000 → Completes (.ldB x) s fun t =>
        (t.mem.read s.dataAddr).toNat = (s.readV x).toNat / 100 ∧
        (t.mem.read (s.dataAddr + 1)).toNat = (s.readV x).toNat / 10 % 10 ∧
        (t.mem.read (s.dataAddr + 2)).toNat = (s.readV x).toNat % 10 ∧
        KeepsMemOutside s.dataAddr 3 s t ∧ t.pc = s.pc + 2 ∧ KeepsRegs [] s t ∧ KeepsI s t ∧ KeepsStack s t ∧
        KeepsTimers s t ∧ KeepsStatus s t ∧ KeepsWorld s t ∧ KeepsRequests s t ∧ KeepsPulses s t ∧
        BusAdds (busCycles true s.dataAddr (bcdDigits (s.readV x))) s t) ∧
      ((s.dataAddr < 0x200 ∨ 0x1000 < s.dataAddr + 3) → ∃ t, exec (.ldB x) s = .next t ∧
        HaltsWith .outOfBounds
          (BitVec.ofNat 17 (if s.dataAddr < 0x200 then s.dataAddr else max s.dataAddr 0x1000)) s t)

/-- R154, R44, R46: V0..VX at I..I+X, or the first refused address and nothing written. -/
def Obligations.LdMemVxStoresRegisters : Prop :=
  ∀ x : Nibble, decodeWord (0xF#4 ++ x ++ 0x55#8) = .ok (.ldMemVx x) ∧
    ∀ s,
      (0x200 ≤ s.dataAddr → s.dataAddr + x.toNat ≤ 0xFFF → Completes (.ldMemVx x) s fun t =>
        (∀ k : Nibble, k.toNat ≤ x.toNat → t.mem.read (s.dataAddr + k.toNat) = s.readV k) ∧
        KeepsMemOutside s.dataAddr (x.toNat + 1) s t ∧ t.pc = s.pc + 2 ∧ KeepsRegs [] s t ∧ KeepsI s t ∧
        KeepsStack s t ∧ KeepsTimers s t ∧ KeepsStatus s t ∧ KeepsWorld s t ∧ KeepsRequests s t ∧
        KeepsPulses s t ∧ BusAdds (busCycles true s.dataAddr (s.regs (x.toNat + 1))) s t) ∧
      ((s.dataAddr < 0x200 ∨ 0xFFF < s.dataAddr + x.toNat) → ∃ t, exec (.ldMemVx x) s = .next t ∧
        HaltsWith .outOfBounds
          (BitVec.ofNat 17 (if s.dataAddr < 0x200 then s.dataAddr else max s.dataAddr 0x1000)) s t)

/-- R155, R43, R46: V0..VX from I..I+X, or the first refused address and no register changed. -/
def Obligations.LdVxMemLoadsRegisters : Prop :=
  ∀ x : Nibble, decodeWord (0xF#4 ++ x ++ 0x65#8) = .ok (.ldVxMem x) ∧
    ∀ s,
      (s.dataAddr + x.toNat ≤ 0xFFF → Completes (.ldVxMem x) s fun t =>
        (∀ k : Nibble, k.toNat ≤ x.toNat → t.readV k = s.mem.read (s.dataAddr + k.toNat)) ∧
        (∀ k : Nibble, x.toNat < k.toNat → t.readV k = s.readV k) ∧ t.pc = s.pc + 2 ∧ KeepsRest s t ∧
        KeepsRequests s t ∧ KeepsPulses s t ∧
        BusAdds (busCycles false s.dataAddr (s.mem.readBytes s.dataAddr (x.toNat + 1))) s t) ∧
      (0xFFF < s.dataAddr + x.toNat → ∃ t, exec (.ldVxMem x) s = .next t ∧
        HaltsWith .outOfBounds (BitVec.ofNat 17 (max s.dataAddr 0x1000)) s t)

/-! ## Timers and keys -/

/-- R160, R162, R163, R213: DT read, a timer written, and the tone that follows ST at once. -/
def Obligations.TimersAreReadAndSet : Prop :=
  ∀ x : Nibble,
    decodeWord (0xF#4 ++ x ++ 0x07#8) = .ok (.ldVxDt x) ∧
    decodeWord (0xF#4 ++ x ++ 0x15#8) = .ok (.ldDtVx x) ∧ decodeWord (0xF#4 ++ x ++ 0x18#8) = .ok (.ldStVx x) ∧
    ∀ s,
      (Completes (.ldVxDt x) s fun t => t.readV x = s.dt ∧ t.pc = s.pc + 2 ∧ OnlyRegs [x] s t) ∧
      (Completes (.ldDtVx x) s fun t =>
        t.dt = s.readV x ∧ t.st = s.st ∧ t.pc = s.pc + 2 ∧ KeepsRegs [] s t ∧ KeepsMem s t ∧ KeepsI s t ∧
        KeepsStack s t ∧ KeepsStatus s t ∧ KeepsWorld s t ∧ t.out = s.out) ∧
      (Completes (.ldStVx x) s fun t =>
        t.st = s.readV x ∧ (t.tone = true ↔ s.readV x ≠ 0) ∧ t.dt = s.dt ∧ t.pc = s.pc + 2 ∧ KeepsRegs [] s t ∧
        KeepsMem s t ∧ KeepsI s t ∧ KeepsStack s t ∧ KeepsStatus s t ∧ KeepsWorld s t ∧ t.out = s.out)

/-- R161, the step that executes the word: it enters the wait and pc stays. -/
def Obligations.LdVxKEntersWait : Prop :=
  ∀ x : Nibble, decodeWord (0xF#4 ++ x ++ 0x0A#8) = .ok (.ldVxK x) ∧
    ∀ s, Completes (.ldVxK x) s fun t =>
      t.runState = .waitKey ∧ t.waitX = x ∧ t.pc = s.pc ∧ KeepsRegs [] s t ∧ KeepsMem s t ∧ KeepsI s t ∧
      KeepsStack s t ∧ KeepsTimers s t ∧ KeepsHalt s t ∧ KeepsFlags s t ∧ KeepsWorld s t ∧ t.out = s.out

/-- R161, R215, a step in WAIT_KEY: stop first; no event, no change; a press event loads V[wait_x], goes back to
RUN and passes the word. -/
def Obligations.WaitStepTakesOnePress : Prop :=
  ∀ (s : State) (inp : Inputs), s.runState = .waitKey →
    ∃ t, runMove (.step inp) s = .next t ∧
      (inp.stop = true → HaltsWith .stop 0 (s.latch inp) t) ∧
      (inp.stop = false → inp.keyEvent = none → t = s.latch inp) ∧
      (∀ k, inp.stop = false → inp.keyEvent = some k →
        t.readV s.waitX = k ∧ t.runState = .run ∧ t.pc = s.pc + 2 ∧ KeepsRegs [s.waitX] s t ∧ KeepsMem s t ∧
        KeepsI s t ∧ KeepsStack s t ∧ KeepsTimers s t ∧ KeepsHalt s t ∧ KeepsFlags s t ∧ t.waitX = s.waitX ∧
        KeepsWorld (s.latch inp) t ∧ t.out = { Outputs.quiet with keyAck := true })

/-! ## Round trips -/

/-- R110, R112 (95_test_vectors.md E3): CALL then RET comes back to pc + 2 with the stack as deep as before. -/
def Obligations.CallThenRetComesBack : Prop :=
  ∀ (s : State) (nnn : Addr), s.sp.toNat < 16 →
    ∃ t u, exec (.call nnn) s = .next t ∧ exec .ret t = .next u ∧
      u.pc = s.pc + 2 ∧ u.sp = s.sp ∧ (∀ k < s.sp.toNat, u.stackAt k = s.stackAt k) ∧
      KeepsRegs [] s u ∧ KeepsMem s u ∧ KeepsI s u ∧ KeepsTimers s u

/-- R154, R155 (95_test_vectors.md E4): FX55, any change of V0..VX, then FX65 at the same I restores V0..VX. -/
def Obligations.StoreThenLoadRestores : Prop :=
  ∀ (s : State) (x : Nibble), 0x200 ≤ s.dataAddr → s.dataAddr + x.toNat ≤ 0xFFF →
    ∃ t, exec (.ldMemVx x) s = .next t ∧
      ∀ u : State, u.mem = t.mem → u.iReg = t.iReg →
        ∃ w, exec (.ldVxMem x) u = .next w ∧ ∀ k : Nibble, k.toNat ≤ x.toNat → w.readV k = s.readV k

/-- R51, R75: a word that FX55 or FX33 stores at pc + 2 is the word the next fetch reads: V0 : V1, or hundreds :
tens. -/
def Obligations.NextFetchSeesStore : Prop :=
  (∀ (s : State) (x : Nibble), 1 ≤ x.toNat → s.dataAddr = s.pc.toNat + 2 → 0x200 ≤ s.dataAddr →
    s.dataAddr + x.toNat ≤ 0xFFF →
    ∃ t, exec (.ldMemVx x) s = .next t ∧ fetchWord t = .ok (s.readV 0 ++ s.readV 1)) ∧
  (∀ (s : State) (x : Nibble), s.dataAddr = s.pc.toNat + 2 → 0x200 ≤ s.dataAddr → s.dataAddr + 3 ≤ 0x1000 →
    ∃ t, exec (.ldB x) s = .next t ∧
      fetchWord t =
        .ok (BitVec.ofNat 8 ((s.readV x).toNat / 100) ++ BitVec.ofNat 8 ((s.readV x).toNat / 10 % 10)))

/-! ## The step -/

/-- R70 to R73: with no stop, a program loaded and pc at most 0xFFE, a step of a running core is the meaning of
the instruction the two bytes at pc decode to, on the state whose input pins are latched, whose output pulses
are gone and whose memory port has read the word. Where the next move comes from is NextMoveIsTheSchedules'. -/
def Obligations.StepRunsTheDecodedInstruction : Prop :=
  ∀ (s s' : State) (inp : Inputs) (i : Instr), i.wf = true → s.nextMove = (.step inp, s') →
    inp.stop = false → s.runState = .run → s.loaded = true → s.pc.toNat ≤ 0xFFE →
    decodeBytes [s.mem.read s.pc.toNat, s.mem.read (s.pc.toNat + 1)] = .ok (i, []) →
    step s = exec i (s'.latch inp).logFetch ∧
    KeepsArchitecture s (s'.latch inp).logFetch ∧ KeepsStatus s (s'.latch inp).logFetch ∧
    (s'.latch inp).logFetch.inputs = inp ∧ (s'.latch inp).logFetch.strict = s.strict

/-- R209 and log entry 2: where the next move comes from. The gap and the pins of an unscheduled move are free values:
this holds of every one. -/
def Obligations.NextMoveIsTheSchedules : Prop :=
  (∀ (s : State) (m : Move) (rest : List Move), s.schedule = m :: rest →
    step s = runMove m { s with schedule := rest }) ∧
  (∀ s : State, s.schedule = [] → s.stepsToTick = 0 →
    ∃ gap : Nat, step s = runMove .tick { s with stepsToTick := gap, draws := s.draws + 1 }) ∧
  (∀ s : State, s.schedule = [] → 0 < s.stepsToTick →
    ∃ inp : Inputs, inp.stop = false ∧
      step s = runMove (.step inp) { s with stepsToTick := s.stepsToTick - 1, draws := s.draws + 1 })

/-- R70, R71, R203, R215: the checks of a step in RUN, in their order, each with the halt it raises. Such a step drives
no output; that the memory port shows no cycle for the byte at pc = 0xFFF, which R71 reads before it refuses 0x1000, is
the model's choice (log entry 13). -/
def Obligations.StepChecksInOrder : Prop :=
  ∀ (s : State) (inp : Inputs), s.runState = .run →
    (inp.stop = true →
      ∃ t, runMove (.step inp) s = .next t ∧ HaltsWith .stop 0 (s.latch inp) t) ∧
    (inp.stop = false → s.loaded = false →
      ∃ t, runMove (.step inp) s = .next t ∧ HaltsWith .uninitializedProgram 0 (s.latch inp) t) ∧
    (inp.stop = false → s.loaded = true → 0xFFE < s.pc.toNat →
      ∃ t, runMove (.step inp) s = .next t ∧
        HaltsWith .outOfBounds (BitVec.ofNat 17 (if 0xFFF < s.pc.toNat then s.pc.toNat else 0x1000))
          (s.latch inp) t)

/-- R76: an invalid word halts the core under FAULT; under NOP it changes nothing but pc and `ill_seen`. -/
def Obligations.InvalidWordFollowsThePolicy : Prop :=
  ∀ (s : State) (inp : Inputs) (w : Word), s.runState = .run → inp.stop = false → s.loaded = true →
    s.pc.toNat ≤ 0xFFE → s.mem.read s.pc.toNat ++ s.mem.read (s.pc.toNat + 1) = w →
    (∀ row ∈ opcodeMap, row.matches w = false) →
    (s.strict = true → ∃ t, runMove (.step inp) s = .next t ∧
      HaltsWith .invalidOpcode (w.setWidth 17) (s.latch inp).logFetch t) ∧
    (s.strict = false → ∃ t, runMove (.step inp) s = .next t ∧
      t.illSeen = true ∧ t.pc = s.pc + 2 ∧ KeepsRegs [] s t ∧ KeepsMem s t ∧ KeepsI s t ∧ KeepsStack s t ∧
      KeepsTimers s t ∧ KeepsHalt s t ∧ t.runState = s.runState ∧ t.waitX = s.waitX ∧ t.loaded = s.loaded ∧
      t.divCnt = s.divCnt ∧ t.stepCnt = s.stepCnt ∧ KeepsWorld (s.latch inp) t ∧ t.out.requests = [] ∧
      KeepsPulses (s.latch inp) t)

/-! ## Rules over all instructions -/

/-- R79, R206: every instruction answers a next state in every state: none faults, none is refused. -/
def Obligations.EveryInstructionAnswersNext : Prop := ∀ (i : Instr) (s : State), ∃ t, exec i s = .next t

/-- R77, R202, R201: an instruction that halts the core is one of the six that raise, with its own cause, and the
halt entry is precise. -/
def Obligations.OnlySixInstructionsRaise : Prop :=
  ∀ (i : Instr) (s t : State), s.runState ≠ .halted → exec i s = .next t → t.runState = .halted →
    HaltsWith t.haltCause t.faultInfo s t ∧
    ((i = .ret ∧ t.haltCause = .stackUnderflow ∧ t.faultInfo = 0 ∧ s.sp = 0) ∨
     (∃ nnn, i = .call nnn ∧ t.haltCause = .stackOverflow ∧ t.faultInfo.toNat = s.sp.toNat ∧ 16 ≤ s.sp.toNat) ∨
     ((∃ x y n, i = .drw x y n ∧ n ≠ 0) ∧ t.haltCause = .outOfBounds ∧ 0xFFF < t.faultInfo.toNat) ∨
     (∃ x, (i = .ldB x ∨ i = .ldMemVx x) ∧ t.haltCause = .outOfBounds ∧
       (0xFFF < t.faultInfo.toNat ∨ t.faultInfo.toNat < 0x200)) ∨
     (∃ x, i = .ldVxMem x ∧ t.haltCause = .outOfBounds ∧ 0xFFF < t.faultInfo.toNat))

/-- R156: no instruction other than ANNN, FX1E and FX29 writes I. -/
def Obligations.OnlyThreeInstructionsWriteI : Prop :=
  ∀ (i : Instr) (s t : State), exec i s = .next t → t.iReg ≠ s.iReg →
    (∃ nnn, i = .ldI nnn) ∨ (∃ x, i = .addI x) ∨ (∃ x, i = .ldF x)

/-- R21: a register changes only where it is a destination, or is VF and the instruction is one of the six that
set the flag. -/
def Obligations.RegistersChangeOnlyAsDestination : Prop :=
  ∀ (i : Instr) (s t : State) (r : Nibble), exec i s = .next t → t.readV r ≠ s.readV r →
    isDestination r i = true ∨ (r = VF ∧ setsFlag i = true)

/-- R40, R44: a byte of memory changes only by FX33 or FX55, inside the bytes they store, and never below
0x200. -/
def Obligations.OnlyTwoInstructionsStore : Prop :=
  ∀ (i : Instr) (s t : State) (a : Nat), exec i s = .next t → t.mem.read a ≠ s.mem.read a →
    0x200 ≤ a ∧ a ≤ 0xFFF ∧ s.dataAddr ≤ a ∧
    ((∃ x, i = .ldB x ∧ a < s.dataAddr + 3) ∨ (∃ x, i = .ldMemVx x ∧ a ≤ s.dataAddr + x.toNat))

/-- R24: no instruction but CALL and RET reads or writes the call stack: the others leave it, and they do the same
whatever it holds. -/
def Obligations.OnlyCallAndRetUseTheStack : Prop :=
  ∀ (i : Instr), i ≠ .ret → (∀ nnn, i ≠ .call nnn) →
    ∀ (s t : State) (stack : Vector Word 16) (sp : BitVec 5), exec i s = .next t →
      KeepsStack s t ∧ exec i { s with stack := stack, sp := sp } = .next { t with stack := stack, sp := sp }

/-- R161, R238: FX0A is the only instruction that suspends the core. -/
def Obligations.OnlyKeyWaitSuspends : Prop :=
  ∀ (i : Instr) (s t : State), s.runState = .run → exec i s = .next t → t.runState ≠ .run →
    t.runState = .halted ∨ ∃ x, i = .ldVxK x ∧ t.runState = .waitKey

/-- R212, R214: `rnd_req` is pulsed only by CXNN, and no instruction acknowledges a key event. -/
def Obligations.OnlyRndTakesARandomByte : Prop :=
  ∀ (i : Instr) (s t : State), exec i s = .next t →
    t.out.keyAck = s.out.keyAck ∧ (t.out.rndReq ≠ s.out.rndReq → ∃ x nn, i = .rnd x nn)

/-- R25: entries at index ≥ sp cannot be observed: two states that differ only there step alike, and go on
differing only there. -/
def Obligations.DeadStackEntriesAreUnobservable : Prop :=
  ∀ s t : State, SameButDeadStack s t → SameResult (step s) (step t)

/-! ## Timers, clock and host -/

/-- R207: a tick counts DT and ST down to 0 in RUN and WAIT_KEY, does nothing in IDLE and HALTED, and touches no
other state. -/
def Obligations.TickCountsDown : Prop :=
  ∀ s : State, ∃ t, runMove .tick s = .next t ∧
    ((s.runState = .run ∨ s.runState = .waitKey) →
      t.dt.toNat = s.dt.toNat - 1 ∧ t.st.toNat = s.st.toNat - 1) ∧
    ((s.runState = .idle ∨ s.runState = .halted) → KeepsTimers s t) ∧
    KeepsRegs [] s t ∧ KeepsMem s t ∧ KeepsI s t ∧ t.pc = s.pc ∧ KeepsStack s t ∧ KeepsStatus s t ∧ KeepsWorld s t

/-- R208, R210: n rising edges after reset a divider of length d has wrapped n / d times and stands at n mod d, so
the first tick comes TIMER_DIV cycles after reset. On an edge both dividers count, in every state; where no step
falls due, the timers count down in RUN and WAIT_KEY if a tick does, and nothing else changes but the output pulses,
which are gone (log entry 13). An edge that carries the stop pin to an IDLE core is StartAndStopMoveTheCore's. -/
def Obligations.DividerWrapsEveryDivEdges : Prop :=
  (∀ d n : Nat, 1 ≤ d → afterEdges d n = (n % d, n / d)) ∧
  (∀ (inp : Inputs) (s : State), runMove (.clk inp) s = clkMove Config.timerDiv Config.instrDiv inp s) ∧
  ∀ (timerDiv instrDiv : Nat) (inp : Inputs) (s : State),
    ∃ t, clkMove timerDiv instrDiv inp s = .next t ∧
      t.divCnt = (if s.divCnt = timerDiv - 1 then 0 else s.divCnt + 1) ∧
      t.stepCnt = (if s.stepCnt = instrDiv - 1 then 0 else s.stepCnt + 1) ∧
      (s.stepCnt ≠ instrDiv - 1 ∨ s.runState = .idle ∨ s.runState = .halted →
        (s.runState = .idle → inp.stop = false) →
        t.dt.toNat = (if s.divCnt = timerDiv - 1 ∧ (s.runState = .run ∨ s.runState = .waitKey)
          then s.dt.toNat - 1 else s.dt.toNat) ∧
        t.st.toNat = (if s.divCnt = timerDiv - 1 ∧ (s.runState = .run ∨ s.runState = .waitKey)
          then s.st.toNat - 1 else s.st.toNat) ∧
        KeepsRegs [] s t ∧ KeepsMem s t ∧ KeepsI s t ∧ t.pc = s.pc ∧ KeepsStack s t ∧ t.runState = s.runState ∧
        t.waitX = s.waitX ∧ KeepsHalt s t ∧ t.loaded = s.loaded ∧ t.illSeen = s.illSeen ∧ KeepsWorld s t ∧
        t.out = .quiet)

/-- R209, R210 (92_eei_decisions.md D16): in RUN and WAIT_KEY an edge on which `step_cnt` wraps is a step, and when a
tick falls in the same clock cycle the step runs on the state the tick has left, so FX15 and FX18 write a value that
stands and FX07 reads the decremented DT. -/
def Obligations.TickComesBeforeStep : Prop :=
  ∀ (timerDiv instrDiv : Nat) (inp : Inputs) (s : State), (s.runState = .run ∨ s.runState = .waitKey) →
    s.stepCnt = instrDiv - 1 →
    (s.divCnt ≠ timerDiv - 1 →
      clkMove timerDiv instrDiv inp s = runMove (.step inp) (s.setDividers (s.divCnt + 1) 0)) ∧
    (s.divCnt = timerDiv - 1 →
      (∃ u, runMove .tick s = .next u ∧
        clkMove timerDiv instrDiv inp s = runMove (.step inp) (u.setDividers 0 0)) ∧
      (s.runState = .run → inp.stop = false → s.loaded = true → s.pc.toNat ≤ 0xFFE → ∀ x : Nibble,
        (s.mem.read s.pc.toNat ++ s.mem.read (s.pc.toNat + 1) = encode (.ldDtVx x) →
          ∃ t, clkMove timerDiv instrDiv inp s = .next t ∧ t.dt = s.readV x ∧ t.st.toNat = s.st.toNat - 1 ∧
            t.divCnt = 0 ∧ t.stepCnt = 0 ∧ t.pc = s.pc + 2) ∧
        (s.mem.read s.pc.toNat ++ s.mem.read (s.pc.toNat + 1) = encode (.ldStVx x) →
          ∃ t, clkMove timerDiv instrDiv inp s = .next t ∧ t.st = s.readV x ∧ t.dt.toNat = s.dt.toNat - 1 ∧
            t.divCnt = 0 ∧ t.stepCnt = 0 ∧ t.pc = s.pc + 2) ∧
        (s.mem.read s.pc.toNat ++ s.mem.read (s.pc.toNat + 1) = encode (.ldVxDt x) →
          ∃ t, clkMove timerDiv instrDiv inp s = .next t ∧ (t.readV x).toNat = s.dt.toNat - 1 ∧
            t.dt.toNat = s.dt.toNat - 1 ∧ t.divCnt = 0 ∧ t.stepCnt = 0 ∧ t.pc = s.pc + 2)))

/-- R53: `load_program` copies verbatim to 0x200, leaves every other byte, and sets `loaded`; an oversized image
raises OutOfBounds(0x1000) and writes nothing; outside IDLE it is refused. -/
def Obligations.LoadProgramCopiesVerbatim : Prop :=
  ∀ (s : State) (bytes : List Byte),
    (s.runState = .idle → bytes.length ≤ 3584 →
      ∃ t, runMove (.load bytes) s = .next t ∧ t.loaded = true ∧
        (∀ k (h : k < bytes.length), t.mem.read (0x200 + k) = bytes[k]) ∧
        KeepsMemOutside 0x200 bytes.length s t ∧ KeepsRegs [] s t ∧ KeepsI s t ∧ t.pc = s.pc ∧ KeepsStack s t ∧
        KeepsTimers s t ∧ t.runState = .idle ∧ KeepsHalt s t ∧ t.illSeen = s.illSeen ∧ t.waitX = s.waitX ∧
        t.divCnt = s.divCnt ∧ t.stepCnt = s.stepCnt ∧ KeepsWorld s t) ∧
    (s.runState = .idle → 3584 < bytes.length →
      ∃ t, runMove (.load bytes) s = .next t ∧ HaltsWith .outOfBounds 0x1000 s.quietOut t) ∧
    (s.runState ≠ .idle → runMove (.load bytes) s = .refused .loadOutsideIdle)

/-- R215, R78: `start` moves IDLE to RUN and is ignored elsewhere; `stop` halts with cause Stop in every state but
HALTED, where it is ignored (log entry 12 for a stop given as a move in RUN and WAIT_KEY). The stop pin on any clock
edge halts an IDLE core too (log entry 12), and the dividers count on that edge. -/
def Obligations.StartAndStopMoveTheCore : Prop :=
  ∀ s : State,
    (s.runState = .idle → runMove .start s = .next { s.quietOut with runState := .run }) ∧
    (s.runState ≠ .idle → runMove .start s = .next s.quietOut) ∧
    (s.runState ≠ .halted → ∃ t, runMove .stop s = .next t ∧ HaltsWith .stop 0 s.quietOut t) ∧
    (s.runState = .halted → runMove .stop s = .next s.quietOut) ∧
    (s.runState = .idle → ∀ (timerDiv instrDiv : Nat) (inp : Inputs), inp.stop = true →
      ∃ t, clkMove timerDiv instrDiv inp s = .next t ∧
        HaltsWith .stop 0
          (s.quietOut.setDividers (if s.divCnt = timerDiv - 1 then 0 else s.divCnt + 1)
            (if s.stepCnt = instrDiv - 1 then 0 else s.stepCnt + 1)) t)

/-- R204, R78, R79: IDLE and HALTED have no step, and nothing but reset leaves HALTED or changes a halted core. -/
def Obligations.HaltedUntilReset : Prop :=
  (∀ s : State, s.runState = .idle → ∀ inp, runMove (.step inp) s = .fault .noStepIdle) ∧
  ∀ s : State, s.runState = .halted →
    (∀ inp, runMove (.step inp) s = .fault .noStepHalted) ∧
    (∀ t, step s = .next t → s.nextMove.1 ≠ .rst →
      t.runState = .halted ∧ KeepsArchitecture s t ∧ KeepsHalt s t ∧ t.waitX = s.waitX ∧ t.loaded = s.loaded ∧
      t.illSeen = s.illSeen)

/-- R230, R30: reset, in any state, puts every piece of state at its reset value; the core is then in IDLE. The
bytes 0x000 to 0x04F are the parameter FONT's, whichever it is: a reset takes it from the state it finds, and
State.reset has the default (R42; log entry 5 for its bytes). -/
def Obligations.ResetPutsEveryStateAtItsValue : Prop :=
  ∀ (s : State) (font : Vector Byte 80), ∃ t, runMove .rst s = .next t ∧
    ∀ (u : State) (f : Vector Byte 80),
      (u, f) ∈ [(State.resetWith font, font), (State.reset, Config.defaultFont), (t, s.mem.font)] →
      (∀ r, u.readV r = 0) ∧ u.iReg = 0 ∧ u.pc = 0x200 ∧ u.sp = 0 ∧ (∀ k < 16, u.stack[k]? = some 0) ∧ u.dt = 0 ∧
      u.st = 0 ∧ (∀ a < 80, f[a]? = some (u.mem.read a)) ∧
      (∀ a, 80 ≤ a → a ≤ 0xFFF → u.mem.read a = 0) ∧
      u.runState = .idle ∧ u.haltCause = .none ∧ u.faultPc = 0 ∧ u.faultInfo = 0 ∧ u.loaded = false ∧
      u.illSeen = false ∧ u.waitX = 0 ∧ u.divCnt = 0 ∧ u.stepCnt = 0

/-- R215, R28, R200: what the status port shows in every state, and the codes it shows the two names by. -/
def Obligations.StatusPortShowsTheCodes : Prop :=
  (RunState.idle.code = 0 ∧ RunState.run.code = 1 ∧ RunState.waitKey.code = 2 ∧ RunState.halted.code = 3) ∧
  (HaltCause.none.code = 0 ∧ HaltCause.outOfBounds.code = 1 ∧ HaltCause.stackOverflow.code = 2 ∧
   HaltCause.stackUnderflow.code = 3 ∧ HaltCause.invalidOpcode.code = 4 ∧
   HaltCause.uninitializedProgram.code = 5 ∧ HaltCause.stop.code = 6) ∧
  (∀ e : HaltCause, e.code ≠ 7) ∧
  ∀ s : State,
    s.statusPort.runState = s.runState.code ∧ s.statusPort.haltCause = s.haltCause.code ∧
    s.statusPort.faultPc = s.faultPc ∧ s.statusPort.faultInfo = s.faultInfo ∧ s.statusPort.loaded = s.loaded ∧
    s.statusPort.illSeen = s.illSeen

/-- R29: no move changes the strap. -/
def Obligations.StrapIsHeldConstant : Prop := ∀ s t : State, step s = .next t → t.strict = s.strict

/-! ## Invariants -/

/-- The invariant holds at reset, whatever the parameter FONT. -/
def Obligations.ResetMeetsInvariant : Prop :=
  Inv State.reset ∧ ∀ font : Vector Byte 80, Inv (State.resetWith font)

/-- From every state that meets the invariant, not only runs from reset, every move leads to one that does. -/
def Obligations.StepKeepsInvariant : Prop := ∀ s t : State, Inv s → step s = .next t → Inv t

/-- R44: no write to an address below 0x200 occurs after initialization: whatever the move, from any state whose
low memory is at its reset contents. The contents are the parameter FONT's and zero, and no move changes FONT. -/
def Obligations.LowMemoryNeverChanges : Prop :=
  ∀ s t : State, (∀ a < 0x200, s.mem.read a = s.mem.unlisted a) → step s = .next t →
    t.mem.font = s.mem.font ∧ ∀ a < 0x200, t.mem.read a = s.mem.unlisted a

/-! ## Infinite runs -/

/-- R209, weak fairness: in an infinite run in which the core never halts, infinitely many ticks occur. The model
keeps it by how it chooses the moves that no schedule gives (log entry 2). -/
def Obligations.EveryRunIsFair : Prop := ∀ r : Run, r.Fair
end

