-- ==== Sys2Proof/Laws/Assembler.lean ====
section
/-! SUPPORT. A number that came from a field goes back into it, and one too large for its field is an error
(30_encoding.md R68). -/

namespace Sys2Proof.Asm

theorem number_toNat (k : NumKind) (x : BitVec k.width) : number k x.toNat = .ok x := by
  unfold number
  rw [if_pos (show k.fits x.toNat = true from decide_eq_true x.isLt), BitVec.ofNat_toNat, BitVec.setWidth_eq]

theorem number_outOfRange (k : NumKind) {v : Nat} (h : 2 ^ k.width ≤ v) : number k v = .error (.outOfRange v) := by
  unfold number
  rw [if_neg (by simpa [NumKind.fits] using h)]

theorem number_reg (x : Nibble) : number .reg x.toNat = .ok x := number_toNat .reg x
theorem number_nibble (n : Nibble) : number .nibble n.toNat = .ok n := number_toNat .nibble n
theorem number_byte (b : Byte) : number .byte b.toNat = .ok b := number_toNat .byte b
theorem number_addr (a : Addr) : number .addr a.toNat = .ok a := number_toNat .addr a

theorem address_num (labels : Labels) (a : Addr) : address labels (.num a.toNat) = .ok a := number_addr a

end Sys2Proof.Asm
end

