-- ==== Sys2Proof/Laws/Decode.lean ====
section
/-! SUPPORT. The fields of an assembled word, and the word assembled from its fields (30_encoding.md R61). -/

namespace Sys2Proof

/-! ## The fields of a word of format nnn, xnn or xyn (R62) -/

@[simp] theorem fieldC_nnn (c : Nibble) (a : Addr) : fieldC (c ++ a) = c := by
  apply BitVec.eq_of_getLsbD_eq; intro k hk
  simp only [fieldC, BitVec.getLsbD_extractLsb', hk, decide_true, Bool.true_and]
  rw [BitVec.getLsbD_append (x := c) (y := a), if_neg (by omega)]
  congr 1; omega

@[simp] theorem fieldNNN_nnn (c : Nibble) (a : Addr) : fieldNNN (c ++ a) = a := by
  apply BitVec.eq_of_getLsbD_eq; intro k hk
  simp only [fieldNNN, BitVec.getLsbD_extractLsb', hk, decide_true, Bool.true_and]
  rw [BitVec.getLsbD_append (x := c) (y := a), if_pos (by omega)]
  congr 1; omega

@[simp] theorem fieldC_xnn (c x : Nibble) (b : Byte) : fieldC (c ++ x ++ b) = c := by
  apply BitVec.eq_of_getLsbD_eq; intro k hk
  simp only [fieldC, BitVec.getLsbD_extractLsb', hk, decide_true, Bool.true_and]
  rw [BitVec.getLsbD_append (x := c ++ x) (y := b), if_neg (by omega),
    BitVec.getLsbD_append (x := c) (y := x), if_neg (by omega)]
  congr 1; omega

@[simp] theorem fieldX_xnn (c x : Nibble) (b : Byte) : fieldX (c ++ x ++ b) = x := by
  apply BitVec.eq_of_getLsbD_eq; intro k hk
  simp only [fieldX, BitVec.getLsbD_extractLsb', hk, decide_true, Bool.true_and]
  rw [BitVec.getLsbD_append (x := c ++ x) (y := b), if_neg (by omega),
    BitVec.getLsbD_append (x := c) (y := x), if_pos (by omega)]
  congr 1; omega

@[simp] theorem fieldNN_xnn (c x : Nibble) (b : Byte) : fieldNN (c ++ x ++ b) = b := by
  apply BitVec.eq_of_getLsbD_eq; intro k hk
  simp only [fieldNN, BitVec.getLsbD_extractLsb', hk, decide_true, Bool.true_and]
  rw [BitVec.getLsbD_append (x := c ++ x) (y := b), if_pos (by omega)]
  congr 1; omega

@[simp] theorem fieldC_xyn (c x y n : Nibble) : fieldC (c ++ x ++ y ++ n) = c := by
  apply BitVec.eq_of_getLsbD_eq; intro k hk
  simp only [fieldC, BitVec.getLsbD_extractLsb', hk, decide_true, Bool.true_and]
  rw [BitVec.getLsbD_append (x := c ++ x ++ y) (y := n), if_neg (by omega),
    BitVec.getLsbD_append (x := c ++ x) (y := y), if_neg (by omega),
    BitVec.getLsbD_append (x := c) (y := x), if_neg (by omega)]
  congr 1; omega

@[simp] theorem fieldX_xyn (c x y n : Nibble) : fieldX (c ++ x ++ y ++ n) = x := by
  apply BitVec.eq_of_getLsbD_eq; intro k hk
  simp only [fieldX, BitVec.getLsbD_extractLsb', hk, decide_true, Bool.true_and]
  rw [BitVec.getLsbD_append (x := c ++ x ++ y) (y := n), if_neg (by omega),
    BitVec.getLsbD_append (x := c ++ x) (y := y), if_neg (by omega),
    BitVec.getLsbD_append (x := c) (y := x), if_pos (by omega)]
  congr 1; omega

@[simp] theorem fieldY_xyn (c x y n : Nibble) : fieldY (c ++ x ++ y ++ n) = y := by
  apply BitVec.eq_of_getLsbD_eq; intro k hk
  simp only [fieldY, BitVec.getLsbD_extractLsb', hk, decide_true, Bool.true_and]
  rw [BitVec.getLsbD_append (x := c ++ x ++ y) (y := n), if_neg (by omega),
    BitVec.getLsbD_append (x := c ++ x) (y := y), if_pos (by omega)]
  congr 1; omega

@[simp] theorem fieldN_xyn (c x y n : Nibble) : fieldN (c ++ x ++ y ++ n) = n := by
  apply BitVec.eq_of_getLsbD_eq; intro k hk
  simp only [fieldN, BitVec.getLsbD_extractLsb', hk, decide_true, Bool.true_and]
  rw [BitVec.getLsbD_append (x := c ++ x ++ y) (y := n), if_pos (by omega)]
  congr 1; omega

/-! ## A word from its fields -/

theorem word_of_nnn (w : Word) : fieldC w ++ fieldNNN w = w := by
  apply BitVec.eq_of_getLsbD_eq; intro k hk
  simp only [fieldC, fieldNNN, BitVec.getLsbD_append, BitVec.getLsbD_extractLsb']
  split <;> simp <;> (try omega)
  rw [show 12 + (k - 12) = k by omega]; simp; omega

theorem word_of_xnn (w : Word) : fieldC w ++ fieldX w ++ fieldNN w = w := by
  apply BitVec.eq_of_getLsbD_eq; intro k hk
  simp only [fieldC, fieldX, fieldNN, BitVec.getLsbD_append, BitVec.getLsbD_extractLsb']
  split
  · simp; omega
  · split
    · rw [show 8 + (k - 8) = k by omega]; simp; omega
    · rw [show 12 + (k - 8 - 4) = k by omega]; simp; omega

theorem word_of_xyn (w : Word) : fieldC w ++ fieldX w ++ fieldY w ++ fieldN w = w := by
  apply BitVec.eq_of_getLsbD_eq; intro k hk
  simp only [fieldC, fieldX, fieldY, fieldN, BitVec.getLsbD_append, BitVec.getLsbD_extractLsb']
  split
  · simp; omega
  · split
    · rw [show 4 + (k - 4) = k by omega]; simp; omega
    · split
      · rw [show 8 + (k - 4 - 4) = k by omega]; simp; omega
      · rw [show 12 + (k - 4 - 4 - 4) = k by omega]; simp; omega

/-- The two bytes of a word, most significant first, make the word (20_memory.md R47). -/
@[simp] theorem hiByte_append_loByte (w : Word) : hiByte w ++ loByte w = w := by
  apply BitVec.eq_of_getLsbD_eq; intro k hk
  simp only [hiByte, loByte, BitVec.getLsbD_append, BitVec.getLsbD_extractLsb']
  split
  · simp; omega
  · rw [show 8 + (k - 8) = k by omega]; simp; omega

/-- Two bytes decode to what their word decodes to. -/
theorem decodeBytes_two {a b : Byte} {rest : List Byte} {i : Instr} :
    decodeBytes (a :: b :: rest) = .ok (i, rest) ↔ decodeWord (a ++ b) = .ok i := by
  show (match decodeWord (a ++ b) with
    | .ok i => .ok (i, rest)
    | .error e => .error e : Except DecodeError (Instr × List Byte)) = _ ↔ _
  cases decodeWord (a ++ b) <;> simp

end Sys2Proof
end

