-- ==== Sys2Proof/Laws/Memory.lean ====
section
/-! SUPPORT. The laws of memory: read after write, and that every operation keeps the canonical form. -/

namespace Sys2Proof.Machine.Memory

@[simp] theorem read_nil (f : Vector Byte 80) (a : Nat) :
    read { font := f, cells := [] } a = unlisted { font := f, cells := [] } a := rfl

@[simp] theorem font_write (m : Memory) (a : Nat) (v : Byte) : (m.write a v).font = m.font := rfl

@[simp] theorem unlisted_write (m : Memory) (a b : Nat) (v : Byte) : (m.write a v).unlisted b = m.unlisted b := rfl

theorem lookup_filter_other (m : List Host.Cell) {a b : Nat} (h : b ≠ a) :
    lookup (m.filter fun c => c.1 ≠ a) b = lookup m b := by
  induction m with
  | nil => rfl
  | cons c m ih =>
    obtain ⟨k, v⟩ := c
    by_cases hk : k = a
    · subst hk; simpa [lookup, h] using ih
    · simpa [lookup, hk] using congrArg (fun r => if b = k then some v else r) ih

theorem lookup_eq_none (m : List Host.Cell) (a : Nat) (h : ∀ c ∈ m, c.1 ≠ a) : lookup m a = none := by
  induction m with
  | nil => rfl
  | cons c m ih =>
    rw [List.forall_mem_cons] at h
    simp [lookup, Ne.symm h.1, ih h.2]

theorem mem_insertCell (c d : Host.Cell) (m : List Host.Cell) : d ∈ insertCell c m ↔ d = c ∨ d ∈ m := by
  induction m with
  | nil => simp [insertCell]
  | cons e m ih =>
    unfold insertCell
    split
    · simp
    · simp only [List.mem_cons, ih]; tauto

theorem lookup_insertCell_other (m : List Host.Cell) {a b : Nat} (v : Byte) (h : b ≠ a) :
    lookup (insertCell (a, v) m) b = lookup m b := by
  induction m with
  | nil => simp [insertCell, lookup, h]
  | cons c m ih =>
    obtain ⟨k, u⟩ := c
    unfold insertCell
    split
    · simp [lookup, h]
    · simp [lookup, ih]

theorem lookup_insertCell_same (m : List Host.Cell) (a : Nat) (v : Byte) (h : ∀ c ∈ m, c.1 ≠ a) :
    lookup (insertCell (a, v) m) a = some v := by
  induction m with
  | nil => simp [insertCell, lookup]
  | cons c m ih =>
    obtain ⟨k, u⟩ := c
    have hk : k ≠ a := h _ List.mem_cons_self
    unfold insertCell
    split
    · simp [lookup]
    · simp [lookup, Ne.symm hk, ih fun d hd => h d (List.mem_cons_of_mem _ hd)]

/-- A read after a write to the same address gives the value written. -/
theorem read_write_same (m : Memory) (a : Nat) (v : Byte) : (m.write a v).read a = v := by
  unfold read write
  dsimp only
  split
  · rename_i h; rw [lookup_eq_none _ a (by simp), h]; rfl
  · rw [lookup_insertCell_same _ a v (by simp)]; rfl

/-- A write leaves every other address alone. -/
theorem read_write_other (m : Memory) {a b : Nat} (v : Byte) (h : b ≠ a) :
    (m.write a v).read b = m.read b := by
  unfold read write
  dsimp only
  split
  · rw [lookup_filter_other _ h]; rfl
  · rw [lookup_insertCell_other _ v h, lookup_filter_other _ h]; rfl

theorem read_write (m : Memory) (a b : Nat) (v : Byte) :
    (m.write a v).read b = if b = a then v else m.read b := by
  split
  · rename_i h; rw [h, read_write_same]
  · exact read_write_other m v ‹_›

/-! ## The canonical form -/

theorem mem_write {m : Memory} {a : Nat} {v : Byte} {c : Host.Cell} (h : c ∈ (m.write a v).cells) :
    c = (a, v) ∨ c ∈ m.cells := by
  unfold write at h
  dsimp only at h
  split at h
  · exact .inr (List.mem_of_mem_filter h)
  · rcases (mem_insertCell _ _ _).1 h with h | h
    · exact .inl h
    · exact .inr (List.mem_of_mem_filter h)

theorem sorted_insertCell (c : Host.Cell) (m : List Host.Cell) (hs : m.Pairwise fun c d => c.1 < d.1)
    (h : ∀ d ∈ m, d.1 ≠ c.1) : (insertCell c m).Pairwise fun c d => c.1 < d.1 := by
  induction m with
  | nil => simp [insertCell]
  | cons e m ih =>
    rw [List.pairwise_cons] at hs
    unfold insertCell
    split
    · rename_i hlt
      refine List.pairwise_cons.2 ⟨fun d hd => ?_, List.pairwise_cons.2 hs⟩
      rcases List.mem_cons.1 hd with rfl | hd
      · exact hlt
      · exact Nat.lt_trans hlt (hs.1 d hd)
    · rename_i hge
      have he : e.1 ≠ c.1 := h e List.mem_cons_self
      refine List.pairwise_cons.2
        ⟨fun d hd => ?_, ih hs.2 fun d hd => h d (List.mem_cons_of_mem _ hd)⟩
      rcases (mem_insertCell _ _ _).1 hd with rfl | hd
      · omega
      · exact hs.1 d hd

/-- A write inside the address space keeps the canonical form. -/
theorem wf_write {m : Memory} {a : Nat} (v : Byte) (hm : m.wf) (ha : a ≤ Config.maxAddr) :
    (m.write a v).wf := by
  refine ⟨?_, fun c hc => ?_⟩
  · unfold write
    dsimp only
    split
    · exact hm.1.filter _
    · exact sorted_insertCell _ _ (hm.1.filter _) (by simp)
  · unfold write at hc
    dsimp only at hc
    split at hc
    · exact hm.2 c (List.mem_of_mem_filter hc)
    · rename_i hv
      rcases (mem_insertCell _ _ _).1 hc with rfl | hc
      · exact ⟨ha, hv⟩
      · exact hm.2 c (List.mem_of_mem_filter hc)

/-- Reset's memory has the canonical form. -/
theorem wf_nil (f : Vector Byte 80) : wf { font := f, cells := [] } := ⟨List.Pairwise.nil, by simp⟩

/-! ## Many bytes -/

@[simp] theorem font_writeBytes (bytes : List Byte) (m : Memory) (a : Nat) :
    (m.writeBytes a bytes).font = m.font := by
  induction bytes generalizing m a with
  | nil => rfl
  | cons v bs ih => rw [writeBytes, ih, font_write]

/-- Bytes written at ascending addresses: inside the range the byte written, outside it the byte before. -/
theorem read_writeBytes (bytes : List Byte) (m : Memory) (a b : Nat) :
    (m.writeBytes a bytes).read b =
      if h : a ≤ b ∧ b < a + bytes.length then bytes[b - a] else m.read b := by
  induction bytes generalizing m a with
  | nil => rw [dif_neg (by simp only [List.length_nil]; omega)]; rfl
  | cons v bs ih =>
    rw [writeBytes, ih, read_write]
    rcases Nat.lt_trichotomy b a with h | h | h
    · rw [dif_neg (by omega), dif_neg (by omega), if_neg (by omega)]
    · subst h; simp
    · simp only [List.length_cons]
      by_cases hb : b < a + (bs.length + 1)
      · rw [dif_pos (by omega), dif_pos (by omega)]
        have : b - a = (b - (a + 1)) + 1 := by omega
        simp [this]
      · rw [dif_neg (by omega), dif_neg (by omega), if_neg (by omega)]

theorem read_writeBytes_outside (bytes : List Byte) (m : Memory) {a b : Nat}
    (h : b < a ∨ a + bytes.length ≤ b) : (m.writeBytes a bytes).read b = m.read b := by
  rw [read_writeBytes, dif_neg (by omega)]

theorem read_writeBytes_inside (bytes : List Byte) (m : Memory) (a k : Nat) (h : k < bytes.length) :
    (m.writeBytes a bytes).read (a + k) = bytes[k] := by
  rw [read_writeBytes, dif_pos (by omega)]; simp

theorem wf_writeBytes {bytes : List Byte} {m : Memory} {a : Nat} (hm : m.wf)
    (h : a + bytes.length ≤ Config.maxAddr + 1) : (m.writeBytes a bytes).wf := by
  induction bytes generalizing m a with
  | nil => exact hm
  | cons v bs ih =>
    simp only [List.length_cons] at h
    exact ih (wf_write v hm (by omega)) (by omega)

/-- A cell listed after writing bytes was listed before or lies in the range written. -/
theorem mem_writeBytes {bytes : List Byte} {m : Memory} {a : Nat} {c : Host.Cell}
    (h : c ∈ (m.writeBytes a bytes).cells) : c ∈ m.cells ∨ (a ≤ c.1 ∧ c.1 < a + bytes.length) := by
  induction bytes generalizing m a with
  | nil => exact .inl h
  | cons v bs ih =>
    rcases ih h with h | h
    · rcases mem_write h with rfl | h
      · right; simp
      · exact .inl h
    · right; simp only [List.length_cons]; omega

@[simp] theorem length_readBytes (m : Memory) (a n : Nat) : (m.readBytes a n).length = n := by
  induction n generalizing a with
  | zero => rfl
  | succ n ih => simp [readBytes, ih]

@[simp] theorem getElem_readBytes (m : Memory) (a n k : Nat) (h : k < (m.readBytes a n).length) :
    (m.readBytes a n)[k] = m.read (a + k) := by
  induction n generalizing a k with
  | zero => simp [readBytes] at h
  | succ n ih =>
    cases k with
    | zero => rfl
    | succ k =>
      simp only [readBytes, List.getElem_cons_succ]
      rw [ih]
      congr 1; omega

end Sys2Proof.Machine.Memory
end

