-- ==== Sys2Proof/Laws/State.lean ====
section
/-! SUPPORT. One lemma per field of State per update, true by rfl, so that no proof unfolds a record update. -/

namespace Sys2Proof.Machine

variable (s : State)

/-! `s.writeV x b` -/

@[simp] theorem State.writeV_v (x : Nibble) (b : Byte) : (s.writeV x b).v = s.v.set x.toNat b x.isLt := rfl
@[simp] theorem State.writeV_iReg (x : Nibble) (b : Byte) : (s.writeV x b).iReg = s.iReg := rfl
@[simp] theorem State.writeV_pc (x : Nibble) (b : Byte) : (s.writeV x b).pc = s.pc := rfl
@[simp] theorem State.writeV_sp (x : Nibble) (b : Byte) : (s.writeV x b).sp = s.sp := rfl
@[simp] theorem State.writeV_stack (x : Nibble) (b : Byte) : (s.writeV x b).stack = s.stack := rfl
@[simp] theorem State.writeV_dt (x : Nibble) (b : Byte) : (s.writeV x b).dt = s.dt := rfl
@[simp] theorem State.writeV_st (x : Nibble) (b : Byte) : (s.writeV x b).st = s.st := rfl
@[simp] theorem State.writeV_mem (x : Nibble) (b : Byte) : (s.writeV x b).mem = s.mem := rfl
@[simp] theorem State.writeV_runState (x : Nibble) (b : Byte) : (s.writeV x b).runState = s.runState := rfl
@[simp] theorem State.writeV_haltCause (x : Nibble) (b : Byte) : (s.writeV x b).haltCause = s.haltCause := rfl
@[simp] theorem State.writeV_faultPc (x : Nibble) (b : Byte) : (s.writeV x b).faultPc = s.faultPc := rfl
@[simp] theorem State.writeV_faultInfo (x : Nibble) (b : Byte) : (s.writeV x b).faultInfo = s.faultInfo := rfl
@[simp] theorem State.writeV_loaded (x : Nibble) (b : Byte) : (s.writeV x b).loaded = s.loaded := rfl
@[simp] theorem State.writeV_illSeen (x : Nibble) (b : Byte) : (s.writeV x b).illSeen = s.illSeen := rfl
@[simp] theorem State.writeV_waitX (x : Nibble) (b : Byte) : (s.writeV x b).waitX = s.waitX := rfl
@[simp] theorem State.writeV_divCnt (x : Nibble) (b : Byte) : (s.writeV x b).divCnt = s.divCnt := rfl
@[simp] theorem State.writeV_stepCnt (x : Nibble) (b : Byte) : (s.writeV x b).stepCnt = s.stepCnt := rfl
@[simp] theorem State.writeV_strict (x : Nibble) (b : Byte) : (s.writeV x b).strict = s.strict := rfl
@[simp] theorem State.writeV_inputs (x : Nibble) (b : Byte) : (s.writeV x b).inputs = s.inputs := rfl
@[simp] theorem State.writeV_out (x : Nibble) (b : Byte) : (s.writeV x b).out = s.out := rfl
@[simp] theorem State.writeV_schedule (x : Nibble) (b : Byte) : (s.writeV x b).schedule = s.schedule := rfl
@[simp] theorem State.writeV_stepsToTick (x : Nibble) (b : Byte) : (s.writeV x b).stepsToTick = s.stepsToTick := rfl
@[simp] theorem State.writeV_draws (x : Nibble) (b : Byte) : (s.writeV x b).draws = s.draws := rfl

/-! `s.setI w` -/

@[simp] theorem State.setI_v (w : Word) : (s.setI w).v = s.v := rfl
@[simp] theorem State.setI_iReg (w : Word) : (s.setI w).iReg = w := rfl
@[simp] theorem State.setI_pc (w : Word) : (s.setI w).pc = s.pc := rfl
@[simp] theorem State.setI_sp (w : Word) : (s.setI w).sp = s.sp := rfl
@[simp] theorem State.setI_stack (w : Word) : (s.setI w).stack = s.stack := rfl
@[simp] theorem State.setI_dt (w : Word) : (s.setI w).dt = s.dt := rfl
@[simp] theorem State.setI_st (w : Word) : (s.setI w).st = s.st := rfl
@[simp] theorem State.setI_mem (w : Word) : (s.setI w).mem = s.mem := rfl
@[simp] theorem State.setI_runState (w : Word) : (s.setI w).runState = s.runState := rfl
@[simp] theorem State.setI_haltCause (w : Word) : (s.setI w).haltCause = s.haltCause := rfl
@[simp] theorem State.setI_faultPc (w : Word) : (s.setI w).faultPc = s.faultPc := rfl
@[simp] theorem State.setI_faultInfo (w : Word) : (s.setI w).faultInfo = s.faultInfo := rfl
@[simp] theorem State.setI_loaded (w : Word) : (s.setI w).loaded = s.loaded := rfl
@[simp] theorem State.setI_illSeen (w : Word) : (s.setI w).illSeen = s.illSeen := rfl
@[simp] theorem State.setI_waitX (w : Word) : (s.setI w).waitX = s.waitX := rfl
@[simp] theorem State.setI_divCnt (w : Word) : (s.setI w).divCnt = s.divCnt := rfl
@[simp] theorem State.setI_stepCnt (w : Word) : (s.setI w).stepCnt = s.stepCnt := rfl
@[simp] theorem State.setI_strict (w : Word) : (s.setI w).strict = s.strict := rfl
@[simp] theorem State.setI_inputs (w : Word) : (s.setI w).inputs = s.inputs := rfl
@[simp] theorem State.setI_out (w : Word) : (s.setI w).out = s.out := rfl
@[simp] theorem State.setI_schedule (w : Word) : (s.setI w).schedule = s.schedule := rfl
@[simp] theorem State.setI_stepsToTick (w : Word) : (s.setI w).stepsToTick = s.stepsToTick := rfl
@[simp] theorem State.setI_draws (w : Word) : (s.setI w).draws = s.draws := rfl

/-! `s.setPc w` -/

@[simp] theorem State.setPc_v (w : Word) : (s.setPc w).v = s.v := rfl
@[simp] theorem State.setPc_iReg (w : Word) : (s.setPc w).iReg = s.iReg := rfl
@[simp] theorem State.setPc_pc (w : Word) : (s.setPc w).pc = w := rfl
@[simp] theorem State.setPc_sp (w : Word) : (s.setPc w).sp = s.sp := rfl
@[simp] theorem State.setPc_stack (w : Word) : (s.setPc w).stack = s.stack := rfl
@[simp] theorem State.setPc_dt (w : Word) : (s.setPc w).dt = s.dt := rfl
@[simp] theorem State.setPc_st (w : Word) : (s.setPc w).st = s.st := rfl
@[simp] theorem State.setPc_mem (w : Word) : (s.setPc w).mem = s.mem := rfl
@[simp] theorem State.setPc_runState (w : Word) : (s.setPc w).runState = s.runState := rfl
@[simp] theorem State.setPc_haltCause (w : Word) : (s.setPc w).haltCause = s.haltCause := rfl
@[simp] theorem State.setPc_faultPc (w : Word) : (s.setPc w).faultPc = s.faultPc := rfl
@[simp] theorem State.setPc_faultInfo (w : Word) : (s.setPc w).faultInfo = s.faultInfo := rfl
@[simp] theorem State.setPc_loaded (w : Word) : (s.setPc w).loaded = s.loaded := rfl
@[simp] theorem State.setPc_illSeen (w : Word) : (s.setPc w).illSeen = s.illSeen := rfl
@[simp] theorem State.setPc_waitX (w : Word) : (s.setPc w).waitX = s.waitX := rfl
@[simp] theorem State.setPc_divCnt (w : Word) : (s.setPc w).divCnt = s.divCnt := rfl
@[simp] theorem State.setPc_stepCnt (w : Word) : (s.setPc w).stepCnt = s.stepCnt := rfl
@[simp] theorem State.setPc_strict (w : Word) : (s.setPc w).strict = s.strict := rfl
@[simp] theorem State.setPc_inputs (w : Word) : (s.setPc w).inputs = s.inputs := rfl
@[simp] theorem State.setPc_out (w : Word) : (s.setPc w).out = s.out := rfl
@[simp] theorem State.setPc_schedule (w : Word) : (s.setPc w).schedule = s.schedule := rfl
@[simp] theorem State.setPc_stepsToTick (w : Word) : (s.setPc w).stepsToTick = s.stepsToTick := rfl
@[simp] theorem State.setPc_draws (w : Word) : (s.setPc w).draws = s.draws := rfl

/-! `s.advance` -/

@[simp] theorem State.advance_v : (s.advance).v = s.v := rfl
@[simp] theorem State.advance_iReg : (s.advance).iReg = s.iReg := rfl
@[simp] theorem State.advance_pc : (s.advance).pc = s.pc + 2 := rfl
@[simp] theorem State.advance_sp : (s.advance).sp = s.sp := rfl
@[simp] theorem State.advance_stack : (s.advance).stack = s.stack := rfl
@[simp] theorem State.advance_dt : (s.advance).dt = s.dt := rfl
@[simp] theorem State.advance_st : (s.advance).st = s.st := rfl
@[simp] theorem State.advance_mem : (s.advance).mem = s.mem := rfl
@[simp] theorem State.advance_runState : (s.advance).runState = s.runState := rfl
@[simp] theorem State.advance_haltCause : (s.advance).haltCause = s.haltCause := rfl
@[simp] theorem State.advance_faultPc : (s.advance).faultPc = s.faultPc := rfl
@[simp] theorem State.advance_faultInfo : (s.advance).faultInfo = s.faultInfo := rfl
@[simp] theorem State.advance_loaded : (s.advance).loaded = s.loaded := rfl
@[simp] theorem State.advance_illSeen : (s.advance).illSeen = s.illSeen := rfl
@[simp] theorem State.advance_waitX : (s.advance).waitX = s.waitX := rfl
@[simp] theorem State.advance_divCnt : (s.advance).divCnt = s.divCnt := rfl
@[simp] theorem State.advance_stepCnt : (s.advance).stepCnt = s.stepCnt := rfl
@[simp] theorem State.advance_strict : (s.advance).strict = s.strict := rfl
@[simp] theorem State.advance_inputs : (s.advance).inputs = s.inputs := rfl
@[simp] theorem State.advance_out : (s.advance).out = s.out := rfl
@[simp] theorem State.advance_schedule : (s.advance).schedule = s.schedule := rfl
@[simp] theorem State.advance_stepsToTick : (s.advance).stepsToTick = s.stepsToTick := rfl
@[simp] theorem State.advance_draws : (s.advance).draws = s.draws := rfl

/-! `s.skipIf c` -/

@[simp] theorem State.skipIf_v (c : Bool) : (s.skipIf c).v = s.v := rfl
@[simp] theorem State.skipIf_iReg (c : Bool) : (s.skipIf c).iReg = s.iReg := rfl
@[simp] theorem State.skipIf_pc (c : Bool) : (s.skipIf c).pc = if c then s.pc + 4 else s.pc + 2 := rfl
@[simp] theorem State.skipIf_sp (c : Bool) : (s.skipIf c).sp = s.sp := rfl
@[simp] theorem State.skipIf_stack (c : Bool) : (s.skipIf c).stack = s.stack := rfl
@[simp] theorem State.skipIf_dt (c : Bool) : (s.skipIf c).dt = s.dt := rfl
@[simp] theorem State.skipIf_st (c : Bool) : (s.skipIf c).st = s.st := rfl
@[simp] theorem State.skipIf_mem (c : Bool) : (s.skipIf c).mem = s.mem := rfl
@[simp] theorem State.skipIf_runState (c : Bool) : (s.skipIf c).runState = s.runState := rfl
@[simp] theorem State.skipIf_haltCause (c : Bool) : (s.skipIf c).haltCause = s.haltCause := rfl
@[simp] theorem State.skipIf_faultPc (c : Bool) : (s.skipIf c).faultPc = s.faultPc := rfl
@[simp] theorem State.skipIf_faultInfo (c : Bool) : (s.skipIf c).faultInfo = s.faultInfo := rfl
@[simp] theorem State.skipIf_loaded (c : Bool) : (s.skipIf c).loaded = s.loaded := rfl
@[simp] theorem State.skipIf_illSeen (c : Bool) : (s.skipIf c).illSeen = s.illSeen := rfl
@[simp] theorem State.skipIf_waitX (c : Bool) : (s.skipIf c).waitX = s.waitX := rfl
@[simp] theorem State.skipIf_divCnt (c : Bool) : (s.skipIf c).divCnt = s.divCnt := rfl
@[simp] theorem State.skipIf_stepCnt (c : Bool) : (s.skipIf c).stepCnt = s.stepCnt := rfl
@[simp] theorem State.skipIf_strict (c : Bool) : (s.skipIf c).strict = s.strict := rfl
@[simp] theorem State.skipIf_inputs (c : Bool) : (s.skipIf c).inputs = s.inputs := rfl
@[simp] theorem State.skipIf_out (c : Bool) : (s.skipIf c).out = s.out := rfl
@[simp] theorem State.skipIf_schedule (c : Bool) : (s.skipIf c).schedule = s.schedule := rfl
@[simp] theorem State.skipIf_stepsToTick (c : Bool) : (s.skipIf c).stepsToTick = s.stepsToTick := rfl
@[simp] theorem State.skipIf_draws (c : Bool) : (s.skipIf c).draws = s.draws := rfl

/-! `s.setDt b` -/

@[simp] theorem State.setDt_v (b : Byte) : (s.setDt b).v = s.v := rfl
@[simp] theorem State.setDt_iReg (b : Byte) : (s.setDt b).iReg = s.iReg := rfl
@[simp] theorem State.setDt_pc (b : Byte) : (s.setDt b).pc = s.pc := rfl
@[simp] theorem State.setDt_sp (b : Byte) : (s.setDt b).sp = s.sp := rfl
@[simp] theorem State.setDt_stack (b : Byte) : (s.setDt b).stack = s.stack := rfl
@[simp] theorem State.setDt_dt (b : Byte) : (s.setDt b).dt = b := rfl
@[simp] theorem State.setDt_st (b : Byte) : (s.setDt b).st = s.st := rfl
@[simp] theorem State.setDt_mem (b : Byte) : (s.setDt b).mem = s.mem := rfl
@[simp] theorem State.setDt_runState (b : Byte) : (s.setDt b).runState = s.runState := rfl
@[simp] theorem State.setDt_haltCause (b : Byte) : (s.setDt b).haltCause = s.haltCause := rfl
@[simp] theorem State.setDt_faultPc (b : Byte) : (s.setDt b).faultPc = s.faultPc := rfl
@[simp] theorem State.setDt_faultInfo (b : Byte) : (s.setDt b).faultInfo = s.faultInfo := rfl
@[simp] theorem State.setDt_loaded (b : Byte) : (s.setDt b).loaded = s.loaded := rfl
@[simp] theorem State.setDt_illSeen (b : Byte) : (s.setDt b).illSeen = s.illSeen := rfl
@[simp] theorem State.setDt_waitX (b : Byte) : (s.setDt b).waitX = s.waitX := rfl
@[simp] theorem State.setDt_divCnt (b : Byte) : (s.setDt b).divCnt = s.divCnt := rfl
@[simp] theorem State.setDt_stepCnt (b : Byte) : (s.setDt b).stepCnt = s.stepCnt := rfl
@[simp] theorem State.setDt_strict (b : Byte) : (s.setDt b).strict = s.strict := rfl
@[simp] theorem State.setDt_inputs (b : Byte) : (s.setDt b).inputs = s.inputs := rfl
@[simp] theorem State.setDt_out (b : Byte) : (s.setDt b).out = s.out := rfl
@[simp] theorem State.setDt_schedule (b : Byte) : (s.setDt b).schedule = s.schedule := rfl
@[simp] theorem State.setDt_stepsToTick (b : Byte) : (s.setDt b).stepsToTick = s.stepsToTick := rfl
@[simp] theorem State.setDt_draws (b : Byte) : (s.setDt b).draws = s.draws := rfl

/-! `s.setSt b` -/

@[simp] theorem State.setSt_v (b : Byte) : (s.setSt b).v = s.v := rfl
@[simp] theorem State.setSt_iReg (b : Byte) : (s.setSt b).iReg = s.iReg := rfl
@[simp] theorem State.setSt_pc (b : Byte) : (s.setSt b).pc = s.pc := rfl
@[simp] theorem State.setSt_sp (b : Byte) : (s.setSt b).sp = s.sp := rfl
@[simp] theorem State.setSt_stack (b : Byte) : (s.setSt b).stack = s.stack := rfl
@[simp] theorem State.setSt_dt (b : Byte) : (s.setSt b).dt = s.dt := rfl
@[simp] theorem State.setSt_st (b : Byte) : (s.setSt b).st = b := rfl
@[simp] theorem State.setSt_mem (b : Byte) : (s.setSt b).mem = s.mem := rfl
@[simp] theorem State.setSt_runState (b : Byte) : (s.setSt b).runState = s.runState := rfl
@[simp] theorem State.setSt_haltCause (b : Byte) : (s.setSt b).haltCause = s.haltCause := rfl
@[simp] theorem State.setSt_faultPc (b : Byte) : (s.setSt b).faultPc = s.faultPc := rfl
@[simp] theorem State.setSt_faultInfo (b : Byte) : (s.setSt b).faultInfo = s.faultInfo := rfl
@[simp] theorem State.setSt_loaded (b : Byte) : (s.setSt b).loaded = s.loaded := rfl
@[simp] theorem State.setSt_illSeen (b : Byte) : (s.setSt b).illSeen = s.illSeen := rfl
@[simp] theorem State.setSt_waitX (b : Byte) : (s.setSt b).waitX = s.waitX := rfl
@[simp] theorem State.setSt_divCnt (b : Byte) : (s.setSt b).divCnt = s.divCnt := rfl
@[simp] theorem State.setSt_stepCnt (b : Byte) : (s.setSt b).stepCnt = s.stepCnt := rfl
@[simp] theorem State.setSt_strict (b : Byte) : (s.setSt b).strict = s.strict := rfl
@[simp] theorem State.setSt_inputs (b : Byte) : (s.setSt b).inputs = s.inputs := rfl
@[simp] theorem State.setSt_out (b : Byte) : (s.setSt b).out = s.out := rfl
@[simp] theorem State.setSt_schedule (b : Byte) : (s.setSt b).schedule = s.schedule := rfl
@[simp] theorem State.setSt_stepsToTick (b : Byte) : (s.setSt b).stepsToTick = s.stepsToTick := rfl
@[simp] theorem State.setSt_draws (b : Byte) : (s.setSt b).draws = s.draws := rfl

/-! `s.push r` -/

@[simp] theorem State.push_v (r : Word) : (s.push r).v = s.v := rfl
@[simp] theorem State.push_iReg (r : Word) : (s.push r).iReg = s.iReg := rfl
@[simp] theorem State.push_pc (r : Word) : (s.push r).pc = s.pc := rfl
@[simp] theorem State.push_sp (r : Word) : (s.push r).sp = s.sp + 1 := rfl
@[simp] theorem State.push_stack (r : Word) : (s.push r).stack = s.stack.setIfInBounds s.sp.toNat r := rfl
@[simp] theorem State.push_dt (r : Word) : (s.push r).dt = s.dt := rfl
@[simp] theorem State.push_st (r : Word) : (s.push r).st = s.st := rfl
@[simp] theorem State.push_mem (r : Word) : (s.push r).mem = s.mem := rfl
@[simp] theorem State.push_runState (r : Word) : (s.push r).runState = s.runState := rfl
@[simp] theorem State.push_haltCause (r : Word) : (s.push r).haltCause = s.haltCause := rfl
@[simp] theorem State.push_faultPc (r : Word) : (s.push r).faultPc = s.faultPc := rfl
@[simp] theorem State.push_faultInfo (r : Word) : (s.push r).faultInfo = s.faultInfo := rfl
@[simp] theorem State.push_loaded (r : Word) : (s.push r).loaded = s.loaded := rfl
@[simp] theorem State.push_illSeen (r : Word) : (s.push r).illSeen = s.illSeen := rfl
@[simp] theorem State.push_waitX (r : Word) : (s.push r).waitX = s.waitX := rfl
@[simp] theorem State.push_divCnt (r : Word) : (s.push r).divCnt = s.divCnt := rfl
@[simp] theorem State.push_stepCnt (r : Word) : (s.push r).stepCnt = s.stepCnt := rfl
@[simp] theorem State.push_strict (r : Word) : (s.push r).strict = s.strict := rfl
@[simp] theorem State.push_inputs (r : Word) : (s.push r).inputs = s.inputs := rfl
@[simp] theorem State.push_out (r : Word) : (s.push r).out = s.out := rfl
@[simp] theorem State.push_schedule (r : Word) : (s.push r).schedule = s.schedule := rfl
@[simp] theorem State.push_stepsToTick (r : Word) : (s.push r).stepsToTick = s.stepsToTick := rfl
@[simp] theorem State.push_draws (r : Word) : (s.push r).draws = s.draws := rfl

/-! `s.pop.1` -/

@[simp] theorem State.pop_v : (s.pop.1).v = s.v := rfl
@[simp] theorem State.pop_iReg : (s.pop.1).iReg = s.iReg := rfl
@[simp] theorem State.pop_pc : (s.pop.1).pc = s.pc := rfl
@[simp] theorem State.pop_sp : (s.pop.1).sp = s.sp - 1 := rfl
@[simp] theorem State.pop_stack : (s.pop.1).stack = s.stack := rfl
@[simp] theorem State.pop_dt : (s.pop.1).dt = s.dt := rfl
@[simp] theorem State.pop_st : (s.pop.1).st = s.st := rfl
@[simp] theorem State.pop_mem : (s.pop.1).mem = s.mem := rfl
@[simp] theorem State.pop_runState : (s.pop.1).runState = s.runState := rfl
@[simp] theorem State.pop_haltCause : (s.pop.1).haltCause = s.haltCause := rfl
@[simp] theorem State.pop_faultPc : (s.pop.1).faultPc = s.faultPc := rfl
@[simp] theorem State.pop_faultInfo : (s.pop.1).faultInfo = s.faultInfo := rfl
@[simp] theorem State.pop_loaded : (s.pop.1).loaded = s.loaded := rfl
@[simp] theorem State.pop_illSeen : (s.pop.1).illSeen = s.illSeen := rfl
@[simp] theorem State.pop_waitX : (s.pop.1).waitX = s.waitX := rfl
@[simp] theorem State.pop_divCnt : (s.pop.1).divCnt = s.divCnt := rfl
@[simp] theorem State.pop_stepCnt : (s.pop.1).stepCnt = s.stepCnt := rfl
@[simp] theorem State.pop_strict : (s.pop.1).strict = s.strict := rfl
@[simp] theorem State.pop_inputs : (s.pop.1).inputs = s.inputs := rfl
@[simp] theorem State.pop_out : (s.pop.1).out = s.out := rfl
@[simp] theorem State.pop_schedule : (s.pop.1).schedule = s.schedule := rfl
@[simp] theorem State.pop_stepsToTick : (s.pop.1).stepsToTick = s.stepsToTick := rfl
@[simp] theorem State.pop_draws : (s.pop.1).draws = s.draws := rfl

/-! `s.enterWait x` -/

@[simp] theorem State.enterWait_v (x : Nibble) : (s.enterWait x).v = s.v := rfl
@[simp] theorem State.enterWait_iReg (x : Nibble) : (s.enterWait x).iReg = s.iReg := rfl
@[simp] theorem State.enterWait_pc (x : Nibble) : (s.enterWait x).pc = s.pc := rfl
@[simp] theorem State.enterWait_sp (x : Nibble) : (s.enterWait x).sp = s.sp := rfl
@[simp] theorem State.enterWait_stack (x : Nibble) : (s.enterWait x).stack = s.stack := rfl
@[simp] theorem State.enterWait_dt (x : Nibble) : (s.enterWait x).dt = s.dt := rfl
@[simp] theorem State.enterWait_st (x : Nibble) : (s.enterWait x).st = s.st := rfl
@[simp] theorem State.enterWait_mem (x : Nibble) : (s.enterWait x).mem = s.mem := rfl
@[simp] theorem State.enterWait_runState (x : Nibble) : (s.enterWait x).runState = .waitKey := rfl
@[simp] theorem State.enterWait_haltCause (x : Nibble) : (s.enterWait x).haltCause = s.haltCause := rfl
@[simp] theorem State.enterWait_faultPc (x : Nibble) : (s.enterWait x).faultPc = s.faultPc := rfl
@[simp] theorem State.enterWait_faultInfo (x : Nibble) : (s.enterWait x).faultInfo = s.faultInfo := rfl
@[simp] theorem State.enterWait_loaded (x : Nibble) : (s.enterWait x).loaded = s.loaded := rfl
@[simp] theorem State.enterWait_illSeen (x : Nibble) : (s.enterWait x).illSeen = s.illSeen := rfl
@[simp] theorem State.enterWait_waitX (x : Nibble) : (s.enterWait x).waitX = x := rfl
@[simp] theorem State.enterWait_divCnt (x : Nibble) : (s.enterWait x).divCnt = s.divCnt := rfl
@[simp] theorem State.enterWait_stepCnt (x : Nibble) : (s.enterWait x).stepCnt = s.stepCnt := rfl
@[simp] theorem State.enterWait_strict (x : Nibble) : (s.enterWait x).strict = s.strict := rfl
@[simp] theorem State.enterWait_inputs (x : Nibble) : (s.enterWait x).inputs = s.inputs := rfl
@[simp] theorem State.enterWait_out (x : Nibble) : (s.enterWait x).out = s.out := rfl
@[simp] theorem State.enterWait_schedule (x : Nibble) : (s.enterWait x).schedule = s.schedule := rfl
@[simp] theorem State.enterWait_stepsToTick (x : Nibble) : (s.enterWait x).stepsToTick = s.stepsToTick := rfl
@[simp] theorem State.enterWait_draws (x : Nibble) : (s.enterWait x).draws = s.draws := rfl

/-! `s.leaveWait` -/

@[simp] theorem State.leaveWait_v : s.leaveWait.v = s.v := rfl
@[simp] theorem State.leaveWait_iReg : s.leaveWait.iReg = s.iReg := rfl
@[simp] theorem State.leaveWait_pc : s.leaveWait.pc = s.pc := rfl
@[simp] theorem State.leaveWait_sp : s.leaveWait.sp = s.sp := rfl
@[simp] theorem State.leaveWait_stack : s.leaveWait.stack = s.stack := rfl
@[simp] theorem State.leaveWait_dt : s.leaveWait.dt = s.dt := rfl
@[simp] theorem State.leaveWait_st : s.leaveWait.st = s.st := rfl
@[simp] theorem State.leaveWait_mem : s.leaveWait.mem = s.mem := rfl
@[simp] theorem State.leaveWait_runState : s.leaveWait.runState = .run := rfl
@[simp] theorem State.leaveWait_haltCause : s.leaveWait.haltCause = s.haltCause := rfl
@[simp] theorem State.leaveWait_faultPc : s.leaveWait.faultPc = s.faultPc := rfl
@[simp] theorem State.leaveWait_faultInfo : s.leaveWait.faultInfo = s.faultInfo := rfl
@[simp] theorem State.leaveWait_loaded : s.leaveWait.loaded = s.loaded := rfl
@[simp] theorem State.leaveWait_illSeen : s.leaveWait.illSeen = s.illSeen := rfl
@[simp] theorem State.leaveWait_waitX : s.leaveWait.waitX = s.waitX := rfl
@[simp] theorem State.leaveWait_divCnt : s.leaveWait.divCnt = s.divCnt := rfl
@[simp] theorem State.leaveWait_stepCnt : s.leaveWait.stepCnt = s.stepCnt := rfl
@[simp] theorem State.leaveWait_strict : s.leaveWait.strict = s.strict := rfl
@[simp] theorem State.leaveWait_inputs : s.leaveWait.inputs = s.inputs := rfl
@[simp] theorem State.leaveWait_out : s.leaveWait.out = s.out := rfl
@[simp] theorem State.leaveWait_schedule : s.leaveWait.schedule = s.schedule := rfl
@[simp] theorem State.leaveWait_stepsToTick : s.leaveWait.stepsToTick = s.stepsToTick := rfl
@[simp] theorem State.leaveWait_draws : s.leaveWait.draws = s.draws := rfl

/-! `s.markIllSeen` -/

@[simp] theorem State.markIllSeen_v : s.markIllSeen.v = s.v := rfl
@[simp] theorem State.markIllSeen_iReg : s.markIllSeen.iReg = s.iReg := rfl
@[simp] theorem State.markIllSeen_pc : s.markIllSeen.pc = s.pc := rfl
@[simp] theorem State.markIllSeen_sp : s.markIllSeen.sp = s.sp := rfl
@[simp] theorem State.markIllSeen_stack : s.markIllSeen.stack = s.stack := rfl
@[simp] theorem State.markIllSeen_dt : s.markIllSeen.dt = s.dt := rfl
@[simp] theorem State.markIllSeen_st : s.markIllSeen.st = s.st := rfl
@[simp] theorem State.markIllSeen_mem : s.markIllSeen.mem = s.mem := rfl
@[simp] theorem State.markIllSeen_runState : s.markIllSeen.runState = s.runState := rfl
@[simp] theorem State.markIllSeen_haltCause : s.markIllSeen.haltCause = s.haltCause := rfl
@[simp] theorem State.markIllSeen_faultPc : s.markIllSeen.faultPc = s.faultPc := rfl
@[simp] theorem State.markIllSeen_faultInfo : s.markIllSeen.faultInfo = s.faultInfo := rfl
@[simp] theorem State.markIllSeen_loaded : s.markIllSeen.loaded = s.loaded := rfl
@[simp] theorem State.markIllSeen_illSeen : s.markIllSeen.illSeen = true := rfl
@[simp] theorem State.markIllSeen_waitX : s.markIllSeen.waitX = s.waitX := rfl
@[simp] theorem State.markIllSeen_divCnt : s.markIllSeen.divCnt = s.divCnt := rfl
@[simp] theorem State.markIllSeen_stepCnt : s.markIllSeen.stepCnt = s.stepCnt := rfl
@[simp] theorem State.markIllSeen_strict : s.markIllSeen.strict = s.strict := rfl
@[simp] theorem State.markIllSeen_inputs : s.markIllSeen.inputs = s.inputs := rfl
@[simp] theorem State.markIllSeen_out : s.markIllSeen.out = s.out := rfl
@[simp] theorem State.markIllSeen_schedule : s.markIllSeen.schedule = s.schedule := rfl
@[simp] theorem State.markIllSeen_stepsToTick : s.markIllSeen.stepsToTick = s.stepsToTick := rfl
@[simp] theorem State.markIllSeen_draws : s.markIllSeen.draws = s.draws := rfl

/-! `s.emit r` -/

@[simp] theorem State.emit_v (r : Request) : (s.emit r).v = s.v := rfl
@[simp] theorem State.emit_iReg (r : Request) : (s.emit r).iReg = s.iReg := rfl
@[simp] theorem State.emit_pc (r : Request) : (s.emit r).pc = s.pc := rfl
@[simp] theorem State.emit_sp (r : Request) : (s.emit r).sp = s.sp := rfl
@[simp] theorem State.emit_stack (r : Request) : (s.emit r).stack = s.stack := rfl
@[simp] theorem State.emit_dt (r : Request) : (s.emit r).dt = s.dt := rfl
@[simp] theorem State.emit_st (r : Request) : (s.emit r).st = s.st := rfl
@[simp] theorem State.emit_mem (r : Request) : (s.emit r).mem = s.mem := rfl
@[simp] theorem State.emit_runState (r : Request) : (s.emit r).runState = s.runState := rfl
@[simp] theorem State.emit_haltCause (r : Request) : (s.emit r).haltCause = s.haltCause := rfl
@[simp] theorem State.emit_faultPc (r : Request) : (s.emit r).faultPc = s.faultPc := rfl
@[simp] theorem State.emit_faultInfo (r : Request) : (s.emit r).faultInfo = s.faultInfo := rfl
@[simp] theorem State.emit_loaded (r : Request) : (s.emit r).loaded = s.loaded := rfl
@[simp] theorem State.emit_illSeen (r : Request) : (s.emit r).illSeen = s.illSeen := rfl
@[simp] theorem State.emit_waitX (r : Request) : (s.emit r).waitX = s.waitX := rfl
@[simp] theorem State.emit_divCnt (r : Request) : (s.emit r).divCnt = s.divCnt := rfl
@[simp] theorem State.emit_stepCnt (r : Request) : (s.emit r).stepCnt = s.stepCnt := rfl
@[simp] theorem State.emit_strict (r : Request) : (s.emit r).strict = s.strict := rfl
@[simp] theorem State.emit_inputs (r : Request) : (s.emit r).inputs = s.inputs := rfl
@[simp] theorem State.emit_out (r : Request) : (s.emit r).out = { s.out with requests := s.out.requests ++ [r] } := rfl
@[simp] theorem State.emit_schedule (r : Request) : (s.emit r).schedule = s.schedule := rfl
@[simp] theorem State.emit_stepsToTick (r : Request) : (s.emit r).stepsToTick = s.stepsToTick := rfl
@[simp] theorem State.emit_draws (r : Request) : (s.emit r).draws = s.draws := rfl

/-! `s.takeRandom` -/

@[simp] theorem State.takeRandom_v : (s.takeRandom).v = s.v := rfl
@[simp] theorem State.takeRandom_iReg : (s.takeRandom).iReg = s.iReg := rfl
@[simp] theorem State.takeRandom_pc : (s.takeRandom).pc = s.pc := rfl
@[simp] theorem State.takeRandom_sp : (s.takeRandom).sp = s.sp := rfl
@[simp] theorem State.takeRandom_stack : (s.takeRandom).stack = s.stack := rfl
@[simp] theorem State.takeRandom_dt : (s.takeRandom).dt = s.dt := rfl
@[simp] theorem State.takeRandom_st : (s.takeRandom).st = s.st := rfl
@[simp] theorem State.takeRandom_mem : (s.takeRandom).mem = s.mem := rfl
@[simp] theorem State.takeRandom_runState : (s.takeRandom).runState = s.runState := rfl
@[simp] theorem State.takeRandom_haltCause : (s.takeRandom).haltCause = s.haltCause := rfl
@[simp] theorem State.takeRandom_faultPc : (s.takeRandom).faultPc = s.faultPc := rfl
@[simp] theorem State.takeRandom_faultInfo : (s.takeRandom).faultInfo = s.faultInfo := rfl
@[simp] theorem State.takeRandom_loaded : (s.takeRandom).loaded = s.loaded := rfl
@[simp] theorem State.takeRandom_illSeen : (s.takeRandom).illSeen = s.illSeen := rfl
@[simp] theorem State.takeRandom_waitX : (s.takeRandom).waitX = s.waitX := rfl
@[simp] theorem State.takeRandom_divCnt : (s.takeRandom).divCnt = s.divCnt := rfl
@[simp] theorem State.takeRandom_stepCnt : (s.takeRandom).stepCnt = s.stepCnt := rfl
@[simp] theorem State.takeRandom_strict : (s.takeRandom).strict = s.strict := rfl
@[simp] theorem State.takeRandom_inputs : (s.takeRandom).inputs = s.inputs := rfl
@[simp] theorem State.takeRandom_out : (s.takeRandom).out = { s.out with rndReq := true } := rfl
@[simp] theorem State.takeRandom_schedule : (s.takeRandom).schedule = s.schedule := rfl
@[simp] theorem State.takeRandom_stepsToTick : (s.takeRandom).stepsToTick = s.stepsToTick := rfl
@[simp] theorem State.takeRandom_draws : (s.takeRandom).draws = s.draws := rfl

/-! `s.queryKey k` -/

@[simp] theorem State.queryKey_v (k : Byte) : (s.queryKey k).v = s.v := rfl
@[simp] theorem State.queryKey_iReg (k : Byte) : (s.queryKey k).iReg = s.iReg := rfl
@[simp] theorem State.queryKey_pc (k : Byte) : (s.queryKey k).pc = s.pc := rfl
@[simp] theorem State.queryKey_sp (k : Byte) : (s.queryKey k).sp = s.sp := rfl
@[simp] theorem State.queryKey_stack (k : Byte) : (s.queryKey k).stack = s.stack := rfl
@[simp] theorem State.queryKey_dt (k : Byte) : (s.queryKey k).dt = s.dt := rfl
@[simp] theorem State.queryKey_st (k : Byte) : (s.queryKey k).st = s.st := rfl
@[simp] theorem State.queryKey_mem (k : Byte) : (s.queryKey k).mem = s.mem := rfl
@[simp] theorem State.queryKey_runState (k : Byte) : (s.queryKey k).runState = s.runState := rfl
@[simp] theorem State.queryKey_haltCause (k : Byte) : (s.queryKey k).haltCause = s.haltCause := rfl
@[simp] theorem State.queryKey_faultPc (k : Byte) : (s.queryKey k).faultPc = s.faultPc := rfl
@[simp] theorem State.queryKey_faultInfo (k : Byte) : (s.queryKey k).faultInfo = s.faultInfo := rfl
@[simp] theorem State.queryKey_loaded (k : Byte) : (s.queryKey k).loaded = s.loaded := rfl
@[simp] theorem State.queryKey_illSeen (k : Byte) : (s.queryKey k).illSeen = s.illSeen := rfl
@[simp] theorem State.queryKey_waitX (k : Byte) : (s.queryKey k).waitX = s.waitX := rfl
@[simp] theorem State.queryKey_divCnt (k : Byte) : (s.queryKey k).divCnt = s.divCnt := rfl
@[simp] theorem State.queryKey_stepCnt (k : Byte) : (s.queryKey k).stepCnt = s.stepCnt := rfl
@[simp] theorem State.queryKey_strict (k : Byte) : (s.queryKey k).strict = s.strict := rfl
@[simp] theorem State.queryKey_inputs (k : Byte) : (s.queryKey k).inputs = s.inputs := rfl
@[simp] theorem State.queryKey_out (k : Byte) : (s.queryKey k).out = { s.out with keyQuery := some k } := rfl
@[simp] theorem State.queryKey_schedule (k : Byte) : (s.queryKey k).schedule = s.schedule := rfl
@[simp] theorem State.queryKey_stepsToTick (k : Byte) : (s.queryKey k).stepsToTick = s.stepsToTick := rfl
@[simp] theorem State.queryKey_draws (k : Byte) : (s.queryKey k).draws = s.draws := rfl

/-! `s.ackKey` -/

@[simp] theorem State.ackKey_v : (s.ackKey).v = s.v := rfl
@[simp] theorem State.ackKey_iReg : (s.ackKey).iReg = s.iReg := rfl
@[simp] theorem State.ackKey_pc : (s.ackKey).pc = s.pc := rfl
@[simp] theorem State.ackKey_sp : (s.ackKey).sp = s.sp := rfl
@[simp] theorem State.ackKey_stack : (s.ackKey).stack = s.stack := rfl
@[simp] theorem State.ackKey_dt : (s.ackKey).dt = s.dt := rfl
@[simp] theorem State.ackKey_st : (s.ackKey).st = s.st := rfl
@[simp] theorem State.ackKey_mem : (s.ackKey).mem = s.mem := rfl
@[simp] theorem State.ackKey_runState : (s.ackKey).runState = s.runState := rfl
@[simp] theorem State.ackKey_haltCause : (s.ackKey).haltCause = s.haltCause := rfl
@[simp] theorem State.ackKey_faultPc : (s.ackKey).faultPc = s.faultPc := rfl
@[simp] theorem State.ackKey_faultInfo : (s.ackKey).faultInfo = s.faultInfo := rfl
@[simp] theorem State.ackKey_loaded : (s.ackKey).loaded = s.loaded := rfl
@[simp] theorem State.ackKey_illSeen : (s.ackKey).illSeen = s.illSeen := rfl
@[simp] theorem State.ackKey_waitX : (s.ackKey).waitX = s.waitX := rfl
@[simp] theorem State.ackKey_divCnt : (s.ackKey).divCnt = s.divCnt := rfl
@[simp] theorem State.ackKey_stepCnt : (s.ackKey).stepCnt = s.stepCnt := rfl
@[simp] theorem State.ackKey_strict : (s.ackKey).strict = s.strict := rfl
@[simp] theorem State.ackKey_inputs : (s.ackKey).inputs = s.inputs := rfl
@[simp] theorem State.ackKey_out : (s.ackKey).out = { s.out with keyAck := true } := rfl
@[simp] theorem State.ackKey_schedule : (s.ackKey).schedule = s.schedule := rfl
@[simp] theorem State.ackKey_stepsToTick : (s.ackKey).stepsToTick = s.stepsToTick := rfl
@[simp] theorem State.ackKey_draws : (s.ackKey).draws = s.draws := rfl

/-! `s.logBus cs` -/

@[simp] theorem State.logBus_v (cs : List BusCycle) : (s.logBus cs).v = s.v := rfl
@[simp] theorem State.logBus_iReg (cs : List BusCycle) : (s.logBus cs).iReg = s.iReg := rfl
@[simp] theorem State.logBus_pc (cs : List BusCycle) : (s.logBus cs).pc = s.pc := rfl
@[simp] theorem State.logBus_sp (cs : List BusCycle) : (s.logBus cs).sp = s.sp := rfl
@[simp] theorem State.logBus_stack (cs : List BusCycle) : (s.logBus cs).stack = s.stack := rfl
@[simp] theorem State.logBus_dt (cs : List BusCycle) : (s.logBus cs).dt = s.dt := rfl
@[simp] theorem State.logBus_st (cs : List BusCycle) : (s.logBus cs).st = s.st := rfl
@[simp] theorem State.logBus_mem (cs : List BusCycle) : (s.logBus cs).mem = s.mem := rfl
@[simp] theorem State.logBus_runState (cs : List BusCycle) : (s.logBus cs).runState = s.runState := rfl
@[simp] theorem State.logBus_haltCause (cs : List BusCycle) : (s.logBus cs).haltCause = s.haltCause := rfl
@[simp] theorem State.logBus_faultPc (cs : List BusCycle) : (s.logBus cs).faultPc = s.faultPc := rfl
@[simp] theorem State.logBus_faultInfo (cs : List BusCycle) : (s.logBus cs).faultInfo = s.faultInfo := rfl
@[simp] theorem State.logBus_loaded (cs : List BusCycle) : (s.logBus cs).loaded = s.loaded := rfl
@[simp] theorem State.logBus_illSeen (cs : List BusCycle) : (s.logBus cs).illSeen = s.illSeen := rfl
@[simp] theorem State.logBus_waitX (cs : List BusCycle) : (s.logBus cs).waitX = s.waitX := rfl
@[simp] theorem State.logBus_divCnt (cs : List BusCycle) : (s.logBus cs).divCnt = s.divCnt := rfl
@[simp] theorem State.logBus_stepCnt (cs : List BusCycle) : (s.logBus cs).stepCnt = s.stepCnt := rfl
@[simp] theorem State.logBus_strict (cs : List BusCycle) : (s.logBus cs).strict = s.strict := rfl
@[simp] theorem State.logBus_inputs (cs : List BusCycle) : (s.logBus cs).inputs = s.inputs := rfl
@[simp] theorem State.logBus_out (cs : List BusCycle) : (s.logBus cs).out = { s.out with bus := s.out.bus ++ cs } := rfl
@[simp] theorem State.logBus_schedule (cs : List BusCycle) : (s.logBus cs).schedule = s.schedule := rfl
@[simp] theorem State.logBus_stepsToTick (cs : List BusCycle) : (s.logBus cs).stepsToTick = s.stepsToTick := rfl
@[simp] theorem State.logBus_draws (cs : List BusCycle) : (s.logBus cs).draws = s.draws := rfl

/-! `s.raise e info` -/

@[simp] theorem State.raise_v (e : HaltCause) (info : Info) : (s.raise e info).v = s.v := rfl
@[simp] theorem State.raise_iReg (e : HaltCause) (info : Info) : (s.raise e info).iReg = s.iReg := rfl
@[simp] theorem State.raise_pc (e : HaltCause) (info : Info) : (s.raise e info).pc = s.pc := rfl
@[simp] theorem State.raise_sp (e : HaltCause) (info : Info) : (s.raise e info).sp = s.sp := rfl
@[simp] theorem State.raise_stack (e : HaltCause) (info : Info) : (s.raise e info).stack = s.stack := rfl
@[simp] theorem State.raise_dt (e : HaltCause) (info : Info) : (s.raise e info).dt = s.dt := rfl
@[simp] theorem State.raise_st (e : HaltCause) (info : Info) : (s.raise e info).st = s.st := rfl
@[simp] theorem State.raise_mem (e : HaltCause) (info : Info) : (s.raise e info).mem = s.mem := rfl
@[simp] theorem State.raise_runState (e : HaltCause) (info : Info) : (s.raise e info).runState = .halted := rfl
@[simp] theorem State.raise_haltCause (e : HaltCause) (info : Info) : (s.raise e info).haltCause = e := rfl
@[simp] theorem State.raise_faultPc (e : HaltCause) (info : Info) : (s.raise e info).faultPc = s.pc := rfl
@[simp] theorem State.raise_faultInfo (e : HaltCause) (info : Info) : (s.raise e info).faultInfo = info := rfl
@[simp] theorem State.raise_loaded (e : HaltCause) (info : Info) : (s.raise e info).loaded = s.loaded := rfl
@[simp] theorem State.raise_illSeen (e : HaltCause) (info : Info) : (s.raise e info).illSeen = s.illSeen := rfl
@[simp] theorem State.raise_waitX (e : HaltCause) (info : Info) : (s.raise e info).waitX = s.waitX := rfl
@[simp] theorem State.raise_divCnt (e : HaltCause) (info : Info) : (s.raise e info).divCnt = s.divCnt := rfl
@[simp] theorem State.raise_stepCnt (e : HaltCause) (info : Info) : (s.raise e info).stepCnt = s.stepCnt := rfl
@[simp] theorem State.raise_strict (e : HaltCause) (info : Info) : (s.raise e info).strict = s.strict := rfl
@[simp] theorem State.raise_inputs (e : HaltCause) (info : Info) : (s.raise e info).inputs = s.inputs := rfl
@[simp] theorem State.raise_out (e : HaltCause) (info : Info) : (s.raise e info).out = s.out := rfl
@[simp] theorem State.raise_schedule (e : HaltCause) (info : Info) : (s.raise e info).schedule = s.schedule := rfl
@[simp] theorem State.raise_stepsToTick (e : HaltCause) (info : Info) : (s.raise e info).stepsToTick = s.stepsToTick := rfl
@[simp] theorem State.raise_draws (e : HaltCause) (info : Info) : (s.raise e info).draws = s.draws := rfl

/-! `s.latch inp` -/

@[simp] theorem State.latch_v (inp : Inputs) : (s.latch inp).v = s.v := rfl
@[simp] theorem State.latch_iReg (inp : Inputs) : (s.latch inp).iReg = s.iReg := rfl
@[simp] theorem State.latch_pc (inp : Inputs) : (s.latch inp).pc = s.pc := rfl
@[simp] theorem State.latch_sp (inp : Inputs) : (s.latch inp).sp = s.sp := rfl
@[simp] theorem State.latch_stack (inp : Inputs) : (s.latch inp).stack = s.stack := rfl
@[simp] theorem State.latch_dt (inp : Inputs) : (s.latch inp).dt = s.dt := rfl
@[simp] theorem State.latch_st (inp : Inputs) : (s.latch inp).st = s.st := rfl
@[simp] theorem State.latch_mem (inp : Inputs) : (s.latch inp).mem = s.mem := rfl
@[simp] theorem State.latch_runState (inp : Inputs) : (s.latch inp).runState = s.runState := rfl
@[simp] theorem State.latch_haltCause (inp : Inputs) : (s.latch inp).haltCause = s.haltCause := rfl
@[simp] theorem State.latch_faultPc (inp : Inputs) : (s.latch inp).faultPc = s.faultPc := rfl
@[simp] theorem State.latch_faultInfo (inp : Inputs) : (s.latch inp).faultInfo = s.faultInfo := rfl
@[simp] theorem State.latch_loaded (inp : Inputs) : (s.latch inp).loaded = s.loaded := rfl
@[simp] theorem State.latch_illSeen (inp : Inputs) : (s.latch inp).illSeen = s.illSeen := rfl
@[simp] theorem State.latch_waitX (inp : Inputs) : (s.latch inp).waitX = s.waitX := rfl
@[simp] theorem State.latch_divCnt (inp : Inputs) : (s.latch inp).divCnt = s.divCnt := rfl
@[simp] theorem State.latch_stepCnt (inp : Inputs) : (s.latch inp).stepCnt = s.stepCnt := rfl
@[simp] theorem State.latch_strict (inp : Inputs) : (s.latch inp).strict = s.strict := rfl
@[simp] theorem State.latch_inputs (inp : Inputs) : (s.latch inp).inputs = inp := rfl
@[simp] theorem State.latch_out (inp : Inputs) : (s.latch inp).out = .quiet := rfl
@[simp] theorem State.latch_schedule (inp : Inputs) : (s.latch inp).schedule = s.schedule := rfl
@[simp] theorem State.latch_stepsToTick (inp : Inputs) : (s.latch inp).stepsToTick = s.stepsToTick := rfl
@[simp] theorem State.latch_draws (inp : Inputs) : (s.latch inp).draws = s.draws := rfl

/-! `s.quietOut` -/

@[simp] theorem State.quietOut_v : (s.quietOut).v = s.v := rfl
@[simp] theorem State.quietOut_iReg : (s.quietOut).iReg = s.iReg := rfl
@[simp] theorem State.quietOut_pc : (s.quietOut).pc = s.pc := rfl
@[simp] theorem State.quietOut_sp : (s.quietOut).sp = s.sp := rfl
@[simp] theorem State.quietOut_stack : (s.quietOut).stack = s.stack := rfl
@[simp] theorem State.quietOut_dt : (s.quietOut).dt = s.dt := rfl
@[simp] theorem State.quietOut_st : (s.quietOut).st = s.st := rfl
@[simp] theorem State.quietOut_mem : (s.quietOut).mem = s.mem := rfl
@[simp] theorem State.quietOut_runState : (s.quietOut).runState = s.runState := rfl
@[simp] theorem State.quietOut_haltCause : (s.quietOut).haltCause = s.haltCause := rfl
@[simp] theorem State.quietOut_faultPc : (s.quietOut).faultPc = s.faultPc := rfl
@[simp] theorem State.quietOut_faultInfo : (s.quietOut).faultInfo = s.faultInfo := rfl
@[simp] theorem State.quietOut_loaded : (s.quietOut).loaded = s.loaded := rfl
@[simp] theorem State.quietOut_illSeen : (s.quietOut).illSeen = s.illSeen := rfl
@[simp] theorem State.quietOut_waitX : (s.quietOut).waitX = s.waitX := rfl
@[simp] theorem State.quietOut_divCnt : (s.quietOut).divCnt = s.divCnt := rfl
@[simp] theorem State.quietOut_stepCnt : (s.quietOut).stepCnt = s.stepCnt := rfl
@[simp] theorem State.quietOut_strict : (s.quietOut).strict = s.strict := rfl
@[simp] theorem State.quietOut_inputs : (s.quietOut).inputs = s.inputs := rfl
@[simp] theorem State.quietOut_out : (s.quietOut).out = .quiet := rfl
@[simp] theorem State.quietOut_schedule : (s.quietOut).schedule = s.schedule := rfl
@[simp] theorem State.quietOut_stepsToTick : (s.quietOut).stepsToTick = s.stepsToTick := rfl
@[simp] theorem State.quietOut_draws : (s.quietOut).draws = s.draws := rfl

/-! `s.logFetch` -/

@[simp] theorem State.logFetch_v : (s.logFetch).v = s.v := rfl
@[simp] theorem State.logFetch_iReg : (s.logFetch).iReg = s.iReg := rfl
@[simp] theorem State.logFetch_pc : (s.logFetch).pc = s.pc := rfl
@[simp] theorem State.logFetch_sp : (s.logFetch).sp = s.sp := rfl
@[simp] theorem State.logFetch_stack : (s.logFetch).stack = s.stack := rfl
@[simp] theorem State.logFetch_dt : (s.logFetch).dt = s.dt := rfl
@[simp] theorem State.logFetch_st : (s.logFetch).st = s.st := rfl
@[simp] theorem State.logFetch_mem : (s.logFetch).mem = s.mem := rfl
@[simp] theorem State.logFetch_runState : (s.logFetch).runState = s.runState := rfl
@[simp] theorem State.logFetch_haltCause : (s.logFetch).haltCause = s.haltCause := rfl
@[simp] theorem State.logFetch_faultPc : (s.logFetch).faultPc = s.faultPc := rfl
@[simp] theorem State.logFetch_faultInfo : (s.logFetch).faultInfo = s.faultInfo := rfl
@[simp] theorem State.logFetch_loaded : (s.logFetch).loaded = s.loaded := rfl
@[simp] theorem State.logFetch_illSeen : (s.logFetch).illSeen = s.illSeen := rfl
@[simp] theorem State.logFetch_waitX : (s.logFetch).waitX = s.waitX := rfl
@[simp] theorem State.logFetch_divCnt : (s.logFetch).divCnt = s.divCnt := rfl
@[simp] theorem State.logFetch_stepCnt : (s.logFetch).stepCnt = s.stepCnt := rfl
@[simp] theorem State.logFetch_strict : (s.logFetch).strict = s.strict := rfl
@[simp] theorem State.logFetch_inputs : (s.logFetch).inputs = s.inputs := rfl
@[simp] theorem State.logFetch_out : (s.logFetch).out = { s.out with bus := s.out.bus ++ busCycles false s.pc.toNat (s.mem.readBytes s.pc.toNat 2) } := rfl
@[simp] theorem State.logFetch_schedule : (s.logFetch).schedule = s.schedule := rfl
@[simp] theorem State.logFetch_stepsToTick : (s.logFetch).stepsToTick = s.stepsToTick := rfl
@[simp] theorem State.logFetch_draws : (s.logFetch).draws = s.draws := rfl

/-! `(s.loadBytes a n).1` -/

@[simp] theorem State.loadBytes_v (a n : Nat) : (s.loadBytes a n).1.v = s.v := rfl
@[simp] theorem State.loadBytes_iReg (a n : Nat) : (s.loadBytes a n).1.iReg = s.iReg := rfl
@[simp] theorem State.loadBytes_pc (a n : Nat) : (s.loadBytes a n).1.pc = s.pc := rfl
@[simp] theorem State.loadBytes_sp (a n : Nat) : (s.loadBytes a n).1.sp = s.sp := rfl
@[simp] theorem State.loadBytes_stack (a n : Nat) : (s.loadBytes a n).1.stack = s.stack := rfl
@[simp] theorem State.loadBytes_dt (a n : Nat) : (s.loadBytes a n).1.dt = s.dt := rfl
@[simp] theorem State.loadBytes_st (a n : Nat) : (s.loadBytes a n).1.st = s.st := rfl
@[simp] theorem State.loadBytes_mem (a n : Nat) : (s.loadBytes a n).1.mem = s.mem := rfl
@[simp] theorem State.loadBytes_runState (a n : Nat) : (s.loadBytes a n).1.runState = s.runState := rfl
@[simp] theorem State.loadBytes_haltCause (a n : Nat) : (s.loadBytes a n).1.haltCause = s.haltCause := rfl
@[simp] theorem State.loadBytes_faultPc (a n : Nat) : (s.loadBytes a n).1.faultPc = s.faultPc := rfl
@[simp] theorem State.loadBytes_faultInfo (a n : Nat) : (s.loadBytes a n).1.faultInfo = s.faultInfo := rfl
@[simp] theorem State.loadBytes_loaded (a n : Nat) : (s.loadBytes a n).1.loaded = s.loaded := rfl
@[simp] theorem State.loadBytes_illSeen (a n : Nat) : (s.loadBytes a n).1.illSeen = s.illSeen := rfl
@[simp] theorem State.loadBytes_waitX (a n : Nat) : (s.loadBytes a n).1.waitX = s.waitX := rfl
@[simp] theorem State.loadBytes_divCnt (a n : Nat) : (s.loadBytes a n).1.divCnt = s.divCnt := rfl
@[simp] theorem State.loadBytes_stepCnt (a n : Nat) : (s.loadBytes a n).1.stepCnt = s.stepCnt := rfl
@[simp] theorem State.loadBytes_strict (a n : Nat) : (s.loadBytes a n).1.strict = s.strict := rfl
@[simp] theorem State.loadBytes_inputs (a n : Nat) : (s.loadBytes a n).1.inputs = s.inputs := rfl
@[simp] theorem State.loadBytes_out (a n : Nat) : (s.loadBytes a n).1.out = { s.out with bus := s.out.bus ++ busCycles false a (s.mem.readBytes a n) } := rfl
@[simp] theorem State.loadBytes_schedule (a n : Nat) : (s.loadBytes a n).1.schedule = s.schedule := rfl
@[simp] theorem State.loadBytes_stepsToTick (a n : Nat) : (s.loadBytes a n).1.stepsToTick = s.stepsToTick := rfl
@[simp] theorem State.loadBytes_draws (a n : Nat) : (s.loadBytes a n).1.draws = s.draws := rfl

/-! `s.storeBytes a bytes` -/

@[simp] theorem State.storeBytes_v (a : Nat) (bytes : List Byte) : (s.storeBytes a bytes).v = s.v := rfl
@[simp] theorem State.storeBytes_iReg (a : Nat) (bytes : List Byte) : (s.storeBytes a bytes).iReg = s.iReg := rfl
@[simp] theorem State.storeBytes_pc (a : Nat) (bytes : List Byte) : (s.storeBytes a bytes).pc = s.pc := rfl
@[simp] theorem State.storeBytes_sp (a : Nat) (bytes : List Byte) : (s.storeBytes a bytes).sp = s.sp := rfl
@[simp] theorem State.storeBytes_stack (a : Nat) (bytes : List Byte) : (s.storeBytes a bytes).stack = s.stack := rfl
@[simp] theorem State.storeBytes_dt (a : Nat) (bytes : List Byte) : (s.storeBytes a bytes).dt = s.dt := rfl
@[simp] theorem State.storeBytes_st (a : Nat) (bytes : List Byte) : (s.storeBytes a bytes).st = s.st := rfl
@[simp] theorem State.storeBytes_mem (a : Nat) (bytes : List Byte) : (s.storeBytes a bytes).mem = s.mem.writeBytes a bytes := rfl
@[simp] theorem State.storeBytes_runState (a : Nat) (bytes : List Byte) : (s.storeBytes a bytes).runState = s.runState := rfl
@[simp] theorem State.storeBytes_haltCause (a : Nat) (bytes : List Byte) : (s.storeBytes a bytes).haltCause = s.haltCause := rfl
@[simp] theorem State.storeBytes_faultPc (a : Nat) (bytes : List Byte) : (s.storeBytes a bytes).faultPc = s.faultPc := rfl
@[simp] theorem State.storeBytes_faultInfo (a : Nat) (bytes : List Byte) : (s.storeBytes a bytes).faultInfo = s.faultInfo := rfl
@[simp] theorem State.storeBytes_loaded (a : Nat) (bytes : List Byte) : (s.storeBytes a bytes).loaded = s.loaded := rfl
@[simp] theorem State.storeBytes_illSeen (a : Nat) (bytes : List Byte) : (s.storeBytes a bytes).illSeen = s.illSeen := rfl
@[simp] theorem State.storeBytes_waitX (a : Nat) (bytes : List Byte) : (s.storeBytes a bytes).waitX = s.waitX := rfl
@[simp] theorem State.storeBytes_divCnt (a : Nat) (bytes : List Byte) : (s.storeBytes a bytes).divCnt = s.divCnt := rfl
@[simp] theorem State.storeBytes_stepCnt (a : Nat) (bytes : List Byte) : (s.storeBytes a bytes).stepCnt = s.stepCnt := rfl
@[simp] theorem State.storeBytes_strict (a : Nat) (bytes : List Byte) : (s.storeBytes a bytes).strict = s.strict := rfl
@[simp] theorem State.storeBytes_inputs (a : Nat) (bytes : List Byte) : (s.storeBytes a bytes).inputs = s.inputs := rfl
@[simp] theorem State.storeBytes_out (a : Nat) (bytes : List Byte) : (s.storeBytes a bytes).out = { s.out with bus := s.out.bus ++ busCycles true a bytes } := rfl
@[simp] theorem State.storeBytes_schedule (a : Nat) (bytes : List Byte) : (s.storeBytes a bytes).schedule = s.schedule := rfl
@[simp] theorem State.storeBytes_stepsToTick (a : Nat) (bytes : List Byte) : (s.storeBytes a bytes).stepsToTick = s.stepsToTick := rfl
@[simp] theorem State.storeBytes_draws (a : Nat) (bytes : List Byte) : (s.storeBytes a bytes).draws = s.draws := rfl

/-! `s.setDividers d c` -/

@[simp] theorem State.setDividers_v (d c : Nat) : (s.setDividers d c).v = s.v := rfl
@[simp] theorem State.setDividers_iReg (d c : Nat) : (s.setDividers d c).iReg = s.iReg := rfl
@[simp] theorem State.setDividers_pc (d c : Nat) : (s.setDividers d c).pc = s.pc := rfl
@[simp] theorem State.setDividers_sp (d c : Nat) : (s.setDividers d c).sp = s.sp := rfl
@[simp] theorem State.setDividers_stack (d c : Nat) : (s.setDividers d c).stack = s.stack := rfl
@[simp] theorem State.setDividers_dt (d c : Nat) : (s.setDividers d c).dt = s.dt := rfl
@[simp] theorem State.setDividers_st (d c : Nat) : (s.setDividers d c).st = s.st := rfl
@[simp] theorem State.setDividers_mem (d c : Nat) : (s.setDividers d c).mem = s.mem := rfl
@[simp] theorem State.setDividers_runState (d c : Nat) : (s.setDividers d c).runState = s.runState := rfl
@[simp] theorem State.setDividers_haltCause (d c : Nat) : (s.setDividers d c).haltCause = s.haltCause := rfl
@[simp] theorem State.setDividers_faultPc (d c : Nat) : (s.setDividers d c).faultPc = s.faultPc := rfl
@[simp] theorem State.setDividers_faultInfo (d c : Nat) : (s.setDividers d c).faultInfo = s.faultInfo := rfl
@[simp] theorem State.setDividers_loaded (d c : Nat) : (s.setDividers d c).loaded = s.loaded := rfl
@[simp] theorem State.setDividers_illSeen (d c : Nat) : (s.setDividers d c).illSeen = s.illSeen := rfl
@[simp] theorem State.setDividers_waitX (d c : Nat) : (s.setDividers d c).waitX = s.waitX := rfl
@[simp] theorem State.setDividers_divCnt (d c : Nat) : (s.setDividers d c).divCnt = d := rfl
@[simp] theorem State.setDividers_stepCnt (d c : Nat) : (s.setDividers d c).stepCnt = c := rfl
@[simp] theorem State.setDividers_strict (d c : Nat) : (s.setDividers d c).strict = s.strict := rfl
@[simp] theorem State.setDividers_inputs (d c : Nat) : (s.setDividers d c).inputs = s.inputs := rfl
@[simp] theorem State.setDividers_out (d c : Nat) : (s.setDividers d c).out = s.out := rfl
@[simp] theorem State.setDividers_schedule (d c : Nat) : (s.setDividers d c).schedule = s.schedule := rfl
@[simp] theorem State.setDividers_stepsToTick (d c : Nat) : (s.setDividers d c).stepsToTick = s.stepsToTick := rfl
@[simp] theorem State.setDividers_draws (d c : Nat) : (s.setDividers d c).draws = s.draws := rfl

/-! `s.placeProgram bytes` -/

@[simp] theorem State.placeProgram_v (bytes : List Byte) : (s.placeProgram bytes).v = s.v := rfl
@[simp] theorem State.placeProgram_iReg (bytes : List Byte) : (s.placeProgram bytes).iReg = s.iReg := rfl
@[simp] theorem State.placeProgram_pc (bytes : List Byte) : (s.placeProgram bytes).pc = s.pc := rfl
@[simp] theorem State.placeProgram_sp (bytes : List Byte) : (s.placeProgram bytes).sp = s.sp := rfl
@[simp] theorem State.placeProgram_stack (bytes : List Byte) : (s.placeProgram bytes).stack = s.stack := rfl
@[simp] theorem State.placeProgram_dt (bytes : List Byte) : (s.placeProgram bytes).dt = s.dt := rfl
@[simp] theorem State.placeProgram_st (bytes : List Byte) : (s.placeProgram bytes).st = s.st := rfl
@[simp] theorem State.placeProgram_mem (bytes : List Byte) : (s.placeProgram bytes).mem = s.mem.writeBytes Config.progBase bytes := rfl
@[simp] theorem State.placeProgram_runState (bytes : List Byte) : (s.placeProgram bytes).runState = s.runState := rfl
@[simp] theorem State.placeProgram_haltCause (bytes : List Byte) : (s.placeProgram bytes).haltCause = s.haltCause := rfl
@[simp] theorem State.placeProgram_faultPc (bytes : List Byte) : (s.placeProgram bytes).faultPc = s.faultPc := rfl
@[simp] theorem State.placeProgram_faultInfo (bytes : List Byte) : (s.placeProgram bytes).faultInfo = s.faultInfo := rfl
@[simp] theorem State.placeProgram_loaded (bytes : List Byte) : (s.placeProgram bytes).loaded = true := rfl
@[simp] theorem State.placeProgram_illSeen (bytes : List Byte) : (s.placeProgram bytes).illSeen = s.illSeen := rfl
@[simp] theorem State.placeProgram_waitX (bytes : List Byte) : (s.placeProgram bytes).waitX = s.waitX := rfl
@[simp] theorem State.placeProgram_divCnt (bytes : List Byte) : (s.placeProgram bytes).divCnt = s.divCnt := rfl
@[simp] theorem State.placeProgram_stepCnt (bytes : List Byte) : (s.placeProgram bytes).stepCnt = s.stepCnt := rfl
@[simp] theorem State.placeProgram_strict (bytes : List Byte) : (s.placeProgram bytes).strict = s.strict := rfl
@[simp] theorem State.placeProgram_inputs (bytes : List Byte) : (s.placeProgram bytes).inputs = s.inputs := rfl
@[simp] theorem State.placeProgram_out (bytes : List Byte) : (s.placeProgram bytes).out = s.out := rfl
@[simp] theorem State.placeProgram_schedule (bytes : List Byte) : (s.placeProgram bytes).schedule = s.schedule := rfl
@[simp] theorem State.placeProgram_stepsToTick (bytes : List Byte) : (s.placeProgram bytes).stepsToTick = s.stepsToTick := rfl
@[simp] theorem State.placeProgram_draws (bytes : List Byte) : (s.placeProgram bytes).draws = s.draws := rfl

/-! Reset, FONT given; `State.reset` is the default. -/

@[simp] theorem State.reset_eq : State.reset = State.resetWith Config.defaultFont := rfl
section
variable (font : Vector Byte 80)
@[simp] theorem State.resetWith_v : (State.resetWith font).v = Vector.replicate 16 0 := rfl
@[simp] theorem State.resetWith_iReg : (State.resetWith font).iReg = 0 := rfl
@[simp] theorem State.resetWith_pc : (State.resetWith font).pc = 0x0200 := rfl
@[simp] theorem State.resetWith_sp : (State.resetWith font).sp = 0 := rfl
@[simp] theorem State.resetWith_stack : (State.resetWith font).stack = Vector.replicate 16 0 := rfl
@[simp] theorem State.resetWith_dt : (State.resetWith font).dt = 0 := rfl
@[simp] theorem State.resetWith_st : (State.resetWith font).st = 0 := rfl
@[simp] theorem State.resetWith_mem : (State.resetWith font).mem = { font := font, cells := [] } := rfl
@[simp] theorem State.resetWith_runState : (State.resetWith font).runState = .idle := rfl
@[simp] theorem State.resetWith_haltCause : (State.resetWith font).haltCause = .none := rfl
@[simp] theorem State.resetWith_faultPc : (State.resetWith font).faultPc = 0 := rfl
@[simp] theorem State.resetWith_faultInfo : (State.resetWith font).faultInfo = 0 := rfl
@[simp] theorem State.resetWith_loaded : (State.resetWith font).loaded = false := rfl
@[simp] theorem State.resetWith_illSeen : (State.resetWith font).illSeen = false := rfl
@[simp] theorem State.resetWith_waitX : (State.resetWith font).waitX = 0 := rfl
@[simp] theorem State.resetWith_divCnt : (State.resetWith font).divCnt = 0 := rfl
@[simp] theorem State.resetWith_stepCnt : (State.resetWith font).stepCnt = 0 := rfl
@[simp] theorem State.resetWith_strict : (State.resetWith font).strict = true := rfl
@[simp] theorem State.resetWith_inputs : (State.resetWith font).inputs = .quiet := rfl
@[simp] theorem State.resetWith_out : (State.resetWith font).out = .quiet := rfl
@[simp] theorem State.resetWith_schedule : (State.resetWith font).schedule = [] := rfl
@[simp] theorem State.resetWith_stepsToTick : (State.resetWith font).stepsToTick = 0 := rfl
@[simp] theorem State.resetWith_draws : (State.resetWith font).draws = 0 := rfl
end

/-! `s.resetBy` -/

@[simp] theorem State.resetBy_v : (s.resetBy).v = Vector.replicate 16 0 := rfl
@[simp] theorem State.resetBy_iReg : (s.resetBy).iReg = 0 := rfl
@[simp] theorem State.resetBy_pc : (s.resetBy).pc = 0x0200 := rfl
@[simp] theorem State.resetBy_sp : (s.resetBy).sp = 0 := rfl
@[simp] theorem State.resetBy_stack : (s.resetBy).stack = Vector.replicate 16 0 := rfl
@[simp] theorem State.resetBy_dt : (s.resetBy).dt = 0 := rfl
@[simp] theorem State.resetBy_st : (s.resetBy).st = 0 := rfl
@[simp] theorem State.resetBy_mem : (s.resetBy).mem = { font := s.mem.font, cells := [] } := rfl
@[simp] theorem State.resetBy_runState : (s.resetBy).runState = .idle := rfl
@[simp] theorem State.resetBy_haltCause : (s.resetBy).haltCause = .none := rfl
@[simp] theorem State.resetBy_faultPc : (s.resetBy).faultPc = 0 := rfl
@[simp] theorem State.resetBy_faultInfo : (s.resetBy).faultInfo = 0 := rfl
@[simp] theorem State.resetBy_loaded : (s.resetBy).loaded = false := rfl
@[simp] theorem State.resetBy_illSeen : (s.resetBy).illSeen = false := rfl
@[simp] theorem State.resetBy_waitX : (s.resetBy).waitX = 0 := rfl
@[simp] theorem State.resetBy_divCnt : (s.resetBy).divCnt = 0 := rfl
@[simp] theorem State.resetBy_stepCnt : (s.resetBy).stepCnt = 0 := rfl
@[simp] theorem State.resetBy_strict : (s.resetBy).strict = s.strict := rfl
@[simp] theorem State.resetBy_inputs : (s.resetBy).inputs = s.inputs := rfl
@[simp] theorem State.resetBy_out : (s.resetBy).out = .quiet := rfl
@[simp] theorem State.resetBy_schedule : (s.resetBy).schedule = s.schedule := rfl
@[simp] theorem State.resetBy_stepsToTick : (s.resetBy).stepsToTick = s.stepsToTick := rfl
@[simp] theorem State.resetBy_draws : (s.resetBy).draws = s.draws := rfl

@[simp] theorem State.loadBytes_bytes (a n : Nat) : (s.loadBytes a n).2 = s.mem.readBytes a n := rfl

/-! `s.raiseOutOfBounds a` is a halt entry; `s.writeResultFlag` two register writes. -/

theorem State.raiseOutOfBounds_eq (a : Nat) :
    s.raiseOutOfBounds a = s.raise .outOfBounds (BitVec.ofNat 17 a) := rfl

theorem State.writeResultFlag_eq (x : Nibble) (r : Byte) (f : Bool) :
    s.writeResultFlag x r f = (s.writeV x r).writeV VF (flagByte f) := rfl

/-! `s.tick`: DT and ST count down, nothing else changes. -/

@[simp] theorem State.tick_v : s.tick.v = s.v := by unfold State.tick; split <;> rfl
@[simp] theorem State.tick_iReg : s.tick.iReg = s.iReg := by unfold State.tick; split <;> rfl
@[simp] theorem State.tick_pc : s.tick.pc = s.pc := by unfold State.tick; split <;> rfl
@[simp] theorem State.tick_sp : s.tick.sp = s.sp := by unfold State.tick; split <;> rfl
@[simp] theorem State.tick_stack : s.tick.stack = s.stack := by unfold State.tick; split <;> rfl
@[simp] theorem State.tick_mem : s.tick.mem = s.mem := by unfold State.tick; split <;> rfl
@[simp] theorem State.tick_runState : s.tick.runState = s.runState := by unfold State.tick; split <;> rfl
@[simp] theorem State.tick_haltCause : s.tick.haltCause = s.haltCause := by unfold State.tick; split <;> rfl
@[simp] theorem State.tick_faultPc : s.tick.faultPc = s.faultPc := by unfold State.tick; split <;> rfl
@[simp] theorem State.tick_faultInfo : s.tick.faultInfo = s.faultInfo := by unfold State.tick; split <;> rfl
@[simp] theorem State.tick_loaded : s.tick.loaded = s.loaded := by unfold State.tick; split <;> rfl
@[simp] theorem State.tick_illSeen : s.tick.illSeen = s.illSeen := by unfold State.tick; split <;> rfl
@[simp] theorem State.tick_waitX : s.tick.waitX = s.waitX := by unfold State.tick; split <;> rfl
@[simp] theorem State.tick_divCnt : s.tick.divCnt = s.divCnt := by unfold State.tick; split <;> rfl
@[simp] theorem State.tick_stepCnt : s.tick.stepCnt = s.stepCnt := by unfold State.tick; split <;> rfl
@[simp] theorem State.tick_strict : s.tick.strict = s.strict := by unfold State.tick; split <;> rfl
@[simp] theorem State.tick_inputs : s.tick.inputs = s.inputs := by unfold State.tick; split <;> rfl
@[simp] theorem State.tick_out : s.tick.out = s.out := by unfold State.tick; split <;> rfl
@[simp] theorem State.tick_schedule : s.tick.schedule = s.schedule := by unfold State.tick; split <;> rfl
@[simp] theorem State.tick_stepsToTick : s.tick.stepsToTick = s.stepsToTick := by unfold State.tick; split <;> rfl
@[simp] theorem State.tick_draws : s.tick.draws = s.draws := by unfold State.tick; split <;> rfl
@[simp] theorem State.tick_dt : s.tick.dt = if s.runState.active then countDown s.dt else s.dt := by
  unfold State.tick; split <;> rfl
@[simp] theorem State.tick_st : s.tick.st = if s.runState.active then countDown s.st else s.st := by
  unfold State.tick; split <;> rfl

end Sys2Proof.Machine
end

