-- ==== Sys2Proof/Laws/Ops.lean ====
section
/-! SUPPORT. One lemma per shared operation that says once everything it can do. -/

namespace Sys2Proof.Machine

/-! ## Registers -/

/-- A register read depends on the register file alone. -/
theorem State.readV_eq (s : State) (x : Nibble) : s.readV x = s.v[x.toNat]'x.isLt := rfl

theorem State.readV_congr {s t : State} (h : t.v = s.v) (x : Nibble) : t.readV x = s.readV x := by
  simp [State.readV, h]

/-- A register read after a register write. -/
@[simp] theorem State.readV_writeV (s : State) (x y : Nibble) (b : Byte) :
    (s.writeV x b).readV y = if x = y then b else s.readV y := by
  simp [State.readV, Vector.getElem_set, BitVec.toNat_inj]

/-! A register read does not see the operations that write no register. -/

@[simp] theorem State.readV_setI (s : State) (w : Word) (x : Nibble) : (s.setI w).readV x = s.readV x := rfl
@[simp] theorem State.readV_setPc (s : State) (w : Word) (x : Nibble) : (s.setPc w).readV x = s.readV x := rfl
@[simp] theorem State.readV_advance (s : State) (x : Nibble) : s.advance.readV x = s.readV x := rfl
@[simp] theorem State.readV_skipIf (s : State) (c : Bool) (x : Nibble) : (s.skipIf c).readV x = s.readV x := rfl
@[simp] theorem State.readV_setDt (s : State) (b : Byte) (x : Nibble) : (s.setDt b).readV x = s.readV x := rfl
@[simp] theorem State.readV_setSt (s : State) (b : Byte) (x : Nibble) : (s.setSt b).readV x = s.readV x := rfl
@[simp] theorem State.readV_push (s : State) (w : Word) (x : Nibble) : (s.push w).readV x = s.readV x := rfl
@[simp] theorem State.readV_pop (s : State) (x : Nibble) : s.pop.1.readV x = s.readV x := rfl
@[simp] theorem State.readV_enterWait (s : State) (w x : Nibble) : (s.enterWait w).readV x = s.readV x := rfl
@[simp] theorem State.readV_leaveWait (s : State) (x : Nibble) : s.leaveWait.readV x = s.readV x := rfl
@[simp] theorem State.readV_markIllSeen (s : State) (x : Nibble) : s.markIllSeen.readV x = s.readV x := rfl
@[simp] theorem State.readV_emit (s : State) (r : Request) (x : Nibble) : (s.emit r).readV x = s.readV x := rfl
@[simp] theorem State.readV_takeRandom (s : State) (x : Nibble) : s.takeRandom.readV x = s.readV x := rfl
@[simp] theorem State.readV_queryKey (s : State) (k : Byte) (x : Nibble) :
    (s.queryKey k).readV x = s.readV x := rfl
@[simp] theorem State.readV_ackKey (s : State) (x : Nibble) : s.ackKey.readV x = s.readV x := rfl
@[simp] theorem State.readV_logBus (s : State) (cs : List BusCycle) (x : Nibble) :
    (s.logBus cs).readV x = s.readV x := rfl
@[simp] theorem State.readV_raise (s : State) (e : HaltCause) (info : Info) (x : Nibble) :
    (s.raise e info).readV x = s.readV x := rfl
@[simp] theorem State.readV_latch (s : State) (inp : Inputs) (x : Nibble) :
    (s.latch inp).readV x = s.readV x := rfl

@[simp] theorem State.readV_loadBytes (s : State) (a n : Nat) (x : Nibble) :
    (s.loadBytes a n).1.readV x = s.readV x := rfl
@[simp] theorem State.readV_storeBytes (s : State) (a : Nat) (bytes : List Byte) (x : Nibble) :
    (s.storeBytes a bytes).readV x = s.readV x := rfl
@[simp] theorem State.readV_logFetch (s : State) (x : Nibble) : s.logFetch.readV x = s.readV x := rfl
@[simp] theorem State.readV_quietOut (s : State) (x : Nibble) : s.quietOut.readV x = s.readV x := rfl
@[simp] theorem State.readV_setDividers (s : State) (d c : Nat) (x : Nibble) :
    (s.setDividers d c).readV x = s.readV x := rfl
@[simp] theorem State.readV_placeProgram (s : State) (bytes : List Byte) (x : Nibble) :
    (s.placeProgram bytes).readV x = s.readV x := rfl
@[simp] theorem State.readV_tick (s : State) (x : Nibble) : s.tick.readV x = s.readV x :=
  State.readV_congr (State.tick_v s) x

/-- Writing registers from a list: the k-th byte goes to the register first + k, the others keep theirs. -/
theorem State.readV_writeRegs (bytes : List Byte) (s : State) (first : Nat) (x : Nibble)
    (h : first + bytes.length ≤ 16) :
    (s.writeRegs first bytes).readV x =
      if hx : first ≤ x.toNat ∧ x.toNat < first + bytes.length then bytes[x.toNat - first]
      else s.readV x := by
  induction bytes generalizing s first with
  | nil => rw [dif_neg (by simp)]; rfl
  | cons b bs ih =>
    simp only [List.length_cons] at h
    have hmod : (BitVec.ofNat 4 first = x) ↔ first = x.toNat := by
      rw [← BitVec.toNat_inj, BitVec.toNat_ofNat, Nat.mod_eq_of_lt (by omega)]
    rw [State.writeRegs, ih _ _ (by omega), State.readV_writeV]
    rcases Nat.lt_trichotomy x.toNat first with hlt | heq | hgt
    · rw [dif_neg (by omega), dif_neg (by omega), if_neg (by rw [hmod]; omega)]
    · rw [dif_neg (by omega), dif_pos (by simp only [List.length_cons]; omega), if_pos (by rw [hmod]; omega)]
      simp [heq]
    · by_cases hin : x.toNat < first + (bs.length + 1)
      · rw [dif_pos (by omega), dif_pos (by simp only [List.length_cons]; omega)]
        have : x.toNat - first = (x.toNat - (first + 1)) + 1 := by omega
        simp [this]
      · rw [dif_neg (by omega), dif_neg (by simp only [List.length_cons]; omega), if_neg (by rw [hmod]; omega)]

/-- Writing registers changes the register file alone: every other field is rewritten with this. -/
theorem State.writeRegs_eq (bytes : List Byte) (s : State) (first : Nat) :
    s.writeRegs first bytes = { s with v := (s.writeRegs first bytes).v } := by
  induction bytes generalizing s first with
  | nil => rfl
  | cons b bs ih => rw [State.writeRegs, ih]; rfl

@[simp] theorem State.length_regs (s : State) (x : Nibble) : (s.regs (rangeCount x)).length = rangeCount x := by
  have := x.isLt
  simp [State.regs, rangeCount]; omega

@[simp] theorem State.getElem_regs (s : State) (x : Nibble) (k : Nat) (h : k < (s.regs (rangeCount x)).length) :
    (s.regs (rangeCount x))[k] = s.readV (BitVec.ofNat 4 k) := by
  have hk : k < rangeCount x := by simpa using h
  have := x.isLt
  have : k % 16 = k := Nat.mod_eq_of_lt (by unfold rangeCount at hk; omega)
  simp [State.regs, State.readV, this]

/-! ## Range checks -/

/-- A range passes exactly when each of its addresses does. -/
theorem firstRefused_eq_none {refused : Nat → Bool} {a n : Nat} :
    firstRefused refused a n = none ↔ ∀ k < n, refused (a + k) = false := by
  induction n generalizing a with
  | zero => simp [firstRefused]
  | succ n ih =>
    unfold firstRefused
    split
    · rename_i h
      simp only [reduceCtorEq, false_iff, not_forall]
      exact ⟨0, by omega, by simp [h]⟩
    · rename_i h
      rw [ih]
      refine ⟨fun hk k hlt => ?_, fun hk k hlt => ?_⟩
      · cases k with
        | zero => simpa using h
        | succ k => have := hk k (by omega); rwa [Nat.add_assoc, Nat.add_comm 1] at this
      · have := hk (k + 1) (by omega); rwa [Nat.add_assoc, Nat.add_comm 1]

/-- The refused address is in the range, is refused, and every lower one of the range passes. -/
theorem firstRefused_eq_some {refused : Nat → Bool} {a n b : Nat} (h : firstRefused refused a n = some b) :
    a ≤ b ∧ b < a + n ∧ refused b = true ∧ ∀ c, a ≤ c → c < b → refused c = false := by
  induction n generalizing a with
  | zero => simp [firstRefused] at h
  | succ n ih =>
    unfold firstRefused at h
    split at h
    · rename_i hr
      obtain rfl := Option.some.inj h
      exact ⟨le_refl _, by omega, hr, fun c h1 h2 => by omega⟩
    · rename_i hr
      obtain ⟨h1, h2, h3, h4⟩ := ih h
      refine ⟨by omega, by omega, h3, fun c hc1 hc2 => ?_⟩
      rcases Nat.eq_or_lt_of_le hc1 with rfl | hlt
      · simpa using hr
      · exact h4 c hlt hc2

/-- A range of reads passes exactly when it is empty or ends inside memory. -/
theorem firstRefused_read_eq_none {a n : Nat} :
    firstRefused readRefused a n = none ↔ n = 0 ∨ a + n ≤ 0x1000 := by
  rw [firstRefused_eq_none]
  simp only [readRefused, Config.maxAddr, decide_eq_false_iff_not]
  refine ⟨fun h => ?_, fun h k hk => by omega⟩
  rcases Nat.eq_zero_or_pos n with h0 | h0
  · exact .inl h0
  · have := h (n - 1) (by omega); omega

/-- A range of program writes passes exactly when it is empty or lies in 0x200..0xFFF. -/
theorem firstRefused_write_eq_none {a n : Nat} :
    firstRefused writeRefused a n = none ↔ n = 0 ∨ (0x200 ≤ a ∧ a + n ≤ 0x1000) := by
  rw [firstRefused_eq_none]
  simp only [writeRefused, Config.maxAddr, Config.progBase, Bool.or_eq_false_iff, decide_eq_false_iff_not]
  refine ⟨fun h => ?_, fun h k hk => by omega⟩
  rcases Nat.eq_zero_or_pos n with h0 | h0
  · exact .inl h0
  · have h1 := h 0 (by omega)
    have h2 := h (n - 1) (by omega)
    omega

/-! ## The memory port -/

/-- Every cycle of a transfer has its direction, and its address lies in the range. -/
theorem mem_busCycles {we : Bool} {bytes : List Byte} {a : Nat} {c : BusCycle} (h : c ∈ busCycles we a bytes) :
    c.we = we ∧ ∃ k < bytes.length, c.addr = BitVec.ofNat 12 (a + k) := by
  induction bytes generalizing a with
  | nil => simp [busCycles] at h
  | cons b bs ih =>
    rcases List.mem_cons.1 h with rfl | h
    · exact ⟨rfl, 0, by simp, rfl⟩
    · obtain ⟨h1, k, hk, h2⟩ := ih h
      refine ⟨h1, k + 1, by simpa using hk, ?_⟩
      rw [h2]; congr 1; omega

/-! ## The checked store -/

/-- All a checked store can do: halt with the first address refused, or write the bytes and advance. -/
theorem State.storeChecked_cases (s : State) (bytes : List Byte) :
    (∃ a, firstRefused writeRefused s.dataAddr bytes.length = some a ∧
      s.storeChecked bytes = s.raiseOutOfBounds a) ∨
    (firstRefused writeRefused s.dataAddr bytes.length = none ∧
      s.storeChecked bytes = (s.storeBytes s.dataAddr bytes).advance) := by
  unfold State.storeChecked
  split
  · exact .inl ⟨_, ‹_›, rfl⟩
  · exact .inr ⟨‹_›, rfl⟩

/-- All a key-wait step can do: halt on a stop, go on waiting, or take one press event. -/
theorem waitStep_cases (s : State) :
    (s.inputs.stop = true ∧ waitStep s = s.raise .stop 0) ∨
    (s.inputs.stop = false ∧ s.inputs.keyEvent = none ∧ waitStep s = s) ∨
    (s.inputs.stop = false ∧ ∃ k, s.inputs.keyEvent = some k ∧
      waitStep s = (s.ackKey.writeV s.waitX k).leaveWait.advance) := by
  unfold waitStep
  split
  · exact .inl ⟨‹_›, rfl⟩
  · split
    · exact .inr (.inl ⟨Bool.eq_false_of_not_eq_true ‹¬_›, ‹_›, rfl⟩)
    · exact .inr (.inr ⟨Bool.eq_false_of_not_eq_true ‹¬_›, _, ‹_›, rfl⟩)

/-! ## Dividers -/

/-- A timer's count after a tick, its floor at 0. -/
theorem toNat_countDown (t : Byte) : (countDown t).toNat = t.toNat - 1 := by
  unfold countDown
  split
  · simp_all
  · rename_i h
    have h0 : t.toNat ≠ 0 := fun e => h (BitVec.eq_of_toNat_eq e)
    have := t.isLt
    simp [BitVec.toNat_sub]; omega

/-- A divider inside its range stays there. -/
theorem divide_lt {div cnt : Nat} (h : cnt < div) : (divide div cnt).1 < div := by
  unfold divide; split <;> simp <;> omega

end Sys2Proof.Machine
end

