-- ==== Sys2Proof/Laws/Exec.lean ====
section
/-! SUPPORT. The branches of the meanings that have one, and all a step can do up to dispatch: cited instead of
unfolding a meaning or the fetch. -/

namespace Sys2Proof.Machine

/-! ## Call and return -/

theorem State.stackFull_eq_false {s : State} (h : s.sp.toNat < 16) : s.stackFull = false := by
  simp [State.stackFull]; omega

theorem State.stackFull_eq_true {s : State} (h : 16 ≤ s.sp.toNat) : s.stackFull = true := by
  simp [State.stackFull]; omega

theorem execRet_empty {s : State} (h : s.sp = 0) : execRet s = .next (s.raise .stackUnderflow 0) := by
  unfold execRet; rw [if_pos h]

theorem execRet_pop {s : State} (h : s.sp ≠ 0) : execRet s = .next (s.pop.1.setPc s.pop.2) := by
  unfold execRet; rw [if_neg h]

theorem execCall_full {s : State} (nnn : Addr) (h : 16 ≤ s.sp.toNat) :
    execCall nnn s = .next (s.raise .stackOverflow (s.sp.setWidth 17)) := by
  unfold execCall; rw [if_pos (State.stackFull_eq_true h)]

theorem execCall_push {s : State} (nnn : Addr) (h : s.sp.toNat < 16) :
    execCall nnn s = .next ((s.push (s.pc + 2)).setPc (zextAddr nnn)) := by
  unfold execCall; rw [if_neg (by simp [State.stackFull_eq_false h])]

/-- sp − 1 as a count. -/
theorem State.toNat_sp_sub_one {s : State} (h : s.sp ≠ 0) : (s.sp - 1).toNat = s.sp.toNat - 1 := by
  have h0 : s.sp.toNat ≠ 0 := fun e => h (BitVec.eq_of_toNat_eq e)
  have := s.sp.isLt
  rw [BitVec.toNat_sub]; simp; omega

theorem State.stackAt_push_top {s : State} (r : Word) (h : s.sp.toNat < 16) :
    (s.push r).stackAt s.sp.toNat = r := by
  simp [State.stackAt, h]

theorem State.stackAt_push_other {s : State} (r : Word) {k : Nat} (h : k ≠ s.sp.toNat) :
    (s.push r).stackAt k = s.stackAt k := by
  simp only [State.stackAt, State.push_stack]
  rw [Vector.getElem?_setIfInBounds_ne (Ne.symm h)]

@[simp] theorem State.stackAt_setPc (s : State) (w : Word) (k : Nat) : (s.setPc w).stackAt k = s.stackAt k := rfl

@[simp] theorem State.pop_target (s : State) : s.pop.2 = s.stackAt (s.sp - 1).toNat := rfl

/-! ## Range checks of the transfers -/

/-- The first read refused of a range that leaves memory: its first address, or 0x1000. -/
theorem firstRefused_read {a n : Nat} (hn : 0 < n) (h : 0x1000 < a + n) :
    firstRefused readRefused a n = some (max a 0x1000) := by
  cases hf : firstRefused readRefused a n with
  | none => have := firstRefused_read_eq_none.1 hf; omega
  | some b =>
    obtain ⟨h1, h2, h3, h4⟩ := firstRefused_eq_some hf
    simp only [readRefused, Config.maxAddr, decide_eq_true_eq, decide_eq_false_iff_not] at h3 h4
    have := h4 (b - 1)
    congr 1; omega

/-- The first write refused of a range that leaves 0x200..0xFFF: its first address when that is below 0x200,
else its first address past memory. -/
theorem firstRefused_write {a n : Nat} (hn : 0 < n) (h : a < 0x200 ∨ 0x1000 < a + n) :
    firstRefused writeRefused a n = some (if a < 0x200 then a else max a 0x1000) := by
  cases hf : firstRefused writeRefused a n with
  | none => have := firstRefused_write_eq_none.1 hf; omega
  | some b =>
    obtain ⟨h1, h2, h3, h4⟩ := firstRefused_eq_some hf
    simp only [writeRefused, Config.maxAddr, Config.progBase, Bool.or_eq_true, Bool.or_eq_false_iff,
      decide_eq_true_eq, decide_eq_false_iff_not] at h3 h4
    have ha := h4 a (le_refl _)
    have hb := h4 (b - 1)
    congr 1; split <;> omega

/-! ## Meanings with a range check -/

theorem execDrw_refused {s : State} {x y n : Nibble} {a : Nat}
    (h : firstRefused readRefused s.dataAddr n.toNat = some a) :
    execDrw x y n s = .next (s.raiseOutOfBounds a) := by
  unfold execDrw; rw [h]

theorem execDrw_draw {s : State} {x y n : Nibble} (h : firstRefused readRefused s.dataAddr n.toNat = none) :
    execDrw x y n s =
      .next ((((s.loadBytes s.dataAddr n.toNat).1.emit
        (.draw (s.readV x) (s.readV y) (s.loadBytes s.dataAddr n.toNat).2)).writeV VF
          (flagByte (s.collisionFlag n))).advance) := by
  unfold execDrw; rw [h]

theorem execLdVxMem_refused {s : State} {x : Nibble} {a : Nat}
    (h : firstRefused readRefused s.dataAddr (rangeCount x) = some a) :
    execLdVxMem x s = .next (s.raiseOutOfBounds a) := by
  unfold execLdVxMem; rw [h]

theorem execLdVxMem_load {s : State} {x : Nibble}
    (h : firstRefused readRefused s.dataAddr (rangeCount x) = none) :
    execLdVxMem x s =
      .next (((s.loadBytes s.dataAddr (rangeCount x)).1.writeRegs 0
        (s.loadBytes s.dataAddr (rangeCount x)).2).advance) := by
  unfold execLdVxMem; rw [h]

theorem State.storeChecked_refused {s : State} {bytes : List Byte} {a : Nat}
    (h : firstRefused writeRefused s.dataAddr bytes.length = some a) :
    s.storeChecked bytes = s.raiseOutOfBounds a := by
  unfold State.storeChecked; rw [h]

theorem State.storeChecked_store {s : State} {bytes : List Byte}
    (h : firstRefused writeRefused s.dataAddr bytes.length = none) :
    s.storeChecked bytes = (s.storeBytes s.dataAddr bytes).advance := by
  unfold State.storeChecked; rw [h]

@[simp] theorem length_bcdDigits (b : Byte) : (bcdDigits b).length = 3 := rfl

theorem execLdB_refused {s : State} {x : Nibble} {a : Nat} (h : firstRefused writeRefused s.dataAddr 3 = some a) :
    execLdB x s = .next (s.raiseOutOfBounds a) :=
  congrArg _ (State.storeChecked_refused (bytes := bcdDigits (s.readV x)) h)

theorem execLdB_store {s : State} {x : Nibble} (h : firstRefused writeRefused s.dataAddr 3 = none) :
    execLdB x s = .next (s.storeBytes s.dataAddr (bcdDigits (s.readV x))).advance :=
  congrArg _ (State.storeChecked_store (bytes := bcdDigits (s.readV x)) h)

theorem execLdMemVx_refused {s : State} {x : Nibble} {a : Nat}
    (h : firstRefused writeRefused s.dataAddr (rangeCount x) = some a) :
    execLdMemVx x s = .next (s.raiseOutOfBounds a) :=
  congrArg _ (State.storeChecked_refused (by rwa [State.length_regs]))

theorem execLdMemVx_store {s : State} {x : Nibble}
    (h : firstRefused writeRefused s.dataAddr (rangeCount x) = none) :
    execLdMemVx x s = .next (s.storeBytes s.dataAddr (s.regs (rangeCount x))).advance :=
  congrArg _ (State.storeChecked_store (by rwa [State.length_regs]))

/-! ## All that an instruction with a check can do -/

theorem execRet_cases (s : State) :
    (s.sp = 0 ∧ execRet s = .next (s.raise .stackUnderflow 0)) ∨
    (s.sp ≠ 0 ∧ execRet s = .next (s.pop.1.setPc s.pop.2)) := by
  by_cases h : s.sp = 0
  · exact .inl ⟨h, execRet_empty h⟩
  · exact .inr ⟨h, execRet_pop h⟩

theorem execCall_cases (nnn : Addr) (s : State) :
    (16 ≤ s.sp.toNat ∧ execCall nnn s = .next (s.raise .stackOverflow (s.sp.setWidth 17))) ∨
    (s.sp.toNat < 16 ∧ execCall nnn s = .next ((s.push (s.pc + 2)).setPc (zextAddr nnn))) := by
  by_cases h : 16 ≤ s.sp.toNat
  · exact .inl ⟨h, execCall_full _ h⟩
  · exact .inr ⟨by omega, execCall_push _ (by omega)⟩

theorem execDrw_cases (x y n : Nibble) (s : State) :
    (n ≠ 0 ∧ 0x1000 < s.dataAddr + n.toNat ∧
      execDrw x y n s = .next (s.raiseOutOfBounds (max s.dataAddr 0x1000))) ∨
    ((n = 0 ∨ s.dataAddr + n.toNat ≤ 0x1000) ∧
      execDrw x y n s =
        .next ((((s.loadBytes s.dataAddr n.toNat).1.emit
          (.draw (s.readV x) (s.readV y) (s.loadBytes s.dataAddr n.toNat).2)).writeV VF
            (flagByte (s.collisionFlag n))).advance)) := by
  have h0 : n.toNat = 0 ↔ n = 0 := by rw [← BitVec.toNat_inj]; rfl
  by_cases h : n.toNat = 0 ∨ s.dataAddr + n.toNat ≤ 0x1000
  · exact .inr ⟨h.imp_left h0.1, execDrw_draw (firstRefused_read_eq_none.2 h)⟩
  · exact .inl ⟨fun e => h (.inl (h0.2 e)), by omega, execDrw_refused (firstRefused_read (by omega) (by omega))⟩

theorem execLdB_cases (x : Nibble) (s : State) :
    ((s.dataAddr < 0x200 ∨ 0x1000 < s.dataAddr + 3) ∧
      execLdB x s =
        .next (s.raiseOutOfBounds (if s.dataAddr < 0x200 then s.dataAddr else max s.dataAddr 0x1000))) ∨
    (0x200 ≤ s.dataAddr ∧ s.dataAddr + 3 ≤ 0x1000 ∧
      execLdB x s = .next (s.storeBytes s.dataAddr (bcdDigits (s.readV x))).advance) := by
  by_cases h : s.dataAddr < 0x200 ∨ 0x1000 < s.dataAddr + 3
  · exact .inl ⟨h, execLdB_refused (firstRefused_write (by omega) h)⟩
  · exact .inr ⟨by omega, by omega, execLdB_store (firstRefused_write_eq_none.2 (by omega))⟩

theorem execLdMemVx_cases (x : Nibble) (s : State) :
    ((s.dataAddr < 0x200 ∨ 0x1000 < s.dataAddr + rangeCount x) ∧
      execLdMemVx x s =
        .next (s.raiseOutOfBounds (if s.dataAddr < 0x200 then s.dataAddr else max s.dataAddr 0x1000))) ∨
    (0x200 ≤ s.dataAddr ∧ s.dataAddr + rangeCount x ≤ 0x1000 ∧
      execLdMemVx x s = .next (s.storeBytes s.dataAddr (s.regs (rangeCount x))).advance) := by
  by_cases h : s.dataAddr < 0x200 ∨ 0x1000 < s.dataAddr + rangeCount x
  · exact .inl ⟨h, execLdMemVx_refused (firstRefused_write (by simp [rangeCount]) h)⟩
  · exact .inr ⟨by omega, by omega, execLdMemVx_store (firstRefused_write_eq_none.2 (by omega))⟩

theorem execLdVxMem_cases (x : Nibble) (s : State) :
    (0x1000 < s.dataAddr + rangeCount x ∧
      execLdVxMem x s = .next (s.raiseOutOfBounds (max s.dataAddr 0x1000))) ∨
    (s.dataAddr + rangeCount x ≤ 0x1000 ∧
      execLdVxMem x s =
        .next (((s.loadBytes s.dataAddr (rangeCount x)).1.writeRegs 0
          (s.loadBytes s.dataAddr (rangeCount x)).2).advance)) := by
  by_cases h : 0x1000 < s.dataAddr + rangeCount x
  · exact .inl ⟨h, execLdVxMem_refused (firstRefused_read (by simp [rangeCount]) h)⟩
  · exact .inr ⟨by omega, execLdVxMem_load (firstRefused_read_eq_none.2 (by omega))⟩

/-- All an instruction can do: to show P of an instruction and the state it leads to, show it of each branch of
the six with a check and of the others as they stand. -/
theorem exec_next_elim {s : State} {P : Instr → State → Prop} {i : Instr} {t : State} (h : exec i s = .next t)
    (retHalt : s.sp = 0 → P .ret (s.raise .stackUnderflow 0))
    (ret : s.sp ≠ 0 → P .ret (s.pop.1.setPc s.pop.2))
    (callHalt : ∀ nnn, 16 ≤ s.sp.toNat → P (.call nnn) (s.raise .stackOverflow (s.sp.setWidth 17)))
    (call : ∀ nnn, s.sp.toNat < 16 → P (.call nnn) ((s.push (s.pc + 2)).setPc (zextAddr nnn)))
    (drwHalt : ∀ x y n, n ≠ 0 → 0x1000 < s.dataAddr + n.toNat →
      P (.drw x y n) (s.raiseOutOfBounds (max s.dataAddr 0x1000)))
    (drw : ∀ x y n, (n = 0 ∨ s.dataAddr + n.toNat ≤ 0x1000) →
      P (.drw x y n) ((((s.loadBytes s.dataAddr n.toNat).1.emit
        (.draw (s.readV x) (s.readV y) (s.loadBytes s.dataAddr n.toNat).2)).writeV VF
          (flagByte (s.collisionFlag n))).advance))
    (ldBHalt : ∀ x, (s.dataAddr < 0x200 ∨ 0x1000 < s.dataAddr + 3) →
      P (.ldB x) (s.raiseOutOfBounds (if s.dataAddr < 0x200 then s.dataAddr else max s.dataAddr 0x1000)))
    (ldB : ∀ x, 0x200 ≤ s.dataAddr → s.dataAddr + 3 ≤ 0x1000 →
      P (.ldB x) (s.storeBytes s.dataAddr (bcdDigits (s.readV x))).advance)
    (storeHalt : ∀ x, (s.dataAddr < 0x200 ∨ 0x1000 < s.dataAddr + rangeCount x) →
      P (.ldMemVx x) (s.raiseOutOfBounds (if s.dataAddr < 0x200 then s.dataAddr else max s.dataAddr 0x1000)))
    (store : ∀ x, 0x200 ≤ s.dataAddr → s.dataAddr + rangeCount x ≤ 0x1000 →
      P (.ldMemVx x) (s.storeBytes s.dataAddr (s.regs (rangeCount x))).advance)
    (loadHalt : ∀ x, 0x1000 < s.dataAddr + rangeCount x →
      P (.ldVxMem x) (s.raiseOutOfBounds (max s.dataAddr 0x1000)))
    (load : ∀ x, s.dataAddr + rangeCount x ≤ 0x1000 →
      P (.ldVxMem x) (((s.loadBytes s.dataAddr (rangeCount x)).1.writeRegs 0
        (s.loadBytes s.dataAddr (rangeCount x)).2).advance))
    (others : ∀ j u, exec j s = .next u → j ≠ .ret → (∀ n, j ≠ .call n) → (∀ x y n, j ≠ .drw x y n) →
      (∀ x, j ≠ .ldB x) → (∀ x, j ≠ .ldMemVx x) → (∀ x, j ≠ .ldVxMem x) → P j u) :
    P i t := by
  cases i
  case ret =>
    rcases execRet_cases s with ⟨a, e⟩ | ⟨a, e⟩ <;> obtain rfl := Host.Outcome.next.inj (e.symm.trans h)
    · exact retHalt a
    · exact ret a
  case call nnn =>
    rcases execCall_cases nnn s with ⟨a, e⟩ | ⟨a, e⟩ <;> obtain rfl := Host.Outcome.next.inj (e.symm.trans h)
    · exact callHalt nnn a
    · exact call nnn a
  case drw x y n =>
    rcases execDrw_cases x y n s with ⟨a, b, e⟩ | ⟨a, e⟩ <;>
      obtain rfl := Host.Outcome.next.inj (e.symm.trans h)
    · exact drwHalt x y n a b
    · exact drw x y n a
  case ldB x =>
    rcases execLdB_cases x s with ⟨a, e⟩ | ⟨a, b, e⟩ <;> obtain rfl := Host.Outcome.next.inj (e.symm.trans h)
    · exact ldBHalt x a
    · exact ldB x a b
  case ldMemVx x =>
    rcases execLdMemVx_cases x s with ⟨a, e⟩ | ⟨a, b, e⟩ <;>
      obtain rfl := Host.Outcome.next.inj (e.symm.trans h)
    · exact storeHalt x a
    · exact store x a b
  case ldVxMem x =>
    rcases execLdVxMem_cases x s with ⟨a, e⟩ | ⟨a, e⟩ <;> obtain rfl := Host.Outcome.next.inj (e.symm.trans h)
    · exact loadHalt x a
    · exact load x a
  all_goals exact others _ _ h (by simp) (by simp) (by simp) (by simp) (by simp) (by simp)

/-! ## A step up to dispatch -/

/-- A fetch succeeds exactly when pc ≤ 0xFFE (30_encoding.md R71). -/
theorem fetchWord_ok {s : State} (h : s.pc.toNat ≤ 0xFFE) :
    fetchWord s = .ok (s.mem.read s.pc.toNat ++ s.mem.read (s.pc.toNat + 1)) := by
  have h1 : readRefused s.pc.toNat = false := by simp [readRefused]; omega
  have h2 : readRefused (s.pc.toNat + 1) = false := by simp [readRefused]; omega
  simp [fetchWord, h1, h2]

theorem fetchWord_error {s : State} (h : 0xFFE < s.pc.toNat) :
    fetchWord s = .error (if 0xFFF < s.pc.toNat then s.pc.toNat else 0x1000) := by
  by_cases hp : 0xFFF < s.pc.toNat
  · have h1 : readRefused s.pc.toNat = true := by simp [readRefused]; omega
    simp [fetchWord, h1, hp]
  · have h1 : readRefused s.pc.toNat = false := by simp [readRefused]; omega
    have h2 : readRefused (s.pc.toNat + 1) = true := by simp [readRefused]; omega
    simp [fetchWord, h1, h2, hp]; omega

/-- All the checks before dispatch can come to (60_exceptions.md R203): one of the five halts or an invalid word
passed over, or the instruction at pc, with a program loaded and pc at most 0xFFE. -/
theorem fetch_cases (s : State) :
    (∃ e info, fetch s = .ended (s.raise e info) ∧ e ≠ .none) ∨
    (∃ w, s.strict = true ∧ fetch s = .ended (s.logFetch.raise .invalidOpcode w)) ∨
    (s.pc.toNat ≤ 0xFFE ∧ s.strict = false ∧
      fetch s = .ended s.logFetch.markIllSeen.advance) ∨
    (s.loaded = true ∧ s.pc.toNat ≤ 0xFFE ∧ ∃ i,
      decodeWord (s.mem.read s.pc.toNat ++ s.mem.read (s.pc.toNat + 1)) = .ok i ∧
      fetch s = .instr i s.logFetch) := by
  unfold fetch
  split
  · exact .inl ⟨_, _, rfl, by simp⟩
  · split
    · exact .inl ⟨_, _, rfl, by simp⟩
    · rename_i hl
      by_cases hp : s.pc.toNat ≤ 0xFFE
      · rw [fetchWord_ok hp]
        cases hd : decodeWord (s.mem.read s.pc.toNat ++ s.mem.read (s.pc.toNat + 1)) with
        | ok i => exact .inr (.inr (.inr ⟨by simpa using hl, hp, i, rfl, by simp [hd]⟩))
        | error e =>
          cases hs : s.strict with
          | true =>
            exact .inr (.inl ⟨_, rfl, by simp [hd, State.invalidOpcode, hs]; rfl⟩)
          | false =>
            exact .inr (.inr (.inl ⟨hp, rfl, by simp [hd, State.invalidOpcode, hs]⟩))
      · rw [fetchWord_error (by omega)]
        exact .inl ⟨_, _, rfl, by simp⟩

/-- A step in RUN that ends before dispatch. -/
theorem coreStep_ended {s t : State} (hr : s.runState = .run) (hf : fetch s = .ended t) : coreStep s = .next t := by
  unfold coreStep; rw [hr]; simp only [hf]

/-- A step in RUN that reaches dispatch. -/
theorem coreStep_instr {s t : State} {i : Instr} (hr : s.runState = .run) (hf : fetch s = .instr i t) :
    coreStep s = exec i t := by
  unfold coreStep; rw [hr]; simp only [hf]

theorem coreStep_waitKey {s : State} (hr : s.runState = .waitKey) : coreStep s = .next (waitStep s) := by
  unfold coreStep; rw [hr]

theorem coreStep_idle {s : State} (hr : s.runState = .idle) : coreStep s = .fault .noStepIdle := by
  unfold coreStep; rw [hr]

theorem coreStep_halted {s : State} (hr : s.runState = .halted) : coreStep s = .fault .noStepHalted := by
  unfold coreStep; rw [hr]

/-- Taking the next move changes the schedule and the two counters of unscheduled moves only. -/
theorem State.nextMove_snd (s : State) :
    s.nextMove.2 = { s with
      schedule := s.nextMove.2.schedule, stepsToTick := s.nextMove.2.stepsToTick, draws := s.nextMove.2.draws } := by
  unfold State.nextMove
  split
  · rfl
  · split <;> rfl

/-- The three next moves there are. -/
theorem State.nextMove_scheduled {s : State} {m : Move} {rest : List Move} (h : s.schedule = m :: rest) :
    s.nextMove = (m, { s with schedule := rest }) := by
  unfold State.nextMove; rw [h]

theorem State.nextMove_tick {s : State} (h : s.schedule = []) (hk : s.stepsToTick = 0) :
    s.nextMove = (.tick, { s with stepsToTick := Config.freeGap s.draws, draws := s.draws + 1 }) := by
  unfold State.nextMove; rw [h, hk]

theorem State.nextMove_step {s : State} {k : Nat} (h : s.schedule = []) (hk : s.stepsToTick = k + 1) :
    s.nextMove = (.step (freeInputs s.draws), { s with stepsToTick := k, draws := s.draws + 1 }) := by
  unfold State.nextMove; rw [h, hk]

/-- All a clock edge does to the state: the two counts, and DT and ST where a tick falls due. -/
theorem State.clockEdge_fst (td id : Nat) (s : State) :
    (s.clockEdge td id).1 = { s with
      dt := (s.clockEdge td id).1.dt, st := (s.clockEdge td id).1.st
      divCnt := (divide td s.divCnt).1, stepCnt := (divide id s.stepCnt).1 } := by
  unfold State.clockEdge State.tick
  dsimp only
  split <;> (try split) <;> rfl

/-- Whether a step falls due on a clock edge. -/
theorem State.clockEdge_snd (td id : Nat) (s : State) :
    (s.clockEdge td id).2 = (decide (s.stepCnt = id - 1) && s.runState.active) := by
  unfold State.clockEdge divide; dsimp only; split <;> simp [*]

/-- A clock edge on which a step falls due. -/
theorem clkMove_step {td id : Nat} {inp : Inputs} {s : State} (h : (s.clockEdge td id).2 = true) :
    clkMove td id inp s = coreStep ((s.clockEdge td id).1.latch inp) := by
  unfold clkMove; simp only [h, if_true]

/-- A clock edge on which none does. -/
theorem clkMove_no_step {td id : Nat} {inp : Inputs} {s : State} (h : (s.clockEdge td id).2 = false) :
    clkMove td id inp s = .next ((s.clockEdge td id).1.quietOut.sampleStop inp.stop) := by
  unfold clkMove; simp only [h]; rfl

/-- A tick drives no output, and no output reaches a tick. -/
theorem State.tick_quietOut (s : State) : s.quietOut.tick = s.tick.quietOut := by
  unfold State.tick; cases h : s.runState.active <;> simp [h, State.quietOut]

/-- On an edge at which no step begins the stop pin halts an IDLE core and does nothing else. -/
theorem State.sampleStop_cases (s : State) (stop : Bool) :
    (s.runState = .idle ∧ stop = true ∧ s.sampleStop stop = s.raise .stop 0) ∨
    ((s.runState = .idle → stop = false) ∧ s.sampleStop stop = s) := by
  unfold State.sampleStop
  cases s.runState <;> cases stop <;> simp

/-- A fetch that no check stops. -/
theorem fetch_instr {s : State} {i : Instr} (hs : s.inputs.stop = false) (hl : s.loaded = true)
    (hp : s.pc.toNat ≤ 0xFFE)
    (hd : decodeWord (s.mem.read s.pc.toNat ++ s.mem.read (s.pc.toNat + 1)) = .ok i) :
    fetch s = .instr i s.logFetch := by
  unfold fetch
  rw [hs, hl, fetchWord_ok hp]; simp only [hd]; rfl

/-- A fetch of an invalid word. -/
theorem fetch_invalid {s : State} {e : DecodeError} (hs : s.inputs.stop = false) (hl : s.loaded = true)
    (hp : s.pc.toNat ≤ 0xFFE)
    (hd : decodeWord (s.mem.read s.pc.toNat ++ s.mem.read (s.pc.toNat + 1)) = .error e) :
    fetch s = .ended (s.logFetch.invalidOpcode (s.mem.read s.pc.toNat ++ s.mem.read (s.pc.toNat + 1))) := by
  unfold fetch
  rw [hs, hl, fetchWord_ok hp]; simp only [hd]; rfl

end Sys2Proof.Machine
end

