-- ==== Sys2Proof/Laws/PerInstr.lean ====
section
/-! SUPPORT. The family of statements made per instruction: the word an instruction encodes to is its own row of
the opcode map (30_encoding.md R64). -/

namespace Sys2Proof.Laws

/-! Masking a word of a format keeps the fields the mask names (30_encoding.md R62). -/

theorem mask_nnn (c : Nibble) (a : Addr) : (c ++ a) &&& (0xF000 : Word) = c ++ 0#12 :=
  BitVec.and_append.trans (congrArg₂ (· ++ ·) BitVec.and_allOnes BitVec.and_zero)

theorem mask_high2 (c x : Nibble) : (c ++ x) &&& (0xF0 : Byte) = c ++ 0#4 :=
  BitVec.and_append.trans (congrArg₂ (· ++ ·) BitVec.and_allOnes BitVec.and_zero)

theorem mask_high3 (c x y : Nibble) : (c ++ x ++ y) &&& (0xF00 : Addr) = c ++ 0#4 ++ 0#4 :=
  BitVec.and_append.trans (congrArg₂ (· ++ ·) (mask_high2 c x) BitVec.and_zero)

theorem mask_xnn (c x : Nibble) (b : Byte) : (c ++ x ++ b) &&& (0xF000 : Word) = c ++ 0#4 ++ 0#8 :=
  BitVec.and_append.trans (congrArg₂ (· ++ ·) (mask_high2 c x) BitVec.and_zero)

theorem mask_xff (c x : Nibble) (b : Byte) : (c ++ x ++ b) &&& (0xF0FF : Word) = c ++ 0#4 ++ b :=
  BitVec.and_append.trans (congrArg₂ (· ++ ·) (mask_high2 c x) BitVec.and_allOnes)

theorem mask_xyf (c x y n : Nibble) : (c ++ x ++ y ++ n) &&& (0xF00F : Word) = c ++ 0#4 ++ 0#4 ++ n :=
  BitVec.and_append.trans (congrArg₂ (· ++ ·) (mask_high3 c x y) BitVec.and_allOnes)

theorem mask_xyn (c x y n : Nibble) : (c ++ x ++ y ++ n) &&& (0xF000 : Word) = c ++ 0#4 ++ 0#4 ++ 0#4 :=
  BitVec.and_append.trans (congrArg₂ (· ++ ·) (mask_high3 c x y) BitVec.and_zero)

/-- The encoded word matches the instruction's own row (R64). -/
def EncodeRow.Statement (i : Instr) : Prop :=
  ∃ row, opcodeMap[i.rowIndex]? = some row ∧ encode i &&& row.mask = row.code

theorem EncodeRow.cls : EncodeRow.Statement (.cls) := ⟨_, rfl, rfl⟩
theorem EncodeRow.ret : EncodeRow.Statement (.ret) := ⟨_, rfl, rfl⟩
theorem EncodeRow.jp (nnn : Addr) : EncodeRow.Statement (.jp nnn) := ⟨_, rfl, (mask_nnn _ _).trans rfl⟩
theorem EncodeRow.call (nnn : Addr) : EncodeRow.Statement (.call nnn) := ⟨_, rfl, (mask_nnn _ _).trans rfl⟩
theorem EncodeRow.seImm (x : Nibble) (nn : Byte) : EncodeRow.Statement (.seImm x nn) := ⟨_, rfl, (mask_xnn _ _ _).trans rfl⟩
theorem EncodeRow.sneImm (x : Nibble) (nn : Byte) : EncodeRow.Statement (.sneImm x nn) := ⟨_, rfl, (mask_xnn _ _ _).trans rfl⟩
theorem EncodeRow.seReg (x y : Nibble) : EncodeRow.Statement (.seReg x y) := ⟨_, rfl, (mask_xyf _ _ _ _).trans rfl⟩
theorem EncodeRow.ldImm (x : Nibble) (nn : Byte) : EncodeRow.Statement (.ldImm x nn) := ⟨_, rfl, (mask_xnn _ _ _).trans rfl⟩
theorem EncodeRow.addImm (x : Nibble) (nn : Byte) : EncodeRow.Statement (.addImm x nn) := ⟨_, rfl, (mask_xnn _ _ _).trans rfl⟩
theorem EncodeRow.ldReg (x y : Nibble) : EncodeRow.Statement (.ldReg x y) := ⟨_, rfl, (mask_xyf _ _ _ _).trans rfl⟩
theorem EncodeRow.orReg (x y : Nibble) : EncodeRow.Statement (.orReg x y) := ⟨_, rfl, (mask_xyf _ _ _ _).trans rfl⟩
theorem EncodeRow.andReg (x y : Nibble) : EncodeRow.Statement (.andReg x y) := ⟨_, rfl, (mask_xyf _ _ _ _).trans rfl⟩
theorem EncodeRow.xorReg (x y : Nibble) : EncodeRow.Statement (.xorReg x y) := ⟨_, rfl, (mask_xyf _ _ _ _).trans rfl⟩
theorem EncodeRow.addReg (x y : Nibble) : EncodeRow.Statement (.addReg x y) := ⟨_, rfl, (mask_xyf _ _ _ _).trans rfl⟩
theorem EncodeRow.subReg (x y : Nibble) : EncodeRow.Statement (.subReg x y) := ⟨_, rfl, (mask_xyf _ _ _ _).trans rfl⟩
theorem EncodeRow.shr (x y : Nibble) : EncodeRow.Statement (.shr x y) := ⟨_, rfl, (mask_xyf _ _ _ _).trans rfl⟩
theorem EncodeRow.subnReg (x y : Nibble) : EncodeRow.Statement (.subnReg x y) := ⟨_, rfl, (mask_xyf _ _ _ _).trans rfl⟩
theorem EncodeRow.shl (x y : Nibble) : EncodeRow.Statement (.shl x y) := ⟨_, rfl, (mask_xyf _ _ _ _).trans rfl⟩
theorem EncodeRow.sneReg (x y : Nibble) : EncodeRow.Statement (.sneReg x y) := ⟨_, rfl, (mask_xyf _ _ _ _).trans rfl⟩
theorem EncodeRow.ldI (nnn : Addr) : EncodeRow.Statement (.ldI nnn) := ⟨_, rfl, (mask_nnn _ _).trans rfl⟩
theorem EncodeRow.jpV0 (nnn : Addr) : EncodeRow.Statement (.jpV0 nnn) := ⟨_, rfl, (mask_nnn _ _).trans rfl⟩
theorem EncodeRow.rnd (x : Nibble) (nn : Byte) : EncodeRow.Statement (.rnd x nn) := ⟨_, rfl, (mask_xnn _ _ _).trans rfl⟩
theorem EncodeRow.drw (x y n : Nibble) : EncodeRow.Statement (.drw x y n) := ⟨_, rfl, (mask_xyn _ _ _ _).trans rfl⟩
theorem EncodeRow.skp (x : Nibble) : EncodeRow.Statement (.skp x) := ⟨_, rfl, (mask_xff _ _ _).trans rfl⟩
theorem EncodeRow.sknp (x : Nibble) : EncodeRow.Statement (.sknp x) := ⟨_, rfl, (mask_xff _ _ _).trans rfl⟩
theorem EncodeRow.ldVxDt (x : Nibble) : EncodeRow.Statement (.ldVxDt x) := ⟨_, rfl, (mask_xff _ _ _).trans rfl⟩
theorem EncodeRow.ldVxK (x : Nibble) : EncodeRow.Statement (.ldVxK x) := ⟨_, rfl, (mask_xff _ _ _).trans rfl⟩
theorem EncodeRow.ldDtVx (x : Nibble) : EncodeRow.Statement (.ldDtVx x) := ⟨_, rfl, (mask_xff _ _ _).trans rfl⟩
theorem EncodeRow.ldStVx (x : Nibble) : EncodeRow.Statement (.ldStVx x) := ⟨_, rfl, (mask_xff _ _ _).trans rfl⟩
theorem EncodeRow.addI (x : Nibble) : EncodeRow.Statement (.addI x) := ⟨_, rfl, (mask_xff _ _ _).trans rfl⟩
theorem EncodeRow.ldF (x : Nibble) : EncodeRow.Statement (.ldF x) := ⟨_, rfl, (mask_xff _ _ _).trans rfl⟩
theorem EncodeRow.ldB (x : Nibble) : EncodeRow.Statement (.ldB x) := ⟨_, rfl, (mask_xff _ _ _).trans rfl⟩
theorem EncodeRow.ldMemVx (x : Nibble) : EncodeRow.Statement (.ldMemVx x) := ⟨_, rfl, (mask_xff _ _ _).trans rfl⟩
theorem EncodeRow.ldVxMem (x : Nibble) : EncodeRow.Statement (.ldVxMem x) := ⟨_, rfl, (mask_xff _ _ _).trans rfl⟩

end Sys2Proof.Laws
end

