-- ==== Sys2Proof/Laws/Run.lean ====
section
/-! SUPPORT. What no instruction and no step touches, and the induction along an infinite run. -/

namespace Sys2Proof.Safety

open Sys2Proof.Machine

/-- No instruction touches the world outside, `loaded`, `ill_seen` or a divider. -/
theorem exec_keeps {i : Instr} {s t : State} (h : exec i s = .next t) : KeepsWorld s t ∧ KeepsFlags s t := by
  refine exec_next_elim (P := fun _ u => KeepsWorld s u ∧ KeepsFlags s u) h
    ?_ ?_ ?_ ?_ ?_ ?_ ?_ ?_ ?_ ?_ ?_ ?load ?others
  case load => intro x _; rw [State.writeRegs_eq]; simp [KeepsWorld, KeepsFlags]
  case others =>
    intro j u hj hret hcall hdrw hldB hstore hload
    cases j <;>
      first
      | exact absurd rfl hret
      | exact absurd rfl (hcall _)
      | exact absurd rfl (hdrw _ _ _)
      | exact absurd rfl (hldB _)
      | exact absurd rfl (hstore _)
      | exact absurd rfl (hload _)
      | (obtain rfl := Host.Outcome.next.inj hj
         simp [KeepsWorld, KeepsFlags, State.writeResultFlag_eq])
  all_goals intros; simp [KeepsWorld, KeepsFlags, State.raiseOutOfBounds_eq]

/-- No step touches the world outside or a divider. -/
theorem coreStep_keeps {s t : State} (h : coreStep s = .next t) :
    KeepsWorld s t ∧ t.divCnt = s.divCnt ∧ t.stepCnt = s.stepCnt := by
  unfold coreStep at h
  split at h
  · cases h
  · cases h
  · obtain rfl := Host.Outcome.next.inj h
    rcases waitStep_cases s with ⟨_, e⟩ | ⟨_, _, e⟩ | ⟨_, k, _, e⟩ <;> rw [e] <;> simp [KeepsWorld]
  · rcases fetch_cases s with ⟨_, _, e, _⟩ | ⟨_, _, e⟩ | ⟨_, _, e⟩ | ⟨_, _, i, _, e⟩ <;> rw [e] at h
    · obtain rfl := Host.Outcome.next.inj h; simp [KeepsWorld]
    · obtain rfl := Host.Outcome.next.inj h; simp [KeepsWorld]
    · obtain rfl := Host.Outcome.next.inj h; simp [KeepsWorld]
    · obtain ⟨hw, -, -, hd⟩ := exec_keeps h
      exact ⟨by simpa [KeepsWorld] using hw, by simpa using hd⟩

/-- No move gives a move: whatever it is, it leaves the moves to come as they were. -/
theorem runMove_keeps {m : Move} {s t : State} (h : runMove m s = .next t) :
    t.schedule = s.schedule ∧ t.stepsToTick = s.stepsToTick ∧ t.draws = s.draws := by
  cases m with
  | step inp => simpa using (coreStep_keeps h).1.2.2.2
  | tick => obtain rfl := Host.Outcome.next.inj h; simp
  | clk inp =>
    have e := State.clockEdge_fst Config.timerDiv Config.instrDiv s
    rw [runMove] at h
    cases hd : (s.clockEdge Config.timerDiv Config.instrDiv).2 with
    | true =>
      rw [clkMove_step hd, e] at h
      simpa using (coreStep_keeps h).1.2.2.2
    | false =>
      rw [clkMove_no_step hd, e] at h
      obtain rfl := Host.Outcome.next.inj h
      rcases State.sampleStop_cases _ inp.stop with ⟨-, -, e'⟩ | ⟨-, e'⟩ <;> rw [e'] <;> simp
  | start => obtain rfl := Host.Outcome.next.inj h; simp only [State.startBy]; split <;> simp
  | stop => obtain rfl := Host.Outcome.next.inj h; simp only [State.stopBy]; split <;> simp
  | load bytes =>
    simp only [runMove, loadProgram] at h
    split at h
    · split at h <;> obtain rfl := Host.Outcome.next.inj h <;> simp [State.raiseOutOfBounds_eq]
    all_goals cases h
  | rst => obtain rfl := Host.Outcome.next.inj h; exact ⟨rfl, rfl, rfl⟩

/-- After a step the moves to come are what taking the next move left of them. -/
theorem step_moves {s t : State} (h : step s = .next t) :
    t.schedule = s.nextMove.2.schedule ∧ t.stepsToTick = s.nextMove.2.stepsToTick ∧
    t.draws = s.nextMove.2.draws := runMove_keeps h

/-- What holds of the first state of a run and is kept by every step holds of every state of it. -/
theorem Run.always {P : State → Prop} (r : Run) (h0 : P (r.state 0))
    (hs : ∀ s t, P s → step s = .next t → P t) (n : Nat) : P (r.state n) := by
  induction n with
  | zero => exact h0
  | succ n ih => exact hs _ _ ih (r.next n)

/-- A state that meets a condition under which every step answers, and which every step keeps, begins a run. -/
theorem exists_run {P : State → Prop} (s : State) (h0 : P s) (hs : ∀ s, P s → ∃ t, step s = .next t ∧ P t) :
    ∃ r : Run, r.state 0 = s ∧ ∀ n, P (r.state n) := by
  let f : { s // P s } → { s // P s } := fun u => ⟨(hs u.1 u.2).choose, (hs u.1 u.2).choose_spec.2⟩
  let g : Nat → { s // P s } := fun n => Nat.rec ⟨s, h0⟩ (fun _ u => f u) n
  exact ⟨⟨fun n => (g n).1, fun n => (hs (g n).1 (g n).2).choose_spec.1⟩, rfl, fun n => (g n).2⟩

end Sys2Proof.Safety
end

