-- ==== Sys2Proof/Tests/Slice0.lean ====
section
/-! SUPPORT. Tests on the vectors of 95_test_vectors.md (named in each comment), the words written out from
30_encoding.md R64, the smoke tests of WellFormed, and the witnesses of the statements' hypotheses. -/

namespace Sys2Proof.Tests

open Sys2Proof.Machine Sys2Proof.Safety

/-- What `f` sees of the next state, if there is one. -/
def see {α : Type} (f : State → α) : Result → Option α
  | .next t => some (f t)
  | .fault _ => none
  | .refused _ => none

/-- Memory with the default FONT and these bytes written. -/
def listed (cells : List Host.Cell) : Memory := { font := Config.defaultFont, cells := cells }

/-- A running core after reset with a program loaded: the state every vector starts from. -/
def running : State := { State.reset with runState := .run, loaded := true }

/-- That state with V0 = a and V1 = b. -/
def pair (a b : Byte) : State := (running.writeV 0 a).writeV 1 b

/-- That state with I at an address. -/
def atI (a : Word) : State := running.setI a

/-- That state with registers Vk = 0x10 + k (vector E4). -/
def stairs (a : Word) : State := (running.writeRegs 0 ((List.range 16).map fun k => BitVec.ofNat 8 (0x10 + k))).setI a

/-- That state with n entries on the stack, each 0x206. -/
def depth (n : Nat) : State := { running with sp := BitVec.ofNat 5 n, stack := Vector.replicate 16 0x206 }

/-- That state with input pins. -/
def pins (rnd : Byte) (keys : List Byte) (collision : Bool) : State :=
  { running with inputs := { Inputs.quiet with rnd := rnd, keysDown := keys, collision := collision } }

/-- A core waiting for a key at 0x210 with wait_x = 3 (vectors 2.9). -/
def waiting : State := { running with runState := .waitKey, waitX := 3, pc := 0x210 }

/-- A halted core. -/
def stopped : State := running.raise .stop 0

/-- The halt a state records. -/
def halt (s : State) : RunState × HaltCause × Word × Info := (s.runState, s.haltCause, s.faultPc, s.faultInfo)

/-! ## WellFormed: each check refuses an ill-formed term (30_encoding.md R68; 20_memory.md R53) -/

theorem test_wf_refuses_register_16 : NumKind.fits .reg 16 = false := by decide
theorem test_wf_refuses_nibble_16 : NumKind.fits .nibble 16 = false := by decide
theorem test_wf_refuses_byte_256 : NumKind.fits .byte 256 = false := by decide
theorem test_wf_refuses_address_4096 : NumKind.fits .addr 4096 = false := by decide
theorem test_wf_refuses_word_65536 : NumKind.fits .word 65536 = false := by decide
theorem test_wf_accepts_the_largest : NumKind.fits .reg 15 && NumKind.fits .nibble 15 && NumKind.fits .byte 255 &&
    NumKind.fits .addr 4095 && NumKind.fits .word 65535 = true := by decide
theorem test_wf_accepts_an_instruction : Instr.wf (.drw 15 15 15) = true := by decide
theorem image_wf_iff (n : Nat) (b : Byte) : Image.wf (List.replicate n b) = decide (n ≤ 3584) := by
  simp [Image.wf]
theorem test_wf_refuses_an_image_of_3585 : Image.wf (List.replicate 3585 0) = false :=
  (image_wf_iff _ _).trans (by decide)
theorem test_wf_accepts_an_image_of_3584 : Image.wf (List.replicate 3584 0) = true :=
  (image_wf_iff _ _).trans (by decide)
theorem test_assembler_refuses_V16 : Asm.assembleInstr [] .skp [.reg 16] = .error (.outOfRange 16) := rfl
theorem test_assembler_refuses_byte_256 :
    Asm.assembleInstr [] .ld [.reg 0, .num 256] = .error (.outOfRange 256) := rfl
theorem test_assembler_refuses_nibble_16 :
    Asm.assembleInstr [] .drw [.reg 0, .reg 1, .num 16] = .error (.outOfRange 16) := rfl
theorem test_assembler_refuses_address_4096 : Asm.assembleInstr [] .jp [.num 4096] = .error (.outOfRange 4096) := rfl
theorem test_assembler_refuses_word_65536 : Asm.lineBytes [] (.word 65536) = .error (.outOfRange 65536) := rfl
theorem test_assembler_refuses_a_form : Asm.assembleInstr [] .cls [.reg 0] = .error .noSuchForm := rfl

/-! ## Decoding: every constructor by a word written out from R64 -/

theorem test_decode_display : decodeWord 0x00E0 = .ok .cls ∧ decodeWord 0xDAB5 = .ok (.drw 0xA 0xB 5) := ⟨rfl, rfl⟩
theorem test_decode_jumps : decodeWord 0x00EE = .ok .ret ∧ decodeWord 0x1234 = .ok (.jp 0x234) ∧
    decodeWord 0x2FFE = .ok (.call 0xFFE) ∧ decodeWord 0xB206 = .ok (.jpV0 0x206) := ⟨rfl, rfl, rfl, rfl⟩
theorem test_decode_skips : decodeWord 0x3A07 = .ok (.seImm 0xA 0x07) ∧ decodeWord 0x4108 = .ok (.sneImm 1 0x08) ∧
    decodeWord 0x5120 = .ok (.seReg 1 2) ∧ decodeWord 0x9AB0 = .ok (.sneReg 0xA 0xB) ∧
    decodeWord 0xE59E = .ok (.skp 5) ∧ decodeWord 0xE5A1 = .ok (.sknp 5) := ⟨rfl, rfl, rfl, rfl, rfl, rfl⟩
theorem test_decode_loads : decodeWord 0x6A2F = .ok (.ldImm 0xA 0x2F) ∧ decodeWord 0x70FF = .ok (.addImm 0 0xFF) ∧
    decodeWord 0x8120 = .ok (.ldReg 1 2) ∧ decodeWord 0xC30F = .ok (.rnd 3 0x0F) := ⟨rfl, rfl, rfl, rfl⟩
theorem test_decode_logic : decodeWord 0x8121 = .ok (.orReg 1 2) ∧ decodeWord 0x8122 = .ok (.andReg 1 2) ∧
    decodeWord 0x8123 = .ok (.xorReg 1 2) := ⟨rfl, rfl, rfl⟩
theorem test_decode_arithmetic : decodeWord 0x8124 = .ok (.addReg 1 2) ∧ decodeWord 0x8125 = .ok (.subReg 1 2) ∧
    decodeWord 0x8126 = .ok (.shr 1 2) ∧ decodeWord 0x8127 = .ok (.subnReg 1 2) ∧
    decodeWord 0x812E = .ok (.shl 1 2) := ⟨rfl, rfl, rfl, rfl, rfl⟩
theorem test_decode_index : decodeWord 0xA123 = .ok (.ldI 0x123) ∧ decodeWord 0xF31E = .ok (.addI 3) ∧
    decodeWord 0xF329 = .ok (.ldF 3) ∧ decodeWord 0xF333 = .ok (.ldB 3) ∧ decodeWord 0xF355 = .ok (.ldMemVx 3) ∧
    decodeWord 0xF365 = .ok (.ldVxMem 3) := ⟨rfl, rfl, rfl, rfl, rfl, rfl⟩
theorem test_decode_timers : decodeWord 0xF307 = .ok (.ldVxDt 3) ∧ decodeWord 0xF30A = .ok (.ldVxK 3) ∧
    decodeWord 0xF315 = .ok (.ldDtVx 3) ∧ decodeWord 0xF318 = .ok (.ldStVx 3) := ⟨rfl, rfl, rfl, rfl⟩
/-- The invalid words of 2.10. -/
theorem test_decode_rejects : ∀ w ∈ ([0x0000, 0x00E1, 0x00FF, 0x0123, 0x5121, 0x8008, 0x800F, 0x9AB1, 0xE19F, 0xF100,
    0xFFFF] : List Word), decodeWord w = .error (.invalidOpcode w) := by
  simp only [List.forall_mem_cons, List.not_mem_nil, false_implies, implies_true, and_true]
  exact ⟨rfl, rfl, rfl, rfl, rfl, rfl, rfl, rfl, rfl, rfl, rfl⟩
theorem test_decode_one_byte : decodeBytes [0x12] = .error .truncated := rfl
theorem test_decode_bytes : decodeBytes [0x81, 0x26, 0x55] = .ok (.shr 1 2, [0x55]) := rfl
theorem test_decodeTableWord : decodeTableWord 16 0x00EE = some .ret ∧ decodeTableWord 16 0x8008 = none := ⟨rfl, rfl⟩
theorem test_encode : encode (.drw 0xA 0xB 5) = 0xDAB5 ∧ encode (.shl 1 2) = 0x812E ∧ encode (.ldB 3) = 0xF333 ∧
    encode (.call 0xFFE) = 0x2FFE := by decide

/-! ## Instructions -/

/-- 2.8 -/
theorem test_cls : see (fun t => (t.out.requests, t.pc)) (exec .cls running) = some ([.clear], 0x202) := by decide
/-- 2.8: glyph 0, collision answered. -/
theorem test_drw_glyph : see (fun t => (t.out.requests, t.readV VF, t.dispDraw.map (·.n)))
    (exec (.drw 0 1 5) (pins 0 [] true)) =
      some ([.draw 0 0 [0xF0, 0x90, 0x90, 0x90, 0xF0]], 1, some 5) := by decide
/-- 2.8: x = F is read before the flag; an out of range sprite emits nothing. -/
theorem test_drw_edges : see (fun t => (t.out.requests, t.readV VF))
      (exec (.drw 0xF 0 1) ((atI 0x300).writeV VF 0x20)) = some ([.draw 0x20 0 [0]], 0) ∧
    see (fun t => (halt t, t.out.requests)) (exec (.drw 0 1 3) (atI 0xFFE)) =
      some ((.halted, .outOfBounds, 0x200, 0x1000), []) := by decide
/-- 2.6 -/
theorem test_ret : see (fun t => (t.pc, t.sp)) (exec .ret (depth 1)) = some (0x206, 0) := by decide
/-- 2.6 -/
theorem test_ret_underflow : see halt (exec .ret running) = some (.halted, .stackUnderflow, 0x200, 0) := by decide
/-- 2.6 -/
theorem test_jp : see State.pc (exec (.jp 0xFFF) running) = some 0xFFF := by decide
/-- 2.6: a call at 0xFFE pushes 0x1000. -/
theorem test_call : see (fun t => (t.stackAt 0, t.sp, t.pc)) (exec (.call 0xFFE) (running.setPc 0xFFE)) =
    some (0x1000, 1, 0xFFE) := by decide
/-- 2.6 -/
theorem test_call_overflow : see (fun t => (halt t, t.pc, t.sp)) (exec (.call 0x300) (depth 16)) =
    some ((.halted, .stackOverflow, 0x200, 16), 0x200, 16) := by decide
/-- E6 -/
theorem test_se_imm : see State.pc (exec (.seImm 1 7) (pair 0 7)) = some 0x204 ∧
    see State.pc (exec (.seImm 1 8) (pair 0 7)) = some 0x202 := by decide
/-- E6 -/
theorem test_sne_imm : see State.pc (exec (.sneImm 1 8) (pair 0 7)) = some 0x204 ∧
    see State.pc (exec (.sneImm 1 7) (pair 0 7)) = some 0x202 := by decide
/-- E6 -/
theorem test_se_reg : see State.pc (exec (.seReg 0 1) (pair 7 7)) = some 0x204 ∧
    see State.pc (exec (.seReg 0 1) (pair 7 8)) = some 0x202 := by decide
/-- E6 -/
theorem test_sne_reg : see State.pc (exec (.sneReg 0 1) (pair 7 7)) = some 0x202 ∧
    see State.pc (exec (.sneReg 0 1) (pair 7 8)) = some 0x204 := by decide
/-- 2.6: no mask, no wrap. -/
theorem test_jpV0 : see State.pc (exec (.jpV0 0xFFF) (pair 0xFF 0)) = some 0x10FE := by decide
/-- 2.6 -/
theorem test_skp : see (fun t => (t.pc, t.out.keyQuery)) (exec (.skp 5) ((pins 0 [0x42] false).writeV 5 0x42)) =
      some (0x204, some 0x42) ∧
    see State.pc (exec (.skp 5) ((pins 0 [] false).writeV 5 0x0A)) = some 0x202 := by decide
/-- 2.6 -/
theorem test_sknp : see State.pc (exec (.sknp 5) ((pins 0 [0x0A] false).writeV 5 0x0A)) = some 0x202 ∧
    see State.pc (exec (.sknp 5) ((pins 0 [0x02] false).writeV 5 0x42)) = some 0x204 := by decide
/-- E1 -/
theorem test_ld_imm : see (fun t => t.readV 0xA) (exec (.ldImm 0xA 0x2F) running) = some 0x2F := by decide
/-- 2.5: no carry is set. -/
theorem test_add_imm : see (fun t => (t.readV 0, t.readV VF)) (exec (.addImm 0 1) (pair 0xFF 0)) =
    some (0, 0) := by decide
/-- 2.5 -/
theorem test_ld_reg : see (fun t => (t.readV 0, t.readV 1)) (exec (.ldReg 0 1) (pair 0 0x33)) =
    some (0x33, 0x33) := by decide
/-- 2.5: VF is no flag of OR. -/
theorem test_or : see (fun t => (t.readV 0, t.readV VF)) (exec (.orReg 0 1) ((pair 0xAA 0x55).writeV VF 7)) =
    some (0xFF, 7) := by decide
/-- 2.5 -/
theorem test_and : see (fun t => t.readV 0) (exec (.andReg 0 1) (pair 0xAA 0x55)) = some 0 := by decide
/-- 2.5 -/
theorem test_xor : see (fun t => t.readV 0) (exec (.xorReg 0 1) (pair 0xAA 0x55)) = some 0xFF ∧
    see (fun t => t.readV 0) (exec (.xorReg 0 0) (pair 0x5A 0)) = some 0 := by decide
/-- 2.1: the carry boundary. -/
theorem test_add_carry : see (fun t => (t.readV 0, t.readV VF)) (exec (.addReg 0 1) (pair 0xFF 0x01)) = some (0, 1) ∧
    see (fun t => (t.readV 0, t.readV VF)) (exec (.addReg 0 1) (pair 0x7F 0x80)) = some (0xFF, 0) := by decide
/-- 2.1: x = F loses the sum, y = F reads the old VF. -/
theorem test_add_VF : see (fun t => t.readV VF) (exec (.addReg VF 1) ((pair 0 0xF5).writeV VF 0x10)) = some 1 ∧
    see (fun t => (t.readV 0, t.readV VF)) (exec (.addReg 0 VF) ((pair 1 0).writeV VF 0xFF)) =
      some (0, 1) := by decide
/-- 2.2 -/
theorem test_sub : see (fun t => (t.readV 0, t.readV VF)) (exec (.subReg 0 1) (pair 5 0x0A)) = some (0xFB, 0) ∧
    see (fun t => (t.readV 0, t.readV VF)) (exec (.subReg 0 1) (pair 5 5)) = some (0, 1) := by decide
/-- 2.2 -/
theorem test_sub_VF : see (fun t => t.readV VF) (exec (.subReg VF 1) ((pair 0 5).writeV VF 3)) = some 0 := by decide
/-- 2.4 -/
theorem test_shr : see (fun t => (t.readV 0, t.readV VF)) (exec (.shr 0 1) (pair 0x7F 9)) = some (0x3F, 1) ∧
    see (fun t => t.readV VF) (exec (.shr VF 0) (running.writeV VF 3)) = some 1 := by decide
/-- 2.3: the result is b − a, and V1 stays. -/
theorem test_subn : see (fun t => (t.readV 0, t.readV 1, t.readV VF)) (exec (.subnReg 0 1) (pair 0x0A 5)) =
      some (0xFB, 5, 0) ∧
    see (fun t => (t.readV 0, t.readV VF)) (exec (.subnReg 0 1) (pair 0x33 0x33)) = some (0, 1) := by decide
/-- 2.4 -/
theorem test_shl : see (fun t => (t.readV 0, t.readV VF)) (exec (.shl 0 1) (pair 0x80 9)) = some (0, 1) ∧
    see (fun t => t.readV VF) (exec (.shl VF 0) (running.writeV VF 0x81)) = some 1 := by decide
/-- 2.5 -/
theorem test_rnd : see (fun t => (t.readV 0, t.out.rndReq)) (exec (.rnd 0 0x0F) (pins 0xFF [] false)) =
      some (0x0F, true) ∧
    see (fun t => (t.readV 0, t.out.rndReq)) (exec (.rnd 0 0) (pins 0xFF [] false)) = some (0, true) := by decide
/-- 2.7 -/
theorem test_ld_I : see State.iReg (exec (.ldI 0x123) running) = some 0x123 := by decide
/-- 2.7 -/
theorem test_add_I : see (fun t => (t.iReg, t.readV VF)) (exec (.addI 0) ((atI 0xFFFF).writeV 0 1)) = some (0, 0) ∧
    see State.iReg (exec (.addI 0) ((atI 0xFFF).writeV 0 1)) = some 0x1000 := by decide
/-- 2.7 -/
theorem test_ld_F : see State.iReg (exec (.ldF 0) (pair 0x0F 0)) = some 0x04B ∧
    see State.iReg (exec (.ldF 0) (pair 0xFF 0)) = some 0x4FB := by decide
/-- E5 and 2.7 -/
theorem test_ld_B : see (fun t => t.mem.readBytes 0x300 3) (exec (.ldB 0) ((atI 0x300).writeV 0 0xEA)) =
    some [2, 3, 4] := by decide
/-- 2.7: the first refused address. -/
theorem test_ld_B_out_of_bounds : see (fun t => (halt t, t.mem.cells.length)) (exec (.ldB 0) (atI 0x1FE)) =
      some ((.halted, .outOfBounds, 0x200, 0x1FE), 0) ∧
    see (fun t => (halt t, t.mem.cells.length)) (exec (.ldB 0) (atI 0xFFE)) =
      some ((.halted, .outOfBounds, 0x200, 0x1000), 0) := by decide
/-- E4 -/
theorem test_ld_mem_Vx : see (fun t => t.mem.readBytes 0xFF0 16) (exec (.ldMemVx 0xF) (stairs 0xFF0)) =
    some ((List.range 16).map fun k => BitVec.ofNat 8 (0x10 + k)) := by decide
/-- 2.7: nothing is written. -/
theorem test_ld_mem_Vx_out_of_bounds : see (fun t => (halt t, t.mem.cells.length)) (exec (.ldMemVx 1) (stairs 0x1FF)) =
      some ((.halted, .outOfBounds, 0x200, 0x1FF), 0) ∧
    see (fun t => (halt t, t.mem.cells.length)) (exec (.ldMemVx 0xF) (stairs 0xFF1)) =
      some ((.halted, .outOfBounds, 0x200, 0x1000), 0) := by decide
/-- 2.7: glyph 0 -/
theorem test_ld_Vx_mem : see (fun t => t.regs 6) (exec (.ldVxMem 4) (stairs 0)) =
    some [0xF0, 0x90, 0x90, 0x90, 0xF0, 0x15] := by decide
/-- 2.7 -/
theorem test_ld_Vx_mem_out_of_bounds : see (fun t => (halt t, t.regs 2)) (exec (.ldVxMem 1) (stairs 0xFFF)) =
      some ((.halted, .outOfBounds, 0x200, 0x1000), [0x10, 0x11]) ∧
    see halt (exec (.ldVxMem 0) (stairs 0xFFFF)) = some (.halted, .outOfBounds, 0x200, 0xFFFF) := by decide
/-- R42: the parameter FONT at another value; reset keeps it and clears what was written. -/
theorem test_other_font :
    see (fun t => t.regs 2) (exec (.ldVxMem 1)
      { (State.resetWith (Vector.replicate 80 0xA5)).setI 0x4F with runState := .run }) = some [0xA5, 0] ∧
    see (fun t => (t.mem.read 0x04F, t.mem.read 0x050, t.mem.read 0x200)) (runMove .rst
      { stopped with mem := { font := Vector.replicate 80 0xA5, cells := [(0x200, 0x12)] } }) =
        some (0xA5, 0, 0) := by decide
/-- R42: the default glyph of F ends at 0x04F. -/
theorem test_default_font : State.reset.mem.readBytes 0x04B 6 = [0xF0, 0x80, 0xF0, 0x80, 0x80, 0] := by decide
/-- 2.9 -/
theorem test_ld_DT : see State.dt (exec (.ldDtVx 0) (pair 0x3C 0)) = some 0x3C := by decide
/-- 2.9 -/
theorem test_ld_Vx_DT : see (fun t => t.readV 1) (exec (.ldVxDt 1) (running.setDt 0x3C)) = some 0x3C := by decide
/-- 2.9 -/
theorem test_ld_ST : see (fun t => (t.st, t.tone)) (exec (.ldStVx 4) (running.writeV 4 2)) = some (2, true) ∧
    see State.tone (exec (.ldStVx 4) (running.setSt 9)) = some false := by decide
/-- 2.9 -/
theorem test_ld_K : see (fun t => (t.runState, t.waitX, t.pc)) (exec (.ldVxK 3) (running.setPc 0x210)) =
    some (.waitKey, 3, 0x210) := by decide
/-- 2.9: a press event, its full byte. -/
theorem test_key_wait : see (fun t => (t.readV 3, t.runState, t.pc, t.out.keyAck))
      (runMove (.step { Inputs.quiet with keyEvent := some 7 }) waiting) = some (7, .run, 0x212, true) ∧
    see halt (runMove (.step { Inputs.quiet with stop := true, keyEvent := some 7 }) waiting) =
      some (.halted, .stop, 0x210, 0) := by decide

/-! ## Steps, ticks and the host -/

/-- E1 through the step, from reset. -/
theorem test_step_from_reset : see (fun t => (t.readV 0xA, t.pc)) (step (State.reset.withFetchWord 16 0x6A2F)) =
    some (0x2F, 0x202) := by decide
/-- P1 step 5: the move list drives two steps. -/
theorem test_host_moves : see (fun t => (t.readV 0, t.pc, t.runState))
    (Sys2Proof.core.run 3 { State.reset with schedule := [.load [0x60, 0x0A], .start, .step .quiet] }) =
      some (0x0A, 0x202, .run) := by decide
/-- 2.11: a fetch at 0xFFE, 0xFFF and 0x10FE. -/
theorem test_fetch_edges :
    see State.pc (runMove (.step .quiet) { running.setPc 0xFFE with mem := listed [(0xFFE, 0x12)] }) = some 0x200 ∧
    see halt (runMove (.step .quiet) (running.setPc 0xFFF)) = some (.halted, .outOfBounds, 0xFFF, 0x1000) ∧
    see halt (runMove (.step .quiet) (running.setPc 0x10FE)) = some (.halted, .outOfBounds, 0x10FE, 0x10FE) := by
  decide
/-- 2.11: the bytes of the font are no instruction; NOP passes over them. -/
theorem test_invalid_word :
    see halt (runMove (.step .quiet) (running.setPc 0)) = some (.halted, .invalidOpcode, 0, 0xF090) ∧
    see (fun t => (t.runState, t.pc, t.illSeen)) (runMove (.step .quiet) { running.setPc 0 with strict := false }) =
      some (.run, 2, true) := by decide
/-- 2.11 -/
theorem test_start_without_load :
    see halt (runMove (.step .quiet) { State.reset with runState := .run }) =
      some (.halted, .uninitializedProgram, 0x200, 0) := by decide
/-- 2.11 -/
theorem test_stop : see halt (runMove (.step { Inputs.quiet with stop := true }) (running.setPc 0x204)) =
      some (.halted, .stop, 0x204, 0) ∧
    see halt (runMove .stop State.reset) = some (.halted, .stop, 0x200, 0) := by decide
/-- 2.11 -/
theorem test_load_too_long :
    see (fun t => (halt t, t.loaded, t.mem.cells.length)) (runMove (.load (List.replicate 3585 0)) State.reset) =
      some ((.halted, .outOfBounds, 0x200, 0x1000), false, 0) := by
  have hw := test_wf_refuses_an_image_of_3585
  have hr : State.reset.quietOut.runState = .idle := rfl
  simp only [runMove, loadProgram, hr, hw]
  rfl
/-- 2.11 -/
theorem test_load_nothing : see (fun t => (t.loaded, t.mem.cells)) (runMove (.load []) State.reset) =
    some (true, []) := by decide
/-- 2.9 -/
theorem test_tick : see (fun t => (t.dt, t.st, t.tone)) (runMove .tick ((running.setDt 0xFF).setSt 1)) =
      some (0xFE, 0, false) ∧
    see State.dt (runMove .tick (State.reset.setDt 5)) = some 5 := by decide
/-- 2.9: a tick and FX15 in one cycle. -/
theorem test_tick_first : see (fun t => (t.dt, t.pc))
    (clkMove 1 1 .quiet { (pair 9 0).setDt 5 with mem := listed [(0x200, 0xF0), (0x201, 0x15)] }) =
      some (9, 0x202) := by decide
/-- R208, R209: FX18 on the edge of a tick; an edge with a tick and no step. -/
theorem test_clock_edge :
    see (fun t => (t.dt, t.st, t.divCnt, t.stepCnt)) (clkMove 1 1 .quiet
      { ((pair 9 0).setDt 5).setSt 3 with mem := listed [(0x200, 0xF0), (0x201, 0x18)] }) = some (4, 9, 0, 0) ∧
    see (fun t => (t.dt, t.divCnt, t.stepCnt, t.pc)) (clkMove 1 5 .quiet { running.setDt 5 with stepCnt := 3 }) =
      some (4, 0, 4, 0x200) := by decide
/-- R208, R215: the dividers count in IDLE, and a stop pin halts there. -/
theorem test_clock_edge_idle :
    see (fun t => (t.runState, t.divCnt, t.stepCnt)) (clkMove 7 1 .quiet State.reset) = some (.idle, 1, 0) ∧
    see (fun t => (halt t, t.divCnt)) (clkMove 7 1 { Inputs.quiet with stop := true } State.reset) =
      some ((.halted, .stop, 0x200, 0), 1) := by decide
/-- 2.11 -/
theorem test_reset : see (fun t => (t.runState, t.loaded, t.haltCause, t.pc))
    (runMove .rst (stopped.setPc 0x300)) = some (.idle, false, .none, 0x200) := by decide
/-- Bytes of P2, from its assembly with its labels. -/
theorem test_assemble : Asm.assemble [.instr .ld [.i, .num 0x300], .instr .ld [.reg 0, .num 234],
      .instr .call [.label "sub"], .label "done", .instr .jp [.label "done"], .word 0, .label "sub",
      .instr .ld [.b, .reg 0], .instr .ld [.reg 2, .memI], .instr .ret []] =
    .ok [0xA3, 0x00, 0x60, 0xEA, 0x22, 0x0A, 0x12, 0x06, 0x00, 0x00, 0xF0, 0x33, 0xF2, 0x65, 0x00, 0xEE] := rfl

/-! ## Witnesses: for every statement with hypotheses, a state and operands that meet them, one for each clause, at
the edges of its range. A clause whose hypotheses are an `exec` or a `step` answering is met by the tests above
too; here the premises stand as the statement has them. -/

theorem witness_EncodeOfDecode : decodeWord 0xFF65 = .ok (.ldVxMem 0xF) := rfl
theorem witness_DecodesExactlyTheRows : decodeWord 0x5121 = .error (.invalidOpcode 0x5121) := rfl
theorem witness_RowsAreDisjoint : ∃ r, opcodeMap[17]? = some r ∧ r.matches 0x8F0E = true := ⟨_, rfl, by decide⟩
theorem witness_DrwDrawsAndSetsCollision :
    (0 : Nibble) = 0 ∧ (atI 0xFF1).dataAddr + (15 : Nibble).toNat ≤ 0x1000 ∧
    (15 : Nibble) ≠ 0 ∧ 0x1000 < (atI 0xFF2).dataAddr + (15 : Nibble).toNat := by decide
theorem witness_RetPopsIntoPc : (depth 1).sp ≠ 0 ∧ (depth 16).sp ≠ 0 ∧ (depth 0).sp = 0 := by decide
theorem witness_CallPushesReturnAddress : (depth 15).sp.toNat < 16 ∧ (depth 16).sp = 16 := by decide
theorem witness_flag_writers : (0xE : Nibble) ≠ VF ∧ (0 : Nibble) ≠ VF := by decide
theorem witness_LdBStoresDecimalDigits :
    (0x200 ≤ (atI 0x200).dataAddr ∧ (atI 0x200).dataAddr + 3 ≤ 0x1000) ∧
    (0x200 ≤ (atI 0xFFD).dataAddr ∧ (atI 0xFFD).dataAddr + 3 ≤ 0x1000) ∧
    (atI 0x1FF).dataAddr < 0x200 ∧ 0x1000 < (atI 0xFFE).dataAddr + 3 := by decide
theorem witness_LdMemVxStoresRegisters :
    (0x200 ≤ (atI 0xFF0).dataAddr ∧ (atI 0xFF0).dataAddr + (15 : Nibble).toNat ≤ 0xFFF) ∧
    (atI 0x1FF).dataAddr < 0x200 ∧ 0xFFF < (atI 0xFF1).dataAddr + (15 : Nibble).toNat := by decide
theorem witness_LdVxMemLoadsRegisters :
    (atI 0xFF0).dataAddr + (15 : Nibble).toNat ≤ 0xFFF ∧ 0xFFF < (atI 0x1000).dataAddr + (0 : Nibble).toNat := by
  decide
theorem witness_WaitStepTakesOnePress : waiting.runState = .waitKey ∧
    { Inputs.quiet with stop := true }.stop = true ∧
    (Inputs.quiet.stop = false ∧ Inputs.quiet.keyEvent = none) ∧
    ({ Inputs.quiet with keyEvent := some 0xFF }.stop = false ∧
      { Inputs.quiet with keyEvent := some 0xFF }.keyEvent = some 0xFF) := by decide
theorem witness_CallThenRetComesBack : (depth 15).sp.toNat < 16 := by decide
theorem witness_StoreThenLoadRestores : 0x200 ≤ (stairs 0xFF0).dataAddr ∧
    (stairs 0xFF0).dataAddr + (15 : Nibble).toNat ≤ 0xFFF ∧
    ∃ t, exec (.ldMemVx 15) (stairs 0xFF0) = .next t ∧ (t.writeV 0 0).mem = t.mem ∧ (t.writeV 0 0).iReg = t.iReg :=
  ⟨by decide, by decide, _, rfl, rfl, rfl⟩
theorem witness_NextFetchSeesStore :
    let s := (atI 0xFFE).setPc 0xFFC
    let b := (atI 0xFFD).setPc 0xFFB
    (1 ≤ (1 : Nibble).toNat ∧ s.dataAddr = s.pc.toNat + 2 ∧ 0x200 ≤ s.dataAddr ∧
      s.dataAddr + (1 : Nibble).toNat ≤ 0xFFF) ∧
    b.dataAddr = b.pc.toNat + 2 ∧ 0x200 ≤ b.dataAddr ∧ b.dataAddr + 3 ≤ 0x1000 := by decide

/-- A core about to run JP 0x200 from the last word of memory, the move given or left to the free values: with none
listed a step comes first. -/
def lastWord (moves : List Move) : State :=
  { running.setPc 0xFFE with mem := listed [(0xFFE, 0x12)], schedule := moves, stepsToTick := 1 }

theorem witness_StepRunsTheDecodedInstruction :
    (Instr.jp 0x200).wf = true ∧ (lastWord [.step .quiet]).nextMove = (.step .quiet, lastWord []) ∧
    Inputs.quiet.stop = false ∧ (lastWord [.step .quiet]).runState = .run ∧
    (lastWord [.step .quiet]).loaded = true ∧ (lastWord [.step .quiet]).pc.toNat ≤ 0xFFE ∧
    decodeBytes [(lastWord [.step .quiet]).mem.read 0xFFE, (lastWord [.step .quiet]).mem.read 0xFFF] =
      .ok (.jp 0x200, []) := ⟨by decide, rfl, rfl, rfl, rfl, by decide, rfl⟩
/-- The same with no move given: the premises hold of the free inputs. -/
theorem witness_StepRunsTheDecodedInstruction_free :
    (lastWord []).nextMove = (.step (freeInputs 0), { lastWord [] with stepsToTick := 0, draws := 1 }) ∧
    (freeInputs 0).stop = false := ⟨rfl, rfl⟩
theorem witness_NextMoveIsTheSchedules :
    (lastWord [.tick, .start]).schedule = .tick :: [.start] ∧
    (running.schedule = [] ∧ running.stepsToTick = 0) ∧
    (lastWord []).schedule = [] ∧ 0 < (lastWord []).stepsToTick := by decide
theorem witness_StepChecksInOrder : running.runState = .run ∧ { Inputs.quiet with stop := true }.stop = true ∧
    Inputs.quiet.stop = false ∧ { running with loaded := false }.loaded = false ∧ running.loaded = true ∧
    0xFFE < (running.setPc 0xFFF).pc.toNat ∧ 0xFFE < (running.setPc 0x1000).pc.toNat := by decide
theorem witness_InvalidWordFollowsThePolicy : (running.setPc 0xFFE).runState = .run ∧ Inputs.quiet.stop = false ∧
    (running.setPc 0xFFE).loaded = true ∧ (running.setPc 0xFFE).pc.toNat ≤ 0xFFE ∧
    (running.setPc 0xFFE).mem.read 0xFFE ++ (running.setPc 0xFFE).mem.read 0xFFF = (0x0000 : Word) ∧
    (∀ row ∈ opcodeMap, row.matches 0x0000 = false) ∧ (running.setPc 0xFFE).strict = true ∧
    { running with strict := false }.strict = false := by decide
/-- Each of the six raises, from a running core. -/
theorem witness_OnlySixInstructionsRaise : running.runState ≠ .halted ∧
    see State.runState (exec .ret running) = some .halted ∧
    see State.runState (exec (.call 0x300) (depth 16)) = some .halted ∧
    see State.runState (exec (.drw 0 1 1) (atI 0x1000)) = some .halted ∧
    see State.runState (exec (.ldB 0) (atI 0x1FF)) = some .halted ∧
    see State.runState (exec (.ldMemVx 0) (atI 0x1000)) = some .halted ∧
    see State.runState (exec (.ldVxMem 0) (atI 0x1000)) = some .halted := by decide
theorem witness_OnlyThreeInstructionsWriteI : running.iReg = 0 ∧ see State.iReg (exec (.ldI 1) running) = some 1 ∧
    see State.iReg (exec (.addI 0) (pair 1 0)) = some 1 ∧ see State.iReg (exec (.ldF 0) (pair 1 0)) = some 5 := by
  decide
/-- A destination and a flag that change. -/
theorem witness_RegistersChangeOnlyAsDestination :
    see (fun t => (t.readV 0, t.readV VF)) (exec (.addReg 0 1) (pair 0xFF 0xFF)) = some (0xFE, 1) := by decide
/-- A byte at either edge of what a program may write. -/
theorem witness_OnlyTwoInstructionsStore :
    see (fun t => t.mem.read 0x200) (exec (.ldMemVx 0) (stairs 0x200)) = some 0x10 ∧
    see (fun t => t.mem.read 0xFFF) (exec (.ldB 0) ((atI 0xFFD).writeV 0 9)) = some 9 ∧
    (stairs 0x200).mem.read 0x200 = 0 ∧ (atI 0xFFD).mem.read 0xFFF = 0 := by decide
theorem witness_OnlyCallAndRetUseTheStack : Instr.cls ≠ .ret ∧ (∀ nnn, Instr.cls ≠ .call nnn) ∧
    ∃ t, exec .cls running = .next t := ⟨by decide, by simp, _, rfl⟩
theorem witness_OnlyKeyWaitSuspends : running.runState = .run ∧
    see State.runState (exec (.ldVxK 3) running) = some .waitKey ∧
    see State.runState (exec .ret running) = some .halted := by decide
theorem witness_OnlyRndTakesARandomByte : running.out.rndReq = false ∧
    see (fun t => t.out.rndReq) (exec (.rnd 0 0) running) = some true := by decide
/-- Two cores that differ in the dead entry 1, above sp = 1. -/
theorem witness_DeadStackEntriesAreUnobservable :
    SameButDeadStack (depth 1) { depth 1 with stack := (depth 1).stack.set 1 0x300 } ∧
    (depth 1).stackAt 1 ≠ { depth 1 with stack := (depth 1).stack.set 1 0x300 }.stackAt 1 := by
  unfold SameButDeadStack; decide
theorem witness_TickCountsDown : running.runState = .run ∧ waiting.runState = .waitKey ∧
    State.reset.runState = .idle ∧ stopped.runState = .halted := by decide
/-- A core in each state on an edge without a step: no wrap of `step_cnt`, or a wrap in IDLE or HALTED. -/
theorem witness_DividerWrapsEveryDivEdges : (1 ≤ 1 ∧ afterEdges 3 7 = (1, 2)) ∧
    (running.stepCnt ≠ 2 - 1 ∧ running.runState ≠ .idle) ∧ (waiting.stepCnt ≠ 2 - 1 ∧ waiting.runState ≠ .idle) ∧
    (State.reset.runState = .idle ∧ Inputs.quiet.stop = false ∧ State.reset.stepCnt = 1 - 1) ∧
    (stopped.runState = .halted ∧ stopped.stepCnt = 1 - 1) := by decide
/-- FX15, FX18 and FX07 at 0x200, `step_cnt` about to wrap, `div_cnt` as given. -/
def dueAt (lo : Byte) (div : Nat) : State :=
  { running with mem := listed [(0x200, 0xF0), (0x201, lo)], divCnt := div, stepCnt := 0 }
theorem witness_TickComesBeforeStep (lo : Byte) :
    (dueAt lo 2).runState = .run ∧ Inputs.quiet.stop = false ∧ (dueAt lo 2).loaded = true ∧
    (dueAt lo 2).pc.toNat ≤ 0xFFE ∧ (dueAt lo 2).divCnt = 3 - 1 ∧ (dueAt lo 2).stepCnt = 1 - 1 ∧
    (dueAt lo 2).mem.read (dueAt lo 2).pc.toNat ++ (dueAt lo 2).mem.read ((dueAt lo 2).pc.toNat + 1) =
      0xF0#8 ++ lo :=
  ⟨rfl, rfl, rfl, Nat.le_of_ble_eq_true rfl, rfl, rfl, rfl⟩
theorem witness_TickComesBeforeStep_words : 0xF0#8 ++ 0x15#8 = encode (.ldDtVx 0) ∧
    0xF0#8 ++ 0x18#8 = encode (.ldStVx 0) ∧ 0xF0#8 ++ 0x07#8 = encode (.ldVxDt 0) := by decide
theorem witness_TickComesBeforeStep_no_tick : (dueAt 0x15 1).divCnt ≠ 3 - 1 ∧ waiting.runState = .waitKey ∧
    waiting.divCnt = 1 - 1 ∧ waiting.stepCnt = 1 - 1 := by decide
theorem witness_LoadProgramCopiesVerbatim : State.reset.runState = .idle ∧
    (List.replicate 3584 (0 : Byte)).length ≤ 3584 ∧ 3584 < (List.replicate 3585 (0 : Byte)).length ∧
    running.runState ≠ .idle :=
  ⟨rfl, Nat.le_of_eq List.length_replicate, List.length_replicate.symm ▸ by decide, by decide⟩
theorem witness_StartAndStopMoveTheCore : State.reset.runState = .idle ∧ running.runState ≠ .idle ∧
    waiting.runState ≠ .halted ∧ stopped.runState = .halted ∧ { Inputs.quiet with stop := true }.stop = true := by
  decide
theorem witness_HaltedUntilReset : State.reset.runState = .idle ∧ stopped.runState = .halted ∧
    { stopped with schedule := [.tick] }.nextMove.1 ≠ .rst ∧
    ∃ t, step { stopped with schedule := [.tick] } = .next t := ⟨rfl, rfl, by decide, _, rfl⟩
theorem witness_StrapIsHeldConstant : ∃ t, step { State.reset with schedule := [.rst], strict := false } = .next t :=
  ⟨_, rfl⟩
/-- A state that is not reset and meets the invariant: one entry on the stack, a byte written at 0x200. -/
theorem witness_StepKeepsInvariant :
    let s : State := { depth 1 with mem := listed [(0x200, 0x12)], schedule := [.step .quiet] }
    Inv s ∧ ∃ t, step s = .next t := by
  refine ⟨⟨by decide, by decide, by decide, by decide, by decide, by decide, by decide, by decide, ?_, ?_, by decide,
    by decide⟩, _, rfl⟩
  · exact Nat.succ_pos _
  · exact Nat.succ_pos _
/-- The loop JP 0x200, with no move listed. -/
def loop : State := { running with mem := listed [(0x200, 0x12)] }
/-- Its states: it runs JP 0x200 at 0x200, step by step and tick by tick. -/
def Looping (s : State) : Prop :=
  s.runState = .run ∧ s.loaded = true ∧ s.pc = 0x200 ∧ s.mem = listed [(0x200, 0x12)] ∧ s.schedule = []
theorem looping_step {s : State} (h : Looping s) : ∃ t, step s = .next t ∧ Looping t := by
  obtain ⟨hr, hl, hp, hm, hs⟩ := h
  cases hk : s.stepsToTick with
  | zero =>
    refine ⟨_, by rw [step, State.nextMove_tick hs hk]; rfl, ?_⟩
    simp [Looping, hr, hl, hp, hm, hs]
  | succ k =>
    refine ⟨_, by
      rw [step, State.nextMove_step hs hk]
      exact coreStep_instr (i := .jp 0x200) hr
        (fetch_instr rfl hl (by simp [hp]) (by simp only [State.latch_mem, State.latch_pc, hp, hm]; rfl)), ?_⟩
    simp [Looping, hr, hl, hm, hs, zextAddr]
/-- An infinite run in which the core never halts. -/
theorem witness_EveryRunIsFair : ∃ r : Run, ∀ n, (r.state n).runState ≠ .halted := by
  obtain ⟨r, -, h⟩ := exists_run loop ⟨rfl, rfl, rfl, rfl, rfl⟩ fun _ => looping_step
  exact ⟨r, fun n => by rw [(h n).1]; decide⟩
theorem witness_LowMemoryNeverChanges :
    let s : State := { State.reset with schedule := [.load [0x12]] }
    (∀ a < 0x200, s.mem.read a = s.mem.unlisted a) ∧ ∃ t, step s = .next t := ⟨fun _ _ => rfl, _, rfl⟩

end Sys2Proof.Tests
end

/-! PROOF. Stack entries at index ≥ sp cannot be observed, and only CALL and RET look at the stack (10_state.md R24,
R25). The idea: an operation that does not use the stack commutes with replacing it, `State.withStack`; that the
operation also leaves the stack alone follows, since replacing the stack by itself changes nothing. -/

namespace Sys2Proof.Machine

/-- `s` with any other call stack and pointer. -/
def State.withStack (s : State) (stack : Vector Word 16) (sp : BitVec 5) : State := { s with stack := stack, sp := sp }

/-- The next state of a result under a function; a stop is kept. -/
def mapNext (f : State → State) : Result → Result
  | .next s => .next (f s)
  | .fault r => .fault r
  | .refused r => .refused r

/-- The state a fetch comes to under a function. -/
def Fetched.map (f : State → State) : Fetched → Fetched
  | .instr i s => .instr i (f s)
  | .ended s => .ended (f s)

@[simp] theorem mapNext_next (f : State → State) (s : State) : mapNext f (.next s) = .next (f s) := rfl

@[simp] theorem State.withStack_self (s : State) : s.withStack s.stack s.sp = s := rfl

section
variable (s : State) (stack : Vector Word 16) (sp : BitVec 5)

@[simp] theorem State.withStack_runState : (s.withStack stack sp).runState = s.runState := rfl
@[simp] theorem State.withStack_inputs : (s.withStack stack sp).inputs = s.inputs := rfl
@[simp] theorem State.withStack_loaded : (s.withStack stack sp).loaded = s.loaded := rfl
@[simp] theorem State.withStack_strict : (s.withStack stack sp).strict = s.strict := rfl
@[simp] theorem State.withStack_divCnt : (s.withStack stack sp).divCnt = s.divCnt := rfl
@[simp] theorem State.withStack_stepCnt : (s.withStack stack sp).stepCnt = s.stepCnt := rfl
@[simp] theorem State.withStack_schedule : (s.withStack stack sp).schedule = s.schedule := rfl
@[simp] theorem State.withStack_stepsToTick : (s.withStack stack sp).stepsToTick = s.stepsToTick := rfl
@[simp] theorem fetchWord_withStack : fetchWord (s.withStack stack sp) = fetchWord s := rfl

/-! ## Operations that do not use the stack commute with replacing it -/

theorem State.tick_withStack : (s.withStack stack sp).tick = s.tick.withStack stack sp := by
  change (if s.runState.active then _ else _) = _
  unfold State.tick
  split <;> rfl

theorem State.writeRegs_withStack (first : Nat) (bytes : List Byte) :
    (s.withStack stack sp).writeRegs first bytes = (s.writeRegs first bytes).withStack stack sp := by
  induction bytes generalizing s first with
  | nil => rfl
  | cons b bs ih => exact ih (s.writeV (BitVec.ofNat 4 first) b) (first + 1)

theorem State.storeChecked_withStack (bytes : List Byte) :
    (s.withStack stack sp).storeChecked bytes = (s.storeChecked bytes).withStack stack sp := by
  rcases s.storeChecked_cases bytes with ⟨a, h, e⟩ | ⟨h, e⟩ <;> rw [e]
  · exact State.storeChecked_refused h
  · exact State.storeChecked_store h

theorem State.invalidOpcode_withStack (w : Word) :
    (s.withStack stack sp).invalidOpcode w = (s.invalidOpcode w).withStack stack sp := by
  change (if s.strict then _ else _) = _
  unfold State.invalidOpcode
  split <;> rfl

theorem waitStep_withStack : waitStep (s.withStack stack sp) = (waitStep s).withStack stack sp := by
  unfold waitStep
  cases hs : s.inputs.stop with
  | true => simp only [State.withStack_inputs, hs, if_true]; rfl
  | false =>
    simp only [State.withStack_inputs, hs, Bool.false_eq_true, if_false]
    cases s.inputs.keyEvent <;> rfl

theorem fetch_withStack : fetch (s.withStack stack sp) = (fetch s).map (·.withStack stack sp) := by
  unfold fetch
  cases hs : s.inputs.stop with
  | true => simp only [State.withStack_inputs, hs, if_true]; rfl
  | false =>
    cases hl : s.loaded with
    | false =>
      simp only [State.withStack_inputs, State.withStack_loaded, hs, hl, Bool.not_false, Bool.false_eq_true, if_false,
        if_true]
      rfl
    | true =>
      simp only [State.withStack_inputs, State.withStack_loaded, fetchWord_withStack, hs, hl, Bool.not_true,
        Bool.false_eq_true, if_false]
      cases fetchWord s with
      | error a => rfl
      | ok w =>
        dsimp only
        cases decodeWord w with
        | ok i => rfl
        | error e => exact congrArg Fetched.ended (s.logFetch.invalidOpcode_withStack stack sp w)

theorem State.startBy_withStack : (s.withStack stack sp).startBy = s.startBy.withStack stack sp := by
  simp only [State.startBy, State.withStack_runState]
  cases s.runState <;> rfl

theorem State.stopBy_withStack : (s.withStack stack sp).stopBy = s.stopBy.withStack stack sp := by
  simp only [State.stopBy, State.withStack_runState]
  cases s.runState <;> rfl

theorem State.sampleStop_withStack (stop : Bool) :
    (s.withStack stack sp).sampleStop stop = (s.sampleStop stop).withStack stack sp := by
  simp only [State.sampleStop, State.withStack_runState]
  cases s.runState with
  | idle => cases stop <;> rfl
  | _ => rfl

theorem loadProgram_withStack (bytes : List Byte) :
    loadProgram bytes (s.withStack stack sp) = mapNext (·.withStack stack sp) (loadProgram bytes s) := by
  simp only [loadProgram, State.withStack_runState]
  cases s.runState with
  | idle => dsimp only; split_ifs <;> rfl
  | _ => rfl

theorem State.clockEdge_withStack (td id : Nat) :
    (s.withStack stack sp).clockEdge td id =
      ((s.clockEdge td id).1.withStack stack sp, (s.clockEdge td id).2) := by
  simp only [State.clockEdge, State.withStack_divCnt, State.withStack_stepCnt, State.withStack_runState,
    State.tick_withStack]
  cases (divide td s.divCnt).2 <;> rfl

theorem State.nextMove_withStack :
    (s.withStack stack sp).nextMove = (s.nextMove.1, s.nextMove.2.withStack stack sp) := by
  simp only [State.nextMove, State.withStack_schedule, State.withStack_stepsToTick]
  split
  · rfl
  · split <;> rfl

/-- An instruction other than CALL and RET does the same whatever the stack holds. -/
theorem exec_withStack {i : Instr} (hret : i ≠ .ret) (hcall : ∀ nnn, i ≠ .call nnn) :
    exec i (s.withStack stack sp) = mapNext (·.withStack stack sp) (exec i s) := by
  cases i
  case ret => exact absurd rfl hret
  case call nnn => exact absurd rfl (hcall nnn)
  case drw x y n =>
    simp only [exec]
    cases h : firstRefused readRefused s.dataAddr n.toNat with
    | some a => rw [execDrw_refused h, execDrw_refused (s := s.withStack stack sp) h]; rfl
    | none => rw [execDrw_draw h, execDrw_draw (s := s.withStack stack sp) h]; rfl
  case ldB x => exact congrArg _ (s.storeChecked_withStack stack sp _)
  case ldMemVx x => exact congrArg _ (s.storeChecked_withStack stack sp _)
  case ldVxMem x =>
    simp only [exec]
    cases h : firstRefused readRefused s.dataAddr (rangeCount x) with
    | some a => rw [execLdVxMem_refused h, execLdVxMem_refused (s := s.withStack stack sp) h]; rfl
    | none =>
      rw [execLdVxMem_load h, execLdVxMem_load (s := s.withStack stack sp) h]
      exact congrArg (fun u : State => Host.Outcome.next u.advance)
        (State.writeRegs_withStack (s.loadBytes s.dataAddr (rangeCount x)).1 stack sp 0 _)
  all_goals rfl

end

end Sys2Proof.Machine

namespace Sys2Proof.Safety

open Sys2Proof.Machine

/-- The operation does the same whatever the call stack holds, and passes it on. -/
def StackBlind (f : State → Result) : Prop :=
  ∀ (s : State) (stack : Vector Word 16) (sp : BitVec 5),
    f (s.withStack stack sp) = mapNext (·.withStack stack sp) (f s)

theorem keepsStack_of_eq_withStack {s t : State} (h : t = t.withStack s.stack s.sp) : KeepsStack s t :=
  ⟨by rw [h]; rfl, by rw [h]; rfl⟩

/-- What does the same whatever the stack holds does not write it. -/
theorem StackBlind.keepsStack {f : State → Result} (hf : StackBlind f) {s t : State} (h : f s = .next t) :
    KeepsStack s t := by
  have e := hf s s.stack s.sp
  rw [State.withStack_self, h, mapNext_next] at e
  exact keepsStack_of_eq_withStack (Host.Outcome.next.inj e)

theorem stackBlind_exec {i : Instr} (hret : i ≠ .ret) (hcall : ∀ nnn, i ≠ .call nnn) : StackBlind (exec i) :=
  fun s stack sp => exec_withStack s stack sp hret hcall

/-- Settles O44: exchanging the stack commutes with every instruction but CALL and RET. -/
theorem onlyCallAndRetUseTheStack : Obligations.OnlyCallAndRetUseTheStack := by
  intro i hret hcall s t stack sp h
  have hi := stackBlind_exec hret hcall
  exact ⟨hi.keepsStack h, (hi s stack sp).trans (congrArg _ h)⟩

/-! ## Dead stack entries -/

theorem SameButDeadStack.eq_withStack {s t : State} (h : SameButDeadStack s t) : t = s.withStack t.stack s.sp := h.1

theorem SameButDeadStack.refl (s : State) : SameButDeadStack s s := ⟨rfl, fun _ _ => rfl⟩

/-- Where an operation takes `s` to `u` and leaves the stack alone, `u` is related to `u` with the stack of `t`. -/
theorem SameButDeadStack.withStack {s t u : State} (h : SameButDeadStack s t) (hu : KeepsStack s u) :
    SameButDeadStack u (u.withStack t.stack s.sp) := by
  obtain ⟨hsp, hstack⟩ := hu
  refine ⟨by rw [← hsp]; rfl, fun k hk => ?_⟩
  rw [hsp] at hk
  exact (h.2 k hk).trans (by rw [State.stackAt, State.stackAt, hstack])

/-- An operation that does the same whatever the stack holds takes related states to related results. -/
theorem StackBlind.sameResult {f : State → Result} (hf : StackBlind f) {s t : State} (h : SameButDeadStack s t) :
    SameResult (f s) (f t) := by
  rw [h.eq_withStack, hf]
  cases e : f s with
  | next u => exact h.withStack (hf.keepsStack e)
  | fault r => rfl
  | refused r => rfl

theorem SameButDeadStack.map {f : State → State} {s t : State} (h : SameButDeadStack s t)
    (hf : ∀ s stack sp, f (s.withStack stack sp) = (f s).withStack stack sp) : SameButDeadStack (f s) (f t) :=
  StackBlind.sameResult (f := fun s => .next (f s)) (fun s stack sp => congrArg _ (hf s stack sp)) h

theorem SameButDeadStack.sp_eq {s t : State} (h : SameButDeadStack s t) : t.sp = s.sp := by rw [h.eq_withStack]; rfl
theorem SameButDeadStack.pc_eq {s t : State} (h : SameButDeadStack s t) : t.pc = s.pc := by rw [h.eq_withStack]; rfl
theorem SameButDeadStack.runState_eq {s t : State} (h : SameButDeadStack s t) : t.runState = s.runState := by
  rw [h.eq_withStack]; rfl

/-- The popped entry is live, so both sides pop the same. -/
theorem execRet_sameResult {s t : State} (h : SameButDeadStack s t) : SameResult (execRet s) (execRet t) := by
  by_cases h0 : s.sp = 0
  · rw [execRet_empty h0, execRet_empty (h.sp_eq.trans h0)]
    exact h.map (f := (State.raise · .stackUnderflow 0)) fun _ _ _ => rfl
  · have hlive : (s.sp - 1).toNat < s.sp.toNat := by
      have h0' : s.sp.toNat ≠ 0 := fun e => h0 (BitVec.eq_of_toNat_eq e)
      rw [State.toNat_sp_sub_one h0]; omega
    have hpop : t.pop.2 = s.pop.2 := by
      rw [State.pop_target, State.pop_target, h.sp_eq]
      exact h.2 _ hlive
    rw [execRet_pop h0, execRet_pop (h.sp_eq.symm ▸ h0), hpop]
    refine ⟨?_, fun k hk => h.2 k (Nat.lt_trans hk hlive)⟩
    rw [h.eq_withStack]; rfl

/-- The entry pushed is the same on both sides, and becomes live. -/
theorem execCall_sameResult (nnn : Addr) {s t : State} (h : SameButDeadStack s t) :
    SameResult (execCall nnn s) (execCall nnn t) := by
  by_cases hfull : 16 ≤ s.sp.toNat
  · rw [execCall_full _ hfull, execCall_full _ (h.sp_eq.symm ▸ hfull), h.sp_eq]
    exact h.map (f := (State.raise · .stackOverflow (s.sp.setWidth 17))) fun _ _ _ => rfl
  · have hlt : s.sp.toNat < 16 := by omega
    rw [execCall_push _ hlt, execCall_push _ (h.sp_eq.symm ▸ hlt), h.pc_eq]
    refine ⟨?_, fun k hk => ?_⟩
    · rw [h.eq_withStack]; rfl
    · have hk' : k ≤ s.sp.toNat := by
        simp only [State.setPc_sp, State.push_sp] at hk
        bv_omega
      rw [State.stackAt_setPc, State.stackAt_setPc]
      rcases Nat.eq_or_lt_of_le hk' with rfl | hk'
      · rw [State.stackAt_push_top _ hlt, ← h.sp_eq, State.stackAt_push_top _ (h.sp_eq.symm ▸ hlt)]
      · have hk'' : k ≠ t.sp.toNat := by rw [h.sp_eq]; omega
        rw [State.stackAt_push_other _ hk'', State.stackAt_push_other _ (Nat.ne_of_lt hk')]
        exact h.2 k hk'

theorem exec_sameResult (i : Instr) {s t : State} (h : SameButDeadStack s t) :
    SameResult (exec i s) (exec i t) := by
  by_cases hret : i = .ret
  · subst hret; exact execRet_sameResult h
  · by_cases hcall : ∃ nnn, i = .call nnn
    · obtain ⟨nnn, rfl⟩ := hcall; exact execCall_sameResult nnn h
    · exact (stackBlind_exec hret (not_exists.1 hcall)).sameResult h

/-- The checks before dispatch see no stack: the instruction runs from two states that differ as before. -/
theorem coreStep_sameResult {s t : State} (h : SameButDeadStack s t) : SameResult (coreStep s) (coreStep t) := by
  cases hr : s.runState with
  | idle => rw [coreStep_idle hr, coreStep_idle (h.runState_eq.trans hr)]; rfl
  | halted => rw [coreStep_halted hr, coreStep_halted (h.runState_eq.trans hr)]; rfl
  | waitKey =>
    rw [coreStep_waitKey hr, coreStep_waitKey (h.runState_eq.trans hr)]
    exact h.map waitStep_withStack
  | run =>
    have hrt := h.runState_eq.trans hr
    have hself := fetch_withStack s s.stack s.sp
    have ht := fetch_withStack s t.stack s.sp
    rw [← h.eq_withStack] at ht
    rw [State.withStack_self] at hself
    cases e : fetch s with
    | instr i u =>
      rw [e] at hself ht
      rw [coreStep_instr hr e, coreStep_instr hrt ht]
      exact exec_sameResult i (h.withStack (keepsStack_of_eq_withStack (Fetched.instr.inj hself).2))
    | ended u =>
      rw [e] at hself ht
      rw [coreStep_ended hr e, coreStep_ended hrt ht]
      exact h.withStack (keepsStack_of_eq_withStack (Fetched.ended.inj hself))

theorem clkMove_sameResult (td id : Nat) (inp : Inputs) {s t : State} (h : SameButDeadStack s t) :
    SameResult (clkMove td id inp s) (clkMove td id inp t) := by
  have hedge : SameButDeadStack (s.clockEdge td id).1 (t.clockEdge td id).1 :=
    h.map (f := fun s => (s.clockEdge td id).1) fun s stack sp => by rw [State.clockEdge_withStack]
  have hdue : (t.clockEdge td id).2 = (s.clockEdge td id).2 := by rw [h.eq_withStack, State.clockEdge_withStack]
  cases hd : (s.clockEdge td id).2 with
  | true =>
    rw [clkMove_step hd, clkMove_step (hdue.trans hd)]
    exact coreStep_sameResult (hedge.map (f := (State.latch · inp)) fun _ _ _ => rfl)
  | false =>
    rw [clkMove_no_step hd, clkMove_no_step (hdue.trans hd)]
    exact (hedge.map (f := State.quietOut) fun _ _ _ => rfl).map (f := (State.sampleStop · inp.stop))
      fun s stack sp => State.sampleStop_withStack s stack sp inp.stop

theorem runMove_sameResult (m : Move) {s t : State} (h : SameButDeadStack s t) :
    SameResult (runMove m s) (runMove m t) := by
  have hq : SameButDeadStack s.quietOut t.quietOut := h.map (f := State.quietOut) fun _ _ _ => rfl
  cases m with
  | step inp => exact coreStep_sameResult (h.map (f := (State.latch · inp)) fun _ _ _ => rfl)
  | tick => exact hq.map State.tick_withStack
  | clk inp => exact clkMove_sameResult _ _ inp h
  | start => exact hq.map State.startBy_withStack
  | stop => exact hq.map State.stopBy_withStack
  | load bytes => exact StackBlind.sameResult (fun s stack sp => loadProgram_withStack s stack sp bytes) hq
  | rst =>
    have e : t.resetBy = s.resetBy := by rw [h.eq_withStack]; rfl
    rw [runMove, runMove, e]
    exact SameButDeadStack.refl _

/-- Settles O47: the next move is the same on both sides, and every move keeps the relation. -/
theorem deadStackEntriesAreUnobservable : Obligations.DeadStackEntriesAreUnobservable := by
  intro s t h
  have hmove : t.nextMove.1 = s.nextMove.1 := by rw [h.eq_withStack, State.nextMove_withStack]
  have hrest : SameButDeadStack s.nextMove.2 t.nextMove.2 :=
    h.map (f := fun s => s.nextMove.2) fun s stack sp => by rw [State.nextMove_withStack]
  rw [step, step, hmove]
  exact runMove_sameResult _ hrest

end Sys2Proof.Safety

/-! PROOF. What every move keeps: a property is kept by `step` when each operation a move is made of keeps it. -/

namespace Sys2Proof.Machine

/-! ## All that the host's operations can do (20_memory.md R53; 60_exceptions.md R215) -/

theorem State.startBy_cases (s : State) :
    (s.runState = .idle ∧ s.startBy = { s with runState := .run }) ∨ s.startBy = s := by
  unfold State.startBy
  cases s.runState <;> simp

theorem State.stopBy_cases (s : State) : s.stopBy = s.raise .stop 0 ∨ s.stopBy = s := by
  unfold State.stopBy
  cases s.runState <;> simp

theorem loadProgram_next {bytes : List Byte} {s t : State} (h : loadProgram bytes s = .next t) :
    (bytes.length ≤ 3584 ∧ t = s.placeProgram bytes) ∨ t = s.raiseOutOfBounds 0x1000 := by
  unfold loadProgram at h
  split at h
  · split at h <;> obtain rfl := Host.Outcome.next.inj h
    · exact .inl ⟨of_decide_eq_true ‹_›, rfl⟩
    · exact .inr rfl
  all_goals cases h

/-- `P` is kept by each operation a move is made of. -/
structure KeptByMoves (P : State → Prop) : Prop where
  nextMove : ∀ {s : State}, P s → P s.nextMove.2
  quietOut : ∀ {s : State}, P s → P s.quietOut
  tick : ∀ {s : State}, P s → P s.tick
  clockEdge : ∀ {s : State}, P s → P (s.clockEdge Config.timerDiv Config.instrDiv).1
  start : ∀ {s : State}, s.runState = .idle → P s → P { s with runState := .run }
  raise : ∀ {s : State} {e : HaltCause} (info : Info), e ≠ .none → P s → P (s.raise e info)
  placeProgram : ∀ {s : State} {bytes : List Byte}, bytes.length ≤ 3584 → P s → P (s.placeProgram bytes)
  reset : ∀ {s : State}, P s → P s.resetBy
  coreStep : ∀ {s t : State} {inp : Inputs}, coreStep (s.latch inp) = .next t → P s → P t

theorem KeptByMoves.runMove {P : State → Prop} (hP : KeptByMoves P) {m : Move} {s t : State} (h : P s)
    (hm : runMove m s = .next t) : P t := by
  have hq : P s.quietOut := hP.quietOut h
  cases m with
  | step inp => exact hP.coreStep hm h
  | tick => obtain rfl := Host.Outcome.next.inj hm; exact hP.tick hq
  | clk inp =>
    have he := hP.clockEdge h
    rw [Machine.runMove] at hm
    cases hd : (s.clockEdge Config.timerDiv Config.instrDiv).2 with
    | true => rw [clkMove_step hd] at hm; exact hP.coreStep hm he
    | false =>
      rw [clkMove_no_step hd] at hm
      obtain rfl := Host.Outcome.next.inj hm
      rcases State.sampleStop_cases _ inp.stop with ⟨-, -, e⟩ | ⟨-, e⟩ <;> rw [e]
      · exact hP.raise 0 (by decide) (hP.quietOut he)
      · exact hP.quietOut he
  | start =>
    obtain rfl := Host.Outcome.next.inj hm
    rcases s.quietOut.startBy_cases with ⟨hi, e⟩ | e <;> rw [e]
    · exact hP.start hi hq
    · exact hq
  | stop =>
    obtain rfl := Host.Outcome.next.inj hm
    rcases s.quietOut.stopBy_cases with e | e <;> rw [e]
    · exact hP.raise 0 (by decide) hq
    · exact hq
  | load bytes =>
    rcases loadProgram_next hm with ⟨hl, rfl⟩ | rfl
    · exact hP.placeProgram hl hq
    · exact hP.raise _ (by decide) hq
  | rst => obtain rfl := Host.Outcome.next.inj hm; exact hP.reset h

theorem KeptByMoves.step {P : State → Prop} (hP : KeptByMoves P) {s t : State} (h : P s)
    (hs : step s = .next t) : P t :=
  hP.runMove (hP.nextMove h) hs

end Sys2Proof.Machine

namespace Sys2Proof.Safety

open Sys2Proof.Machine

theorem keptByMoves_strict (b : Bool) : KeptByMoves fun s => s.strict = b where
  nextMove h := by rw [State.nextMove_snd]; exact h
  quietOut h := h
  tick h := by rw [State.tick_strict]; exact h
  clockEdge h := by rw [State.clockEdge_fst]; exact h
  start _ h := h
  raise _ _ h := h
  placeProgram _ h := h
  reset h := h
  coreStep hs h := by
    obtain ⟨⟨-, hstrict, -⟩, -, -⟩ := coreStep_keeps hs
    exact hstrict.trans h

/-- Settles O56: each operation a move is made of keeps the strap. -/
theorem strapIsHeldConstant : Obligations.StrapIsHeldConstant :=
  fun s _ h => (keptByMoves_strict s.strict).step rfl h

end Sys2Proof.Safety

/-! PROOF. The invariant `Inv`: reset meets it and every step keeps it. One rule per operation, then the instructions,
then the moves. -/

namespace Sys2Proof.Safety

open Sys2Proof.Machine

/-- `t` differs from `s` at most in what the invariant does not speak of: registers, I, timers, the halt registers
but the cause, `wait_x`, the pins and the moves to come. -/
def SameForInv (s t : State) : Prop :=
  t = { s with
    v := t.v, iReg := t.iReg, dt := t.dt, st := t.st, faultPc := t.faultPc, faultInfo := t.faultInfo
    waitX := t.waitX, inputs := t.inputs, schedule := t.schedule, stepsToTick := t.stepsToTick, draws := t.draws
    out := { t.out with requests := s.out.requests, bus := s.out.bus } }

section
variable {s t : State}

/-! ## The operations -/

theorem Inv.of_same (h : Inv s) (e : SameForInv s t) : Inv t := by
  rw [e]
  exact { h with }

theorem Inv.quietOut (h : Inv s) : Inv s.quietOut :=
  { h with oneRequest := Nat.zero_le _, busWrites := by simp [Outputs.quiet] }

theorem Inv.latch (h : Inv s) (inp : Inputs) : Inv (s.latch inp) := h.quietOut.of_same rfl

theorem Inv.raise (h : Inv s) {e : HaltCause} (info : Info) (he : e ≠ .none) : Inv (s.raise e info) :=
  { h with waiting := by simp, haltRecord := by simp [he] }

theorem Inv.setPc (h : Inv s) {w : Word} (hr : s.runState = .run) (hw : w.toNat ≤ 0x10FE) : Inv (s.setPc w) :=
  { h with programCounter := hw, waiting := by simp [hr] }

theorem Inv.advance (h : Inv s) (hr : s.runState = .run) (hp : s.pc.toNat ≤ 0xFFE) : Inv s.advance :=
  h.setPc hr (by bv_omega)

theorem Inv.skipIf (h : Inv s) (c : Bool) (hr : s.runState = .run) (hp : s.pc.toNat ≤ 0xFFE) : Inv (s.skipIf c) :=
  h.setPc hr (by split <;> bv_omega)

/-- A core that runs or waits has recorded no cause. -/
theorem Inv.haltCause_none (h : Inv s) (hr : s.runState ≠ .halted) : s.haltCause = .none := h.haltRecord.2 hr

theorem Inv.setRun (h : Inv s) (hr : s.runState ≠ .halted) : Inv { s with runState := .run } :=
  { h with waiting := by simp, haltRecord := by simp [h.haltCause_none hr] }

theorem Inv.enterWait (h : Inv s) (x : Nibble) (hr : s.runState = .run) (hp : s.pc.toNat ≤ 0xFFE)
    (hl : s.loaded = true) : Inv (s.enterWait x) :=
  { h with waiting := fun _ => ⟨hp, hl⟩, haltRecord := by simp [h.haltCause_none, hr] }

theorem Inv.markIllSeen (h : Inv s) (hs : s.strict = false) : Inv s.markIllSeen :=
  { h with illegalSeen := by simp [hs] }

theorem Inv.setDividers (h : Inv s) {d c : Nat} (hd : d < Config.timerDiv) (hc : c < Config.instrDiv) :
    Inv (s.setDividers d c) :=
  { h with timerDivider := hd, instrDivider := hc }

theorem Inv.emit (h : Inv s) (r : Request) (hq : s.out.requests = []) : Inv (s.emit r) :=
  { h with oneRequest := by simp [hq] }

theorem Inv.logBus (h : Inv s) {cs : List BusCycle}
    (hcs : ∀ c ∈ cs, c.we = true → Config.progBase ≤ c.addr.toNat) : Inv (s.logBus cs) :=
  { h with busWrites := fun c hc => (List.mem_append.1 hc).elim (h.busWrites c) (hcs c) }

/-- Reads put no write on the memory port. -/
theorem Inv.logReads (h : Inv s) (a : Nat) (bytes : List Byte) : Inv (s.logBus (busCycles false a bytes)) :=
  h.logBus fun c hc hwe => by simp [(mem_busCycles hc).1] at hwe

theorem Inv.writeBytes (h : Inv s) {a : Nat} {bytes : List Byte} (ha : 0x200 ≤ a) (hn : a + bytes.length ≤ 0x1000) :
    Inv { s with mem := s.mem.writeBytes a bytes } :=
  { h with
    memory := Memory.wf_writeBytes h.memory hn
    lowMemory := fun c hc => (Memory.mem_writeBytes hc).elim (h.lowMemory c) fun hr => ha.trans hr.1 }

theorem Inv.storeBytes (h : Inv s) {a : Nat} {bytes : List Byte} (ha : 0x200 ≤ a)
    (hn : a + bytes.length ≤ 0x1000) : Inv (s.storeBytes a bytes) := by
  refine (h.writeBytes ha hn).logBus fun c hc _ => ?_
  obtain ⟨-, k, hk, e⟩ := mem_busCycles hc
  rw [e, BitVec.toNat_ofNat, Nat.mod_eq_of_lt (by omega)]
  exact ha.trans (Nat.le_add_right a k)

theorem Inv.placeProgram (h : Inv s) {bytes : List Byte} (hn : bytes.length ≤ 3584) : Inv (s.placeProgram bytes) :=
  { h.writeBytes (bytes := bytes) (le_refl 0x200) (by omega) with
    waiting := fun hw => ⟨(h.waiting hw).1, rfl⟩ }

/-- An index past the array reads 0. -/
theorem Inv.stackAt_le (h : Inv s) (k : Nat) : (s.stackAt k).toNat ≤ 0x1000 := by
  unfold State.stackAt
  by_cases hk : k < 16
  · rw [Vector.getElem?_eq_getElem hk]; exact h.returnAddresses ⟨k, hk⟩
  · rw [Vector.getElem?_eq_none (by omega)]; decide

theorem Inv.push (h : Inv s) {w : Word} (hsp : s.sp.toNat < 16) (hw : w.toNat ≤ 0x1000) : Inv (s.push w) :=
  { h with
    stackPointer := by simp only [State.push_sp, Config.stackDepth]; bv_omega
    returnAddresses := fun k => by
      simp only [State.push_stack, Fin.getElem_fin, Vector.getElem_setIfInBounds]
      split
      · exact hw
      · exact h.returnAddresses k }

theorem Inv.pop (h : Inv s) (hsp : s.sp ≠ 0) : Inv s.pop.1 :=
  { h with
    stackPointer := by
      have := h.stackPointer
      rw [State.pop_sp, State.toNat_sp_sub_one hsp]; omega }

theorem Inv.tick (h : Inv s) : Inv s.tick := by
  unfold State.tick
  split
  · exact h.of_same rfl
  · exact h

theorem Inv.clockEdge (h : Inv s) : Inv (s.clockEdge Config.timerDiv Config.instrDiv).1 := by
  rw [State.clockEdge_fst]
  exact (h.setDividers (divide_lt h.timerDivider) (divide_lt h.instrDivider)).of_same rfl

/-! ## Reset -/

/-- Reset meets the invariant, whatever the parameter FONT and the strap. -/
theorem inv_resetWith (font : Vector Byte 80) (strict : Bool) :
    Inv { State.resetWith font with strict := strict } where
  memory := Memory.wf_nil font
  lowMemory := by simp
  stackPointer := by simp
  returnAddresses k := by simp
  programCounter := by simp
  waiting := by simp
  haltRecord := by simp
  illegalSeen _ := rfl
  timerDivider := Nat.succ_pos _
  instrDivider := Nat.succ_pos _
  oneRequest := Nat.zero_le _
  busWrites := by simp [Outputs.quiet]

theorem inv_resetBy (s : State) : Inv s.resetBy := (inv_resetWith s.mem.font s.strict).of_same rfl

/-- Settles O57. -/
theorem resetMeetsInvariant : Obligations.ResetMeetsInvariant :=
  ⟨inv_resetWith Config.defaultFont true, fun font => inv_resetWith font true⟩

/-! ## The instructions -/

/-- What a step has established when an instruction is dispatched (30_encoding.md R70 to R73). -/
structure AtDispatch (s : State) : Prop where
  inv : Inv s
  running : s.runState = .run
  loaded : s.loaded = true
  fetched : s.pc.toNat ≤ 0xFFE
  noRequest : s.out.requests = []

/-- An instruction that moves pc on and else only writes what the invariant does not speak of. -/
theorem AtDispatch.advance (h : AtDispatch s) (e : SameForInv s t) : Inv t.advance :=
  (h.inv.of_same e).advance (by rw [e]; exact h.running) (by rw [e]; exact h.fetched)

theorem AtDispatch.skipIf (h : AtDispatch s) (c : Bool) (e : SameForInv s t) : Inv (t.skipIf c) :=
  (h.inv.of_same e).skipIf c (by rw [e]; exact h.running) (by rw [e]; exact h.fetched)

theorem AtDispatch.jump (h : AtDispatch s) (nnn : Addr) : Inv (s.setPc (zextAddr nnn)) :=
  h.inv.setPc h.running (by have := nnn.isLt; simp [zextAddr]; omega)

theorem toNat_computedTarget_le (s : State) (nnn : Addr) : (s.computedTarget nnn).toNat ≤ 0x10FE := by
  have := nnn.isLt
  have := (s.readV 0).isLt
  simp [State.computedTarget, zextByte, zextAddr]; omega

theorem AtDispatch.storeBytes (h : AtDispatch s) {bytes : List Byte} (ha : 0x200 ≤ s.dataAddr)
    (hn : s.dataAddr + bytes.length ≤ 0x1000) : Inv (s.storeBytes s.dataAddr bytes).advance :=
  (h.inv.storeBytes ha hn).advance h.running h.fetched

theorem AtDispatch.exec {i : Instr} (h : AtDispatch s) (he : exec i s = .next t) : Inv t := by
  refine exec_next_elim (P := fun _ u => Inv u) he ?_ ?ret ?_ ?call ?_ ?drw ?_ ?ldB ?_ ?store ?_ ?load ?others
  case ret =>
    intro hsp
    exact (h.inv.pop hsp).setPc h.running (by rw [State.pop_target]; exact (h.inv.stackAt_le _).trans (by decide))
  case call =>
    intro nnn hsp
    have hret : (s.pc + 2).toNat ≤ 0x1000 := by have := h.fetched; bv_omega
    exact (h.inv.push hsp hret).setPc h.running (by have := nnn.isLt; simp [zextAddr]; omega)
  case drw =>
    intro x y n _
    exact Inv.advance (((h.inv.logReads _ _).emit _ h.noRequest).of_same rfl) h.running h.fetched
  case ldB => exact fun x ha hn => h.storeBytes ha hn
  case store => exact fun x ha hn => h.storeBytes ha (by rwa [State.length_regs])
  case load =>
    intro x _
    rw [State.writeRegs_eq]
    exact Inv.advance ((h.inv.logReads _ _).of_same rfl) h.running h.fetched
  case others =>
    intro j u hj hret hcall hdrw hldB hstore hload
    cases j
    case ret | call | drw | ldB | ldMemVx | ldVxMem => simp at hret hcall hdrw hldB hstore hload
    all_goals obtain rfl := Host.Outcome.next.inj hj
    case cls => exact (h.inv.emit _ h.noRequest).advance h.running h.fetched
    case jp nnn => exact h.jump nnn
    case jpV0 nnn => exact h.inv.setPc h.running (toNat_computedTarget_le s nnn)
    case ldVxK x => exact h.inv.enterWait x h.running h.fetched h.loaded
    case seImm | sneImm | seReg | sneReg | skp | sknp => exact h.skipIf _ rfl
    all_goals exact h.advance rfl
  all_goals intros; exact h.inv.raise _ (by decide)

/-! ## The step -/

theorem Inv.waitStep (h : Inv s) (hr : s.runState = .waitKey) : Inv (waitStep s) := by
  rcases waitStep_cases s with ⟨-, e⟩ | ⟨-, -, e⟩ | ⟨-, k, -, e⟩ <;> rw [e]
  · exact h.raise 0 (by decide)
  · exact h
  · have hrun : Inv { s with runState := .run } := h.setRun (by simp [hr])
    exact Inv.advance (hrun.of_same rfl) rfl (h.waiting hr).1

/-- A step begins with no request of its own, which a draw or a clear then makes. -/
theorem Inv.coreStep (h : Inv s) (hq : s.out.requests = []) (hs : coreStep s = .next t) : Inv t := by
  cases hr : s.runState with
  | idle => rw [coreStep_idle hr] at hs; cases hs
  | halted => rw [coreStep_halted hr] at hs; cases hs
  | waitKey =>
    rw [coreStep_waitKey hr] at hs
    obtain rfl := Host.Outcome.next.inj hs
    exact h.waitStep hr
  | run =>
    have hfetch : Inv s.logFetch := h.logReads _ _
    rcases fetch_cases s with ⟨e, info, hf, he⟩ | ⟨w, -, hf⟩ | ⟨hp, hstrict, hf⟩ | ⟨hl, hp, i, -, hf⟩
    · obtain rfl := Host.Outcome.next.inj ((coreStep_ended hr hf).symm.trans hs)
      exact h.raise info he
    · obtain rfl := Host.Outcome.next.inj ((coreStep_ended hr hf).symm.trans hs)
      exact hfetch.raise w (by decide)
    · obtain rfl := Host.Outcome.next.inj ((coreStep_ended hr hf).symm.trans hs)
      exact (hfetch.markIllSeen hstrict).advance hr hp
    · rw [coreStep_instr hr hf] at hs
      exact AtDispatch.exec ⟨hfetch, hr, hl, hp, hq⟩ hs

end

theorem keptByMoves_inv : KeptByMoves Inv where
  nextMove h := by rw [State.nextMove_snd]; exact h.of_same rfl
  quietOut h := h.quietOut
  tick h := h.tick
  clockEdge h := h.clockEdge
  start hi h := h.setRun (by simp [hi])
  raise info he h := h.raise info he
  placeProgram hn h := h.placeProgram hn
  reset {s} _ := inv_resetBy s
  coreStep hs h := (h.latch _).coreStep rfl hs

/-- Settles O58: each operation a move is made of keeps the invariant. -/
theorem stepKeepsInvariant : Obligations.StepKeepsInvariant := fun _ _ h hs => keptByMoves_inv.step h hs

end Sys2Proof.Safety

/-! PROOF. The register file: a register changes only as a destination or as VF of a flag-setting instruction
(10_state.md R21). Then the reset values (R30) and the status port (R28). -/

namespace Sys2Proof.Safety

open Sys2Proof.Machine

/-- A result and its flag change no register but Vx and VF. -/
theorem readV_writeResultFlag_other {s : State} {x r : Nibble} {b : Byte} {f : Bool} (hx : r ≠ x) (hf : r ≠ VF) :
    (s.writeResultFlag x b f).readV r = s.readV r := by
  rw [State.writeResultFlag_eq, State.readV_writeV, State.readV_writeV, if_neg (Ne.symm hf), if_neg (Ne.symm hx)]

theorem readV_writeV_other {s : State} {x r : Nibble} {b : Byte} (hx : r ≠ x) :
    (s.writeV x b).readV r = s.readV r := by
  rw [State.readV_writeV, if_neg (Ne.symm hx)]

/-- FX65 changes no register above Vx. -/
theorem readV_writeRegs_above {s : State} {x r : Nibble} {bytes : List Byte} (hn : bytes.length = rangeCount x)
    (hr : x.toNat < r.toNat) : (s.writeRegs 0 bytes).readV r = s.readV r := by
  have hx := x.isLt
  rw [rangeCount] at hn
  rw [State.readV_writeRegs _ _ _ _ (by omega), dif_neg (by omega)]

theorem exec_readV_eq {i : Instr} {s t : State} {r : Nibble} (h : exec i s = .next t)
    (hdest : isDestination r i = false) (hflag : r = VF → setsFlag i = false) : t.readV r = s.readV r := by
  revert hdest hflag
  refine exec_next_elim
    (P := fun i t => isDestination r i = false → (r = VF → setsFlag i = false) → t.readV r = s.readV r) h
    ?_ ?_ ?_ ?_ ?_ ?drw ?_ ?_ ?_ ?_ ?_ ?load ?others
  case drw =>
    intro x y n _ _ hflag
    exact readV_writeV_other fun e => absurd (hflag e) (by simp [setsFlag])
  case load =>
    intro x _ hdest _
    exact readV_writeRegs_above (Memory.length_readBytes _ _ _) (by simpa [isDestination] using hdest)
  case others =>
    intro j u hj hret hcall hdrw hldB hstore hload hdest hflag
    cases j
    case ret | call | drw | ldB | ldMemVx | ldVxMem => simp at hret hcall hdrw hldB hstore hload
    all_goals obtain rfl := Host.Outcome.next.inj hj
    case addReg | subReg | shr | subnReg | shl =>
      exact readV_writeResultFlag_other (ne_of_beq_false hdest) fun e => absurd (hflag e) (by simp [setsFlag])
    case ldImm | addImm | ldReg | orReg | andReg | xorReg | rnd | ldVxDt =>
      exact readV_writeV_other (ne_of_beq_false hdest)
    all_goals rfl
  all_goals intros; rfl

/-- Settles O42. -/
theorem registersChangeOnlyAsDestination : Obligations.RegistersChangeOnlyAsDestination := by
  intro i s t r h hne
  by_contra hnot
  rw [not_or, not_and, Bool.not_eq_true] at hnot
  obtain ⟨hdest, hflag⟩ := hnot
  exact hne (exec_readV_eq h hdest fun e => Bool.eq_false_of_not_eq_true (hflag e))

/-! ## Reset and the status port -/

/-- The reset values of 10_state.md R30, memory's first 80 bytes being those of `f`. -/
def AtResetValues (f : Vector Byte 80) (u : State) : Prop :=
  (∀ r, u.readV r = 0) ∧ u.iReg = 0 ∧ u.pc = 0x200 ∧ u.sp = 0 ∧ (∀ k < 16, u.stack[k]? = some 0) ∧ u.dt = 0 ∧
  u.st = 0 ∧ (∀ a < 80, f[a]? = some (u.mem.read a)) ∧ (∀ a, 80 ≤ a → a ≤ 0xFFF → u.mem.read a = 0) ∧
  u.runState = .idle ∧ u.haltCause = .none ∧ u.faultPc = 0 ∧ u.faultInfo = 0 ∧ u.loaded = false ∧
  u.illSeen = false ∧ u.waitX = 0 ∧ u.divCnt = 0 ∧ u.stepCnt = 0

theorem reset_read_font (f : Vector Byte 80) {a : Nat} (ha : a < 80) :
    f[a]? = some (Memory.read { font := f, cells := [] } a) := by
  simp [Memory.unlisted, ha]

theorem reset_read_zero (f : Vector Byte 80) {a : Nat} (ha : 80 ≤ a) :
    Memory.read { font := f, cells := [] } a = 0 := by
  simp [Memory.unlisted, ha]

theorem replicate_zero_readV {s : State} (h : s.v = Vector.replicate 16 0) (r : Nibble) : s.readV r = 0 := by
  simp [State.readV_eq, h]

theorem atResetValues_resetBy (s : State) : AtResetValues s.mem.font s.resetBy :=
  ⟨replicate_zero_readV rfl, rfl, rfl, rfl, fun k hk => by simp [hk], rfl, rfl, fun _ => reset_read_font _,
    fun _ ha _ => reset_read_zero _ ha, rfl, rfl, rfl, rfl, rfl, rfl, rfl, rfl, rfl⟩

/-- Settles O54: reset from any state, and so reset itself, whose own reset is itself. -/
theorem resetPutsEveryStateAtItsValue : Obligations.ResetPutsEveryStateAtItsValue := by
  intro s font
  refine ⟨s.resetBy, rfl, fun u f hu => ?_⟩
  simp only [List.mem_cons, Prod.mk.injEq, List.not_mem_nil, or_false] at hu
  rcases hu with ⟨rfl, rfl⟩ | ⟨rfl, rfl⟩ | ⟨rfl, rfl⟩
  · exact atResetValues_resetBy (State.resetWith _)
  · exact atResetValues_resetBy State.reset
  · exact atResetValues_resetBy s

/-- Code 7 is never written (10_state.md R28). -/
theorem haltCause_code_ne_seven (e : HaltCause) : e.code ≠ 7 := by cases e <;> decide

/-- Settles O55: the port shows each register, or its code. -/
theorem statusPortShowsTheCodes : Obligations.StatusPortShowsTheCodes :=
  ⟨⟨rfl, rfl, rfl, rfl⟩, ⟨rfl, rfl, rfl, rfl, rfl, rfl, rfl⟩, haltCause_code_ne_seven,
    fun _ => ⟨rfl, rfl, rfl, rfl, rfl, rfl⟩⟩

end Sys2Proof.Safety

/-! PROOF. Memory and its bytes: the two bytes of an instruction (20_memory.md R47), the host's load (R53), which
operations write memory and where (R44), and the fetch that follows a store (R51). -/

namespace Sys2Proof

/-! ## Bytes of an instruction -/

/-- The decoder reads back what the encoder assembled: each format's fields are those the word was put together from
(30_encoding.md R61, R64). -/
theorem decodeWord_encode (i : Instr) : decodeWord (encode i) = .ok i := by
  cases i
  case cls | ret => rfl
  case jp | call | ldI | jpV0 => simp [encode, decodeWord]
  case seImm | sneImm | ldImm | addImm | rnd => simp [encode, decodeWord]
  case drw => simp [encode, decodeWord]
  case seReg | sneReg => simp [encode, decodeWord, decodeLow0]
  case ldReg | orReg | andReg | xorReg | addReg | subReg | shr | subnReg | shl =>
    simp [encode, decodeWord, decodeClass8]
  case skp | sknp => simp [encode, decodeWord, decodeClassE]
  all_goals simp [encode, decodeWord, decodeClassF]

theorem decodeBytes_encodeBytes (i : Instr) (rest : List Byte) :
    decodeBytes (encodeBytes i ++ rest) = .ok (i, rest) :=
  decodeBytes_two.2 (by rw [hiByte_append_loByte, decodeWord_encode])

/-- Settles O5. -/
theorem bytesAreBigEndian : Obligations.BytesAreBigEndian :=
  fun i rest => ⟨rfl, decodeBytes_encodeBytes i rest⟩

end Sys2Proof

namespace Sys2Proof.Machine

/-! ## The host's load -/

theorem loadProgram_fits {bytes : List Byte} {s : State} (hr : s.runState = .idle) (hn : bytes.length ≤ 3584) :
    loadProgram bytes s = .next (s.placeProgram bytes) := by
  have hwf : Image.wf bytes = true := decide_eq_true hn
  simp only [loadProgram, hr, hwf, if_true]

theorem loadProgram_tooLong {bytes : List Byte} {s : State} (hr : s.runState = .idle) (hn : 3584 < bytes.length) :
    loadProgram bytes s = .next (s.raiseOutOfBounds 0x1000) := by
  have hwf : Image.wf bytes = false := decide_eq_false (Nat.not_le.2 hn)
  simp only [loadProgram, hr, hwf]
  rfl

theorem loadProgram_outsideIdle {bytes : List Byte} {s : State} (hr : s.runState ≠ .idle) :
    loadProgram bytes s = .refused .loadOutsideIdle := by
  unfold loadProgram
  cases h : s.runState with
  | idle => exact absurd h hr
  | _ => rfl

/-! ## What a step writes to memory -/

/-- The instruction leaves memory as it is, or it is FX33 or FX55 and writes its bytes at I, all in 0x200..0xFFF. -/
def KeepsOrStores (s : State) (i : Instr) (t : State) : Prop :=
  t.mem = s.mem ∨
  ∃ bytes, 0x200 ≤ s.dataAddr ∧ s.dataAddr + bytes.length ≤ 0x1000 ∧ t.mem = s.mem.writeBytes s.dataAddr bytes ∧
    ((∃ x, i = .ldB x ∧ bytes.length = 3) ∨ ∃ x, i = .ldMemVx x ∧ bytes.length = rangeCount x)

theorem exec_keepsOrStores {i : Instr} {s t : State} (h : exec i s = .next t) : KeepsOrStores s i t := by
  refine exec_next_elim (P := KeepsOrStores s) h
    ?_ ?_ ?_ ?_ ?_ ?_ ?_ ?ldB ?_ ?store ?_ ?load ?others
  case ldB => exact fun x ha hn => .inr ⟨bcdDigits (s.readV x), ha, hn, rfl, .inl ⟨x, rfl, rfl⟩⟩
  case store =>
    exact fun x ha hn => .inr ⟨_, ha, by rwa [State.length_regs], rfl, .inr ⟨x, rfl, State.length_regs s x⟩⟩
  case load => intro x _; rw [State.writeRegs_eq]; exact .inl rfl
  case others =>
    intro j u hj hret hcall hdrw hldB hstore hload
    cases j
    case ret | call | drw | ldB | ldMemVx | ldVxMem => simp at hret hcall hdrw hldB hstore hload
    all_goals obtain rfl := Host.Outcome.next.inj hj; exact .inl rfl
  all_goals intros; exact .inl rfl

/-- A step leaves memory as it is or writes bytes from an address at or above 0x200. -/
theorem coreStep_mem_cases {s t : State} (h : coreStep s = .next t) :
    t.mem = s.mem ∨ ∃ a bytes, 0x200 ≤ a ∧ t.mem = s.mem.writeBytes a bytes := by
  cases hr : s.runState with
  | idle => rw [coreStep_idle hr] at h; cases h
  | halted => rw [coreStep_halted hr] at h; cases h
  | waitKey =>
    rw [coreStep_waitKey hr] at h
    obtain rfl := Host.Outcome.next.inj h
    rcases waitStep_cases s with ⟨-, e⟩ | ⟨-, -, e⟩ | ⟨-, k, -, e⟩ <;> rw [e] <;> exact .inl rfl
  | run =>
    rcases fetch_cases s with ⟨e, info, hf, -⟩ | ⟨w, -, hf⟩ | ⟨-, -, hf⟩ | ⟨-, -, i, -, hf⟩
    · obtain rfl := Host.Outcome.next.inj ((coreStep_ended hr hf).symm.trans h); exact .inl rfl
    · obtain rfl := Host.Outcome.next.inj ((coreStep_ended hr hf).symm.trans h); exact .inl rfl
    · obtain rfl := Host.Outcome.next.inj ((coreStep_ended hr hf).symm.trans h); exact .inl rfl
    · rw [coreStep_instr hr hf] at h
      exact (exec_keepsOrStores h).imp_right fun ⟨bytes, ha, _, e, _⟩ => ⟨_, bytes, ha, e⟩

/-! ## A fetch after a store -/

/-- The decimal digits in exact arithmetic (43_alu.md R130). -/
theorem bcdDigits_eq (b : Byte) :
    bcdDigits b =
      [BitVec.ofNat 8 (b.toNat / 100), BitVec.ofNat 8 (b.toNat / 10 % 10), BitVec.ofNat 8 (b.toNat % 10)] := by
  have hb := b.isLt
  have hundreds : b / 100 = BitVec.ofNat 8 (b.toNat / 100) := by apply BitVec.eq_of_toNat_eq; simp; omega
  have tens : b / 10 % 10 = BitVec.ofNat 8 (b.toNat / 10 % 10) := by apply BitVec.eq_of_toNat_eq; simp; omega
  have ones : b % 10 = BitVec.ofNat 8 (b.toNat % 10) := by apply BitVec.eq_of_toNat_eq; simp; omega
  rw [bcdDigits, hundreds, tens, ones]

/-- Bytes stored at pc + 2 begin with the word that is fetched once pc has moved on. -/
theorem fetchWord_storeBytes_advance {s : State} {bytes : List Byte} (hn : 2 ≤ bytes.length)
    (hend : s.pc.toNat + 2 + bytes.length ≤ 0x1000) :
    fetchWord (s.storeBytes (s.pc.toNat + 2) bytes).advance = .ok (bytes[0] ++ bytes[1]) := by
  have hpc : (s.storeBytes (s.pc.toNat + 2) bytes).advance.pc.toNat = s.pc.toNat + 2 := by
    rw [State.advance_pc, State.storeBytes_pc]; bv_omega
  have first := Memory.read_writeBytes_inside bytes s.mem (s.pc.toNat + 2) 0 (by omega)
  have second := Memory.read_writeBytes_inside bytes s.mem (s.pc.toNat + 2) 1 (by omega)
  rw [fetchWord_ok (by omega), hpc, State.advance_mem, State.storeBytes_mem, second]
  exact congrArg (fun b => Except.ok (b ++ bytes[1])) first

end Sys2Proof.Machine

namespace Sys2Proof.Safety

open Sys2Proof.Machine

/-- Settles O34: either store answers, and its first two bytes make the word. -/
theorem nextFetchSeesStore : Obligations.NextFetchSeesStore := by
  refine ⟨fun s x hx hI hlo hhi => ?_, fun s x hI hlo hhi => ?_⟩
  · have hlen : (s.regs (rangeCount x)).length = x.toNat + 1 := State.length_regs s x
    refine ⟨_, execLdMemVx_store (firstRefused_write_eq_none.2 (.inr ⟨hlo, by rw [rangeCount]; omega⟩)), ?_⟩
    rw [hI, fetchWord_storeBytes_advance (by omega) (by omega), State.getElem_regs, State.getElem_regs]
    rfl
  · refine ⟨_, execLdB_store (firstRefused_write_eq_none.2 (.inr ⟨hlo, hhi⟩)), ?_⟩
    rw [hI, bcdDigits_eq]
    exact fetchWord_storeBytes_advance (by simp) (by simpa [hI] using hhi)

/-- Settles O43: a byte outside the range an instruction stores to is as before. -/
theorem onlyTwoInstructionsStore : Obligations.OnlyTwoInstructionsStore := by
  intro i s t a h hne
  rcases exec_keepsOrStores h with e | ⟨bytes, hlo, hhi, e, hi⟩
  · exact absurd (congrArg (Memory.read · a) e) hne
  · have hin : s.dataAddr ≤ a ∧ a < s.dataAddr + bytes.length := by
      by_contra hout
      exact hne (by rw [e, Memory.read_writeBytes_outside _ _ (by omega)])
    refine ⟨by omega, by omega, hin.1, hi.imp ?_ ?_⟩
    · rintro ⟨x, rfl, hn⟩
      exact ⟨x, rfl, by omega⟩
    · rintro ⟨x, rfl, hn⟩
      rw [rangeCount] at hn
      exact ⟨x, rfl, by omega⟩

/-- The halt entry writes the four registers of 60_exceptions.md R202 and nothing else. -/
theorem haltsWith_raise (s : State) (e : HaltCause) (info : Info) : HaltsWith e info s (s.raise e info) :=
  ⟨rfl, rfl, rfl, rfl, ⟨fun _ _ => rfl, rfl, rfl, ⟨rfl, rfl⟩, ⟨rfl, rfl⟩, fun _ => rfl⟩, rfl,
    ⟨rfl, rfl, rfl, rfl⟩, ⟨rfl, rfl, rfl, rfl, rfl, rfl⟩, rfl⟩

/-- Settles O51: in IDLE by the program's length, and outside IDLE. -/
theorem loadProgramCopiesVerbatim : Obligations.LoadProgramCopiesVerbatim := by
  refine fun s bytes => ⟨fun hr hn => ⟨_, loadProgram_fits hr hn, ?_⟩, fun hr hn => ?_, fun hr => ?_⟩
  · have hcopied : ∀ k (h : k < bytes.length), (s.quietOut.placeProgram bytes).mem.read (0x200 + k) = bytes[k] :=
      Memory.read_writeBytes_inside bytes s.mem 0x200
    have houtside : KeepsMemOutside 0x200 bytes.length s (s.quietOut.placeProgram bytes) :=
      fun _ hb => Memory.read_writeBytes_outside bytes s.mem hb
    have hworld : KeepsWorld s (s.quietOut.placeProgram bytes) :=
      ⟨Memory.font_writeBytes bytes s.mem 0x200, rfl, rfl, rfl, rfl, rfl⟩
    exact ⟨rfl, hcopied, houtside, fun _ _ => rfl, rfl, rfl, ⟨rfl, rfl⟩, ⟨rfl, rfl⟩, hr, ⟨rfl, rfl, rfl⟩, rfl, rfl,
      rfl, rfl, hworld⟩
  · exact ⟨_, loadProgram_tooLong hr hn, haltsWith_raise _ _ _⟩
  · exact loadProgram_outsideIdle hr

/-! ## Low memory -/

/-- The parameter FONT and the bytes below 0x200 are those `m` has at reset (20_memory.md R41, R42). -/
def LowMemoryAtReset (m : Memory) (s : State) : Prop :=
  s.mem.font = m.font ∧ ∀ a < 0x200, s.mem.read a = m.unlisted a

theorem LowMemoryAtReset.of_mem_eq {m : Memory} {s t : State} (h : LowMemoryAtReset m s) (e : t.mem = s.mem) :
    LowMemoryAtReset m t := by
  rw [LowMemoryAtReset, e]; exact h

theorem LowMemoryAtReset.of_writeBytes {m : Memory} {s t : State} {b : Nat} {bytes : List Byte}
    (h : LowMemoryAtReset m s) (hb : 0x200 ≤ b) (e : t.mem = s.mem.writeBytes b bytes) : LowMemoryAtReset m t := by
  obtain ⟨hfont, hlow⟩ := h
  rw [LowMemoryAtReset, e]
  refine ⟨(Memory.font_writeBytes bytes s.mem b).trans hfont, fun a ha => ?_⟩
  rw [Memory.read_writeBytes_outside _ _ (.inl (by omega)), hlow a ha]

theorem LowMemoryAtReset.resetBy {m : Memory} {s : State} (h : LowMemoryAtReset m s) :
    LowMemoryAtReset m s.resetBy := by
  refine ⟨h.1, fun a _ => ?_⟩
  rw [State.resetBy_mem, Memory.read_nil, Memory.unlisted, Memory.unlisted, h.1]

theorem keptByMoves_lowMemoryAtReset (m : Memory) : KeptByMoves (LowMemoryAtReset m) where
  nextMove h := h.of_mem_eq (by rw [State.nextMove_snd])
  quietOut h := h
  tick h := h.of_mem_eq (State.tick_mem _)
  clockEdge h := h.of_mem_eq (by rw [State.clockEdge_fst])
  start _ h := h
  raise _ _ h := h
  placeProgram _ h := h.of_writeBytes (le_refl 0x200) rfl
  reset h := h.resetBy
  coreStep hs h := by
    rcases coreStep_mem_cases hs with e | ⟨a, bytes, ha, e⟩
    · exact h.of_mem_eq e
    · exact h.of_writeBytes ha e

/-- Settles O59: each operation a move is made of keeps FONT and the bytes below 0x200. -/
theorem lowMemoryNeverChanges : Obligations.LowMemoryNeverChanges :=
  fun s _ hlow h => (keptByMoves_lowMemoryAtReset s.mem).step ⟨rfl, hlow⟩ h

end Sys2Proof.Safety

/-! PROOF. The decoder against the opcode map: a word either is the encoding of what it decodes to or is rejected by
name, and each row of the map is decoded to an instruction of that row (30_encoding.md R64, R65). -/

namespace Sys2Proof

/-- Settles O1, format by format. -/
theorem decodeOfEncode : Obligations.DecodeOfEncode := decodeWord_encode

/-! ## A word and what it decodes to -/

/-- What a decoder may answer on a word: an instruction that encodes to that word, or the rejection of that word. -/
inductive Faithful (w : Word) : Except DecodeError Instr → Prop
  | ok {i : Instr} (h : encode i = w) : Faithful w (.ok i)
  | invalid : Faithful w (.error (.invalidOpcode w))

section
variable {w : Word} {c n : Nibble} {b : Byte} {a : Addr}

theorem eq_of_nnn (hc : fieldC w = c) (ha : fieldNNN w = a) : c ++ a = w := by
  rw [← hc, ← ha]; exact word_of_nnn w

theorem eq_of_xnn (hc : fieldC w = c) (hb : fieldNN w = b) : c ++ fieldX w ++ b = w := by
  rw [← hc, ← hb]; exact word_of_xnn w

theorem eq_of_xyn (hc : fieldC w = c) (hn : fieldN w = n) : c ++ fieldX w ++ fieldY w ++ n = w := by
  rw [← hc, ← hn]; exact word_of_xyn w

theorem faithful_decodeClass0 (hc : fieldC w = 0x0) : Faithful w (decodeClass0 w) := by
  unfold decodeClass0
  split
  next ha => exact .ok (eq_of_nnn hc ha)
  next ha => exact .ok (eq_of_nnn hc ha)
  next => exact .invalid

theorem faithful_decodeLow0 {i : Instr} (hi : fieldN w = 0x0 → encode i = w) : Faithful w (decodeLow0 w i) := by
  unfold decodeLow0
  split
  next hn => exact .ok (hi hn)
  next => exact .invalid

theorem faithful_decodeClass8 (hc : fieldC w = 0x8) : Faithful w (decodeClass8 w) := by
  unfold decodeClass8
  split
  iterate 9
    next hn => exact .ok (eq_of_xyn hc hn)
  next => exact .invalid

theorem faithful_decodeClassE (hc : fieldC w = 0xE) : Faithful w (decodeClassE w) := by
  unfold decodeClassE
  split
  iterate 2
    next hb => exact .ok (eq_of_xnn hc hb)
  next => exact .invalid

theorem faithful_decodeClassF (hc : fieldC w = 0xF) : Faithful w (decodeClassF w) := by
  unfold decodeClassF
  split
  iterate 9
    next hb => exact .ok (eq_of_xnn hc hb)
  next => exact .invalid

end

/-- Class by class: no field of the word is lost. -/
theorem faithful_decodeWord (w : Word) : Faithful w (decodeWord w) := by
  unfold decodeWord
  split
  next hc => exact faithful_decodeClass0 hc
  next hc => exact .ok (eq_of_nnn hc rfl)
  next hc => exact .ok (eq_of_nnn hc rfl)
  next hc => exact .ok (eq_of_xnn hc rfl)
  next hc => exact .ok (eq_of_xnn hc rfl)
  next hc => exact faithful_decodeLow0 (eq_of_xyn hc)
  next hc => exact .ok (eq_of_xnn hc rfl)
  next hc => exact .ok (eq_of_xnn hc rfl)
  next hc => exact faithful_decodeClass8 hc
  next hc => exact faithful_decodeLow0 (eq_of_xyn hc)
  next hc => exact .ok (eq_of_nnn hc rfl)
  next hc => exact .ok (eq_of_nnn hc rfl)
  next hc => exact .ok (eq_of_xnn hc rfl)
  next hc => exact .ok (eq_of_xyn hc rfl)
  next hc => exact faithful_decodeClassE hc
  next => -- the fifteen arms before leave only class F
    exact faithful_decodeClassF (by generalize fieldC w = c at *; revert c; decide)

theorem encode_of_decodeWord {w : Word} {i : Instr} (h : decodeWord w = .ok i) : encode i = w := by
  have hf := faithful_decodeWord w
  rw [h] at hf
  cases hf with
  | ok he => exact he

theorem decodeWord_error {w : Word} {e : DecodeError} (h : decodeWord w = .error e) : e = .invalidOpcode w := by
  have hf := faithful_decodeWord w
  rw [h] at hf
  cases hf with
  | invalid => rfl

/-- Settles O2, class by class. -/
theorem encodeOfDecode : Obligations.EncodeOfDecode := fun _ _ => encode_of_decodeWord

/-! ## The rows of the opcode map -/

open Laws in
/-- Every word of an instruction is in that instruction's row. -/
theorem encode_matches (i : Instr) : ∃ row, opcodeMap[i.rowIndex]? = some row ∧ row.matches (encode i) = true := by
  have hrow : EncodeRow.Statement i := by
    cases i
    exacts [EncodeRow.cls, EncodeRow.ret, EncodeRow.jp _, EncodeRow.call _, EncodeRow.seImm _ _, EncodeRow.sneImm _ _,
      EncodeRow.seReg _ _, EncodeRow.ldImm _ _, EncodeRow.addImm _ _, EncodeRow.ldReg _ _, EncodeRow.orReg _ _,
      EncodeRow.andReg _ _, EncodeRow.xorReg _ _, EncodeRow.addReg _ _, EncodeRow.subReg _ _, EncodeRow.shr _ _,
      EncodeRow.subnReg _ _, EncodeRow.shl _ _, EncodeRow.sneReg _ _, EncodeRow.ldI _, EncodeRow.jpV0 _,
      EncodeRow.rnd _ _, EncodeRow.drw _ _ _, EncodeRow.skp _, EncodeRow.sknp _, EncodeRow.ldVxDt _, EncodeRow.ldVxK _,
      EncodeRow.ldDtVx _, EncodeRow.ldStVx _, EncodeRow.addI _, EncodeRow.ldF _, EncodeRow.ldB _, EncodeRow.ldMemVx _,
      EncodeRow.ldVxMem _]
  exact hrow.imp fun _ h => h.imp_right beq_iff_eq.2

/-- Where a row's mask keeps a whole field, a word of the row has the field of the row's code. -/
theorem OpcodeRow.extract_of_matches {row : OpcodeRow} {w : Word} (h : row.matches w = true) {start len : Nat}
    (hmask : row.mask.extractLsb' start len = BitVec.allOnes len) :
    w.extractLsb' start len = row.code.extractLsb' start len := by
  rw [← beq_iff_eq.1 h, BitVec.extractLsb'_and, hmask, BitVec.and_allOnes]

/-- A word of a row decodes to an instruction of that row: the mask's fields decide the decoder's branch. -/
theorem decodeWord_of_matches {w : Word} {j : Nat} {row : OpcodeRow} (hrow : opcodeMap[j]? = some row)
    (h : row.matches w = true) : ∃ i, decodeWord w = .ok i ∧ i.rowIndex = j := by
  have hj : j < 34 := (List.getElem?_eq_some_iff.1 hrow).1
  interval_cases j <;> obtain rfl := Option.some.inj hrow <;>
    have hc : fieldC w = _ := OpcodeRow.extract_of_matches h rfl
  iterate 2 -- 00E0, 00EE
    · have ha : fieldNNN w = _ := OpcodeRow.extract_of_matches h rfl
      simp [decodeWord, decodeClass0, hc, ha, Instr.rowIndex]
  iterate 4 -- classes 1 to 4
    · simp [decodeWord, hc, Instr.rowIndex]
  -- class 5
  · have hn : fieldN w = _ := OpcodeRow.extract_of_matches h rfl
    simp [decodeWord, decodeLow0, hc, hn, Instr.rowIndex]
  iterate 2 -- classes 6 and 7
    · simp [decodeWord, hc, Instr.rowIndex]
  iterate 9 -- class 8
    · have hn : fieldN w = _ := OpcodeRow.extract_of_matches h rfl
      simp [decodeWord, decodeClass8, hc, hn, Instr.rowIndex]
  -- class 9
  · have hn : fieldN w = _ := OpcodeRow.extract_of_matches h rfl
    simp [decodeWord, decodeLow0, hc, hn, Instr.rowIndex]
  iterate 4 -- classes A to D
    · simp [decodeWord, hc, Instr.rowIndex]
  iterate 2 -- class E
    · have hb : fieldNN w = _ := OpcodeRow.extract_of_matches h rfl
      simp [decodeWord, decodeClassE, hc, hb, Instr.rowIndex]
  iterate 9 -- class F
    · have hb : fieldNN w = _ := OpcodeRow.extract_of_matches h rfl
      simp [decodeWord, decodeClassF, hc, hb, Instr.rowIndex]

theorem decodes_iff_matches (w : Word) : (∃ i, decodeWord w = .ok i) ↔ ∃ row ∈ opcodeMap, row.matches w = true := by
  constructor
  · rintro ⟨i, hi⟩
    obtain ⟨row, hrow, h⟩ := encode_matches i
    rw [encode_of_decodeWord hi] at h
    exact ⟨row, List.mem_of_getElem? hrow, h⟩
  · rintro ⟨row, hrow, h⟩
    obtain ⟨j, hj⟩ := List.getElem?_of_mem hrow
    exact (decodeWord_of_matches hj h).imp fun _ hi => hi.1

theorem decodeWord_of_no_row {w : Word} (h : ∀ row ∈ opcodeMap, row.matches w = false) :
    decodeWord w = .error (.invalidOpcode w) := by
  cases hd : decodeWord w with
  | error e => rw [decodeWord_error hd]
  | ok i =>
    obtain ⟨row, hrow, hm⟩ := (decodes_iff_matches w).1 ⟨i, hd⟩
    exact absurd ((h row hrow).symm.trans hm) Bool.false_ne_true

/-- Settles O3, from rows to words and back through the encoder. -/
theorem decodesExactlyTheRows : Obligations.DecodesExactlyTheRows :=
  fun w => ⟨decodes_iff_matches w, fun _ => decodeWord_error⟩

/-- Settles O4: the word decodes to one instruction, and its row is both rows. -/
theorem rowsAreDisjoint : Obligations.RowsAreDisjoint := by
  intro w j k r q hr hq hrw hqw
  obtain ⟨i, hi, rfl⟩ := decodeWord_of_matches hr hrw
  obtain ⟨i', hi', rfl⟩ := decodeWord_of_matches hq hqw
  rw [Except.ok.inj (hi.symm.trans hi')]

/-- Settles O6, by evaluating the decoder. -/
theorem wordsOfTheTable : Obligations.WordsOfTheTable :=
  ⟨rfl, rfl, rfl, rfl, rfl, rfl, rfl, rfl, rfl, rfl, rfl, rfl, rfl⟩

end Sys2Proof

/-! PROOF. The assembler on the source line of an instruction (30_encoding.md R64, R68). -/

namespace Sys2Proof.Asm

/-! ## Operands that came from fields -/

theorem oneReg_toNat (f : Nibble → Instr) (x : Nibble) : oneReg f x.toNat = .ok (f x) := by
  rw [oneReg, number_reg]; rfl

theorem twoRegs_toNat (f : Nibble → Nibble → Instr) (x y : Nibble) : twoRegs f x.toNat y.toNat = .ok (f x y) := by
  rw [twoRegs, number_reg, number_reg]; rfl

theorem regByte_toNat (f : Nibble → Byte → Instr) (x : Nibble) (nn : Byte) :
    regByte f x.toNat nn.toNat = .ok (f x nn) := by
  rw [regByte, number_reg, number_byte]; rfl

theorem formDrw_toNat (x y n : Nibble) :
    formDrw [.reg x.toNat, .reg y.toNat, .num n.toNat] = .ok (.drw x y n) := by
  rw [formDrw, number_reg, number_reg, number_nibble]; rfl

/-- Each form takes the operands that its own source line writes. -/
theorem assembleInstr_sourceOf (labels : Labels) (i : Instr) :
    assembleInstr labels (sourceOf i).1 (sourceOf i).2 = .ok i := by
  cases i
  case cls | ret => rfl
  case jp nnn => exact congrArg (Functor.map Instr.jp) (address_num labels nnn)
  case call nnn => exact congrArg (Functor.map Instr.call) (address_num labels nnn)
  case ldI nnn => exact congrArg (Functor.map Instr.ldI) (address_num labels nnn)
  case jpV0 nnn => exact congrArg (Functor.map Instr.jpV0) (address_num labels nnn)
  case seImm | sneImm | ldImm | addImm | rnd => exact regByte_toNat _ _ _
  case seReg | sneReg | ldReg | orReg | andReg | xorReg | addReg | subReg | shr | subnReg | shl =>
    exact twoRegs_toNat _ _ _
  case drw => exact formDrw_toNat _ _ _
  all_goals exact oneReg_toNat _ _

/-- Settles O7, form by form. -/
theorem sourceAssembles : Obligations.SourceAssembles := assembleInstr_sourceOf

end Sys2Proof.Asm

/-! PROOF. A step in RUN: its checks in their order, an invalid word, and the instruction it runs (30_encoding.md R70
to R76; 60_exceptions.md R203). -/

namespace Sys2Proof.Machine

/-! ## Fetches that a check stops -/

theorem fetch_stop {s : State} (hs : s.inputs.stop = true) : fetch s = .ended (s.raise .stop 0) := by
  unfold fetch; rw [if_pos hs]

theorem fetch_unloaded {s : State} (hs : s.inputs.stop = false) (hl : s.loaded = false) :
    fetch s = .ended (s.raise .uninitializedProgram 0) := by
  unfold fetch; rw [hs, hl]; rfl

theorem fetch_outOfBounds {s : State} (hs : s.inputs.stop = false) (hl : s.loaded = true) (hp : 0xFFE < s.pc.toNat) :
    fetch s = .ended (s.raiseOutOfBounds (if 0xFFF < s.pc.toNat then s.pc.toNat else 0x1000)) := by
  unfold fetch; rw [hs, hl, fetchWord_error hp]; rfl

/-! ## The policy for an invalid word -/

theorem State.invalidOpcode_strict {s : State} (h : s.strict = true) (w : Word) :
    s.invalidOpcode w = s.raise .invalidOpcode (w.setWidth 17) := if_pos h

theorem State.invalidOpcode_nop {s : State} (h : s.strict = false) (w : Word) :
    s.invalidOpcode w = s.markIllSeen.advance := if_neg (by simp [h])

/-! ## The instruction a step runs -/

/-- No instruction faults or is refused (30_encoding.md R79). -/
theorem exec_answers (i : Instr) (s : State) : ∃ t, exec i s = .next t := by
  cases i
  case ret => exact (execRet_cases s).elim (fun h => ⟨_, h.2⟩) fun h => ⟨_, h.2⟩
  case call nnn => exact (execCall_cases nnn s).elim (fun h => ⟨_, h.2⟩) fun h => ⟨_, h.2⟩
  case drw x y n => exact (execDrw_cases x y n s).elim (fun h => ⟨_, h.2.2⟩) fun h => ⟨_, h.2⟩
  case ldVxMem x => exact (execLdVxMem_cases x s).elim (fun h => ⟨_, h.2⟩) fun h => ⟨_, h.2⟩
  all_goals exact ⟨_, rfl⟩

end Sys2Proof.Machine

namespace Sys2Proof.Safety

open Sys2Proof.Machine

/-- Settles O37: each check ends the step in its own halt. -/
theorem stepChecksInOrder : Obligations.StepChecksInOrder := by
  refine fun s inp hr => ⟨fun hs => ?_, fun hs hl => ?_, fun hs hl hp => ?_⟩
  · exact ⟨_, coreStep_ended hr (fetch_stop hs), haltsWith_raise _ _ _⟩
  · exact ⟨_, coreStep_ended hr (fetch_unloaded hs hl), haltsWith_raise _ _ _⟩
  · exact ⟨_, coreStep_ended hr (fetch_outOfBounds hs hl hp), haltsWith_raise _ _ _⟩

/-- Settles O38: a word in no row does not decode, and the strap says which of two ends the step has. -/
theorem invalidWordFollowsThePolicy : Obligations.InvalidWordFollowsThePolicy := by
  rintro s inp w hr hs hl hp rfl hrows
  have hstep := coreStep_ended (s := s.latch inp) hr (fetch_invalid hs hl hp (decodeWord_of_no_row hrows))
  constructor
  · intro hstrict
    rw [State.invalidOpcode_strict (s := (s.latch inp).logFetch) hstrict] at hstep
    exact ⟨_, hstep, haltsWith_raise _ _ _⟩
  · intro hstrict
    rw [State.invalidOpcode_nop (s := (s.latch inp).logFetch) hstrict] at hstep
    exact ⟨_, hstep, rfl, rfl, fun _ _ => rfl, fun _ => rfl, rfl, ⟨rfl, rfl⟩, ⟨rfl, rfl⟩, ⟨rfl, rfl, rfl⟩, rfl, rfl,
      rfl, rfl, rfl, ⟨rfl, rfl, rfl, rfl, rfl, rfl⟩, rfl, ⟨rfl, rfl, rfl⟩⟩

/-- Settles O35: taking the move leaves what the fetch reads as it was. -/
theorem stepRunsTheDecodedInstruction : Obligations.StepRunsTheDecodedInstruction := by
  intro s s' inp i _ hmove hs hr hl hp hd
  have hsame := s.nextMove_snd
  rw [hmove] at hsame
  obtain ⟨sched, steps, draws, rfl⟩ : ∃ l k n, s' = { s with schedule := l, stepsToTick := k, draws := n } :=
    ⟨_, _, _, hsame⟩
  refine ⟨?_, ⟨fun _ _ => rfl, rfl, rfl, ⟨rfl, rfl⟩, ⟨rfl, rfl⟩, fun _ => rfl⟩,
    ⟨rfl, rfl, ⟨rfl, rfl, rfl⟩, ⟨rfl, rfl, rfl, rfl⟩⟩, rfl, rfl⟩
  rw [step, hmove]
  exact coreStep_instr hr (fetch_instr hs hl hp (decodeBytes_two.1 hd))

/-- Settles O39, by the branches of each meaning. -/
theorem everyInstructionAnswersNext : Obligations.EveryInstructionAnswersNext := exec_answers

end Sys2Proof.Safety

/-! PROOF. The display instructions (41_display.md R100, R101). -/

namespace Sys2Proof.Machine

/-- The byte DRW writes to VF (R101; 92_eei_decisions.md D11). -/
theorem State.flagByte_collisionFlag (s : State) (n : Nibble) :
    flagByte (s.collisionFlag n) = if n = 0 then 0 else if s.inputs.collision then 1 else 0 := by
  unfold State.collisionFlag
  split <;> rfl

end Sys2Proof.Machine

namespace Sys2Proof.Safety

open Sys2Proof.Machine

/-- A state that differs in registers, pc and output pins alone keeps the rest. -/
theorem keepsRest_of_only_v_pc_out (s : State) (v : Vector Byte 16) (pc : Word) (out : Outputs) :
    KeepsRest s { s with v := v, pc := pc, out := out } :=
  ⟨fun _ => rfl, rfl, ⟨rfl, rfl⟩, ⟨rfl, rfl⟩, ⟨rfl, rfl, ⟨rfl, rfl, rfl⟩, ⟨rfl, rfl, rfl, rfl⟩⟩,
    ⟨rfl, rfl, rfl, rfl, rfl, rfl⟩⟩

/-- A write of one register keeps the others. -/
theorem keepsRegs_writeV (s : State) (x : Nibble) (b : Byte) : KeepsRegs [x] s (s.writeV x b) := by
  intro r hr
  rw [State.readV_writeV, if_neg fun e => hr (List.mem_singleton.2 e.symm)]

/-- Settles O8: one request and a new pc. -/
theorem clsEmitsClear : Obligations.ClsEmitsClear :=
  ⟨decodeWord_encode .cls, fun s => ⟨_, rfl, rfl, rfl, fun _ _ => rfl, keepsRest_of_only_v_pc_out s _ _ _⟩⟩

/-- Settles O9, by the two ends of the range check. -/
theorem drwDrawsAndSetsCollision : Obligations.DrwDrawsAndSetsCollision := by
  refine fun x y n => ⟨decodeWord_encode (.drw x y n), fun s => ⟨fun h => ?draws, fun hn h => ?refused⟩⟩
  case draws =>
    have hpass : firstRefused readRefused s.dataAddr n.toNat = none :=
      firstRefused_read_eq_none.2 (h.imp_left fun e => by rw [e]; rfl)
    refine ⟨_, execDrw_draw hpass, ⟨s.mem.readBytes s.dataAddr n.toNat, Memory.length_readBytes _ _ _, ?rows, rfl, rfl⟩,
      ?flag, rfl, keepsRegs_writeV _ VF _, keepsRest_of_only_v_pc_out s _ _ _, ⟨rfl, rfl, rfl⟩⟩
    case rows =>
      intro k hk
      rw [List.getElem?_eq_getElem (by simpa using hk), Memory.getElem_readBytes]
    case flag => rw [State.readV_advance, State.readV_writeV, if_pos rfl, State.flagByte_collisionFlag]
  case refused =>
    have hpos : 0 < n.toNat := Nat.pos_of_ne_zero fun e => hn (BitVec.eq_of_toNat_eq e)
    exact ⟨_, execDrw_refused (firstRefused_read hpos h), haltsWith_raise _ _ _⟩

end Sys2Proof.Safety

/-! PROOF. Returns, jumps, calls and skips (42_control_flow.md R110 to R119). -/

namespace Sys2Proof.Machine

/-! ## Targets -/

@[simp] theorem toNat_zextAddr (nnn : Addr) : (zextAddr nnn).toNat = nnn.toNat :=
  BitVec.toNat_setWidth_of_le (by decide)

@[simp] theorem toNat_zextByte (b : Byte) : (zextByte b).toNat = b.toNat :=
  BitVec.toNat_setWidth_of_le (by decide)

/-- The 16-bit sum of a byte and a 12-bit address does not wrap (R117). -/
theorem State.toNat_computedTarget (s : State) (nnn : Addr) :
    (s.computedTarget nnn).toNat = (s.readV 0).toNat + nnn.toNat := by
  have hv := (s.readV 0).isLt
  have hn := nnn.isLt
  rw [State.computedTarget, BitVec.toNat_add, toNat_zextByte, toNat_zextAddr, Nat.mod_eq_of_lt (by omega)]

/-- Where a skip goes, its condition read as a proposition. -/
theorem State.skipIf_pc_of_iff (s : State) {c : Bool} {p : Prop} [Decidable p] (h : c = true ↔ p) :
    (s.skipIf c).pc = if p then s.pc + 4 else s.pc + 2 := if_congr h rfl rfl

/-! ## The stack pointer of a push, and a pop after it (10_state.md R25) -/

theorem State.toNat_sp_push {s : State} (r : Word) (h : s.sp.toNat < 16) :
    (s.push r).sp.toNat = s.sp.toNat + 1 := by
  rw [State.push_sp]; bv_omega

/-- A pop after a push takes what was pushed, and leaves it as a dead entry. -/
theorem State.pop_push {s : State} (r : Word) (h : s.sp.toNat < 16) :
    (s.push r).pop = ({ s with stack := (s.push r).stack }, r) := by
  have hsp : (s.push r).sp - 1 = s.sp := BitVec.add_sub_cancel s.sp 1
  rw [State.pop, hsp, State.stackAt_push_top r h]
  rfl

/-- RET after a push and any jump goes to what was pushed. -/
theorem execRet_after_push {s : State} (r target : Word) (h : s.sp.toNat < 16) :
    execRet ((s.push r).setPc target) = .next { s with pc := r, stack := (s.push r).stack } := by
  have hne : ((s.push r).setPc target).sp ≠ 0 := fun e => by
    have hsp := State.toNat_sp_push r h
    rw [← State.setPc_sp (s.push r) target, e] at hsp
    exact absurd hsp.symm (Nat.succ_ne_zero _)
  rw [execRet_pop hne]
  exact congrArg (fun p : State × Word => Host.Outcome.next (p.1.setPc p.2)) (State.pop_push r h)

end Sys2Proof.Machine

namespace Sys2Proof.Safety

open Sys2Proof.Machine

/-- A new pc changes nothing else. -/
theorem onlyRegs_setPc (s : State) (w : Word) : OnlyRegs [] s (s.setPc w) :=
  ⟨fun _ _ => rfl, keepsRest_of_only_v_pc_out s _ _ _, rfl⟩

/-- What CALL and RET leave unchanged (R110, R112). -/
theorem keeps_of_only_pc_sp_stack (s : State) (pc : Word) (sp : BitVec 5) (stack : Vector Word 16) :
    let t := { s with pc := pc, sp := sp, stack := stack }
    KeepsRegs [] s t ∧ KeepsMem s t ∧ KeepsI s t ∧ KeepsTimers s t ∧ KeepsStatus s t ∧ KeepsWorld s t ∧
      t.out = s.out :=
  ⟨fun _ _ => rfl, fun _ => rfl, rfl, ⟨rfl, rfl⟩, ⟨rfl, rfl, ⟨rfl, rfl, rfl⟩, ⟨rfl, rfl, rfl, rfl⟩⟩,
    ⟨rfl, rfl, rfl, rfl, rfl, rfl⟩, rfl⟩

/-! ## Call and return -/

/-- Settles O10, by whether the stack is empty. -/
theorem retPopsIntoPc : Obligations.RetPopsIntoPc := by
  refine ⟨decodeWord_encode .ret, fun s => ⟨fun h => ?pops, fun h => ?underflows⟩⟩
  case pops =>
    exact ⟨_, execRet_pop h, congrArg s.stackAt (State.toNat_sp_sub_one h), rfl, rfl,
      keeps_of_only_pc_sp_stack s _ _ _⟩
  case underflows => exact ⟨_, execRet_empty h, haltsWith_raise _ _ _⟩

/-- Settles O12, by whether the stack is full. -/
theorem callPushesReturnAddress : Obligations.CallPushesReturnAddress := by
  refine fun nnn => ⟨decodeWord_encode (.call nnn), fun s => ⟨fun h => ?pushes, fun h => ?overflows⟩⟩
  case pushes =>
    exact ⟨_, execCall_push nnn h, toNat_zextAddr nnn, State.toNat_sp_push (s.pc + 2) h, State.stackAt_push_top _ h,
      fun _ hk => State.stackAt_push_other _ hk, keeps_of_only_pc_sp_stack s _ _ _⟩
  case overflows =>
    have hinfo : s.sp.setWidth 17 = (16 : Info) := by rw [h]; rfl
    exact ⟨_, execCall_full nnn (by rw [h]; decide), hinfo ▸ haltsWith_raise _ _ _⟩

/-- Settles O32: RET pops what CALL pushed, and the entries below it stay. -/
theorem callThenRetComesBack : Obligations.CallThenRetComesBack := by
  intro s nnn h
  obtain ⟨hregs, hmem, hi, htimers, -⟩ := keeps_of_only_pc_sp_stack s (s.pc + 2) s.sp (s.push (s.pc + 2)).stack
  exact ⟨_, _, execCall_push nnn h, execRet_after_push _ _ h, rfl, rfl,
    fun _ hk => State.stackAt_push_other _ (Nat.ne_of_lt hk), hregs, hmem, hi, htimers⟩

/-! ## Jumps -/

/-- Settles O11. -/
theorem jpJumps : Obligations.JpJumps :=
  fun nnn => ⟨decodeWord_encode (.jp nnn), fun s => ⟨_, rfl, toNat_zextAddr nnn, onlyRegs_setPc s _⟩⟩

/-- Settles O15: the 16-bit sum is the integer sum. -/
theorem jpV0JumpsToSum : Obligations.JpV0JumpsToSum :=
  fun nnn => ⟨decodeWord_encode (.jpV0 nnn), fun s => ⟨_, rfl, s.toNat_computedTarget nnn, onlyRegs_setPc s _⟩⟩

/-! ## Skips -/

/-- Settles O13. -/
theorem skipsOnImmediate : Obligations.SkipsOnImmediate :=
  fun x nn => ⟨decodeWord_encode (.seImm x nn), decodeWord_encode (.sneImm x nn), fun s =>
    ⟨⟨_, rfl, s.skipIf_pc_of_iff beq_iff_eq, onlyRegs_setPc s _⟩,
      ⟨_, rfl, s.skipIf_pc_of_iff bne_iff_ne, onlyRegs_setPc s _⟩⟩⟩

/-- Settles O14. -/
theorem skipsOnRegister : Obligations.SkipsOnRegister :=
  fun x y => ⟨decodeWord_encode (.seReg x y), decodeWord_encode (.sneReg x y), fun s =>
    ⟨⟨_, rfl, s.skipIf_pc_of_iff beq_iff_eq, onlyRegs_setPc s _⟩,
      ⟨_, rfl, s.skipIf_pc_of_iff bne_iff_ne, onlyRegs_setPc s _⟩⟩⟩

/-- Settles O16: the query drives its pin, and the answer decides the skip. -/
theorem skipsOnKey : Obligations.SkipsOnKey :=
  fun x => ⟨decodeWord_encode (.skp x), decodeWord_encode (.sknp x), fun s =>
    ⟨⟨_, rfl, (s.queryKey _).skipIf_pc_of_iff Iff.rfl, rfl, fun _ _ => rfl, keepsRest_of_only_v_pc_out s _ _ _⟩,
      ⟨_, rfl, (s.queryKey _).skipIf_pc_of_iff (Bool.not_eq_true' _).to_iff, rfl, fun _ _ => rfl,
        keepsRest_of_only_v_pc_out s _ _ _⟩⟩⟩

end Sys2Proof.Safety

/-! PROOF. The ALU, the register loads and the random byte (43_alu.md R130 to R142). -/

namespace Sys2Proof.Machine

/-! ## Flags (43_alu.md R130) -/

theorem toNat_flagByte (f : Bool) : (flagByte f).toNat = f.toNat := by cases f <;> rfl

theorem flagByte_carryOf (a b : Byte) : flagByte (carryOf a b) = if a.toNat + b.toNat > 255 then 1 else 0 :=
  if_congr decide_eq_true_iff rfl rfl

theorem flagByte_noBorrowOf (a b : Byte) : flagByte (noBorrowOf a b) = if a.toNat < b.toNat then 0 else 1 := by
  by_cases h : a.toNat < b.toNat <;> simp [flagByte, noBorrowOf, h]

/-- A bit of a byte, put in a flag, is a binary digit of its value. -/
theorem toNat_flagByte_getLsbD (a : Byte) (k : Nat) : (flagByte (a.getLsbD k)).toNat = a.toNat / 2 ^ k % 2 := by
  rw [toNat_flagByte, BitVec.getLsbD, Nat.toNat_testBit]

theorem toNat_flagByte_lsbOf (a : Byte) : (flagByte (lsbOf a)).toNat = a.toNat % 2 := by
  rw [lsbOf, toNat_flagByte_getLsbD, Nat.pow_zero, Nat.div_one]

theorem toNat_flagByte_msbOf (a : Byte) : (flagByte (msbOf a)).toNat = a.toNat / 128 := by
  have ha := a.isLt
  rw [msbOf, toNat_flagByte_getLsbD]
  omega

/-! ## Results as integers (00_scope.md R10) -/

theorem toNat_sub_eq_emod (a b : Byte) : ((a - b).toNat : Int) = (a.toNat - b.toNat : Int) % 256 := by
  have ha := a.isLt
  have hb := b.isLt
  rw [BitVec.toNat_sub]
  omega

theorem toNat_shiftRight_one (a : Byte) : (a >>> 1).toNat = a.toNat / 2 :=
  Nat.shiftRight_eq_div_pow a.toNat 1

theorem toNat_shiftLeft_one (a : Byte) : (a <<< 1).toNat = 2 * a.toNat % 256 := by
  rw [BitVec.toNat_shiftLeft, Nat.shiftLeft_eq, Nat.mul_comm]

end Sys2Proof.Machine

namespace Sys2Proof.Safety

open Sys2Proof.Machine

/-! ## The two shapes of an ALU instruction: a result alone, and a result with its flag -/

theorem readV_writeV_same (s : State) (x : Nibble) (b : Byte) : (s.writeV x b).readV x = b := by
  rw [State.readV_writeV, if_pos rfl]

theorem Completes.imp {i : Instr} {s : State} {P Q : State → Prop} (h : Completes i s P) (hPQ : ∀ t, P t → Q t) :
    Completes i s Q :=
  Exists.imp (fun t => And.imp_right (hPQ t)) h

/-- An instruction that writes one register and moves on. -/
theorem completes_of_writeV {i : Instr} {s : State} {x : Nibble} {b : Byte}
    (h : exec i s = .next (s.writeV x b).advance) :
    Completes i s fun t => t.readV x = b ∧ t.pc = s.pc + 2 ∧ OnlyRegs [x] s t :=
  ⟨_, h, readV_writeV_same s x b, rfl, keepsRegs_writeV s x b, keepsRest_of_only_v_pc_out s _ _ _, rfl⟩

/-- An instruction that writes a result, then its flag, and moves on: the flag remains in every case, the result
unless Vx is VF (92_eei_decisions.md D9). -/
theorem completes_of_writeResultFlag {i : Instr} {s : State} {x : Nibble} {r : Byte} {f : Bool}
    (h : exec i s = .next (s.writeResultFlag x r f).advance) :
    Completes i s fun t =>
      (x ≠ VF → t.readV x = r) ∧ t.readV VF = flagByte f ∧ t.pc = s.pc + 2 ∧ OnlyRegs [x, VF] s t := by
  refine ⟨_, h, ?result, ?flag, rfl, ?others, keepsRest_of_only_v_pc_out s _ _ _, rfl⟩
  case result =>
    intro hx
    rw [State.readV_advance, State.writeResultFlag_eq, readV_writeV_other hx, readV_writeV_same]
  case flag => exact readV_writeV_same _ VF _
  case others =>
    intro q hq
    obtain ⟨hx, hf⟩ := not_or.1 (mt List.mem_pair.2 hq)
    exact readV_writeResultFlag_other hx hf

/-! ## One register -/

/-- Settles O17. -/
theorem ldImmLoads : Obligations.LdImmLoads :=
  fun x nn => ⟨decodeWord_encode (.ldImm x nn), fun _ => completes_of_writeV rfl⟩

/-- Settles O18: an 8-bit sum is the sum modulo 256. -/
theorem addImmWrapsWithoutFlag : Obligations.AddImmWrapsWithoutFlag :=
  fun x nn => ⟨decodeWord_encode (.addImm x nn), fun _ =>
    Completes.imp (completes_of_writeV rfl) fun _ => And.imp_left fun hx => by rw [hx, BitVec.toNat_add]⟩

/-- Settles O19. -/
theorem ldRegCopies : Obligations.LdRegCopies :=
  fun x y => ⟨decodeWord_encode (.ldReg x y), fun _ => completes_of_writeV rfl⟩

/-- Settles O20, by the bits of the three operators. -/
theorem logicWorksBitwise : Obligations.LogicWorksBitwise := by
  refine fun x y => ⟨decodeWord_encode (.orReg x y), decodeWord_encode (.andReg x y), decodeWord_encode (.xorReg x y),
    fun s => ⟨?or, ?and, ?xor⟩⟩
  case or =>
    exact Completes.imp (completes_of_writeV rfl) fun _ => And.imp_left fun hx k _ => by rw [hx, BitVec.getLsbD_or]
  case and =>
    exact Completes.imp (completes_of_writeV rfl) fun _ => And.imp_left fun hx k _ => by rw [hx, BitVec.getLsbD_and]
  case xor =>
    exact Completes.imp (completes_of_writeV rfl) fun _ => And.imp_left fun hx k _ => by rw [hx, BitVec.getLsbD_xor]

/-- Settles O24: the request is pulsed before the register is written. -/
theorem rndMasksTheRandomByte : Obligations.RndMasksTheRandomByte := by
  refine fun x nn => ⟨decodeWord_encode (.rnd x nn), fun s => ⟨_, rfl, ?bits, rfl, rfl,
    keepsRegs_writeV s.takeRandom x _, keepsRest_of_only_v_pc_out s _ _ _⟩⟩
  case bits =>
    intro k _
    rw [State.readV_advance, readV_writeV_same, BitVec.getLsbD_and]

/-! ## A result and its flag -/

/-- Settles O21. -/
theorem addRegSetsCarry : Obligations.AddRegSetsCarry := by
  refine fun x y => ⟨decodeWord_encode (.addReg x y), fun s => ?_⟩
  refine Completes.imp (completes_of_writeResultFlag rfl) fun t ⟨hresult, hflag, hframe⟩ =>
    ⟨fun hx => ?_, ?_, hframe⟩
  · rw [hresult hx, BitVec.toNat_add]
  · rw [hflag, flagByte_carryOf]

/-- SUB and SUBN are one subtraction with the operands exchanged. -/
theorem completes_of_sub {i : Instr} {s : State} {x : Nibble} {a b : Byte}
    (h : exec i s = .next (s.writeResultFlag x (a - b) (noBorrowOf a b)).advance) :
    Completes i s fun t =>
      (x ≠ VF → ((t.readV x).toNat : Int) = (a.toNat - b.toNat : Int) % 256) ∧
      t.readV VF = (if a.toNat < b.toNat then 0 else 1) ∧ t.pc = s.pc + 2 ∧ OnlyRegs [x, VF] s t := by
  refine (completes_of_writeResultFlag h).imp fun t ⟨hresult, hflag, hframe⟩ => ⟨fun hx => ?_, ?_, hframe⟩
  · rw [hresult hx, toNat_sub_eq_emod]
  · rw [hflag, flagByte_noBorrowOf]

/-- Settles O22. -/
theorem subtractionsSetNotBorrow : Obligations.SubtractionsSetNotBorrow :=
  fun x y => ⟨decodeWord_encode (.subReg x y), decodeWord_encode (.subnReg x y), fun _ =>
    ⟨completes_of_sub rfl, completes_of_sub rfl⟩⟩

/-- Settles O23: the meanings do not read y. -/
theorem shiftsSetBitShiftedOut : Obligations.ShiftsSetBitShiftedOut := by
  refine fun x y => ⟨decodeWord_encode (.shr x y), decodeWord_encode (.shl x y), fun s =>
    ⟨?right, ?left, fun _ => ⟨rfl, rfl⟩⟩⟩
  case right =>
    refine Completes.imp (completes_of_writeResultFlag rfl) fun t ⟨hresult, hflag, hframe⟩ =>
      ⟨fun hx => ?_, ?_, hframe⟩
    · rw [hresult hx, toNat_shiftRight_one]
    · rw [hflag, toNat_flagByte_lsbOf]
  case left =>
    refine Completes.imp (completes_of_writeResultFlag rfl) fun t ⟨hresult, hflag, hframe⟩ =>
      ⟨fun hx => ?_, ?_, hframe⟩
    · rw [hresult hx, toNat_shiftLeft_one]
    · rw [hflag, toNat_flagByte_msbOf]

end Sys2Proof.Safety

/-! PROOF. The address register and the memory transfers (44_index_memory.md R150 to R156). -/

namespace Sys2Proof.Machine

/-- The 16-bit product of a byte and 5 does not wrap (R152). -/
theorem toNat_glyphAddr (b : Byte) : (glyphAddr b).toNat = b.toNat * 5 := by
  have hb := b.isLt
  have hfive : (5 : Word).toNat = 5 := rfl
  rw [glyphAddr, BitVec.toNat_mul, toNat_zextByte, hfive, Nat.mod_eq_of_lt (by omega)]

theorem State.toNat_iReg_add_zextByte (s : State) (b : Byte) :
    (s.iReg + zextByte b).toNat = (s.iReg.toNat + b.toNat) % 65536 := by
  rw [BitVec.toNat_add, toNat_zextByte]

/-! ## What a transfer leaves at each address and in each register -/

/-- FX33 stores the hundreds, the tens and the ones, in that order (R153). -/
theorem read_storeBytes_bcdDigits (s : State) (a : Nat) (b : Byte) :
    let m := (s.storeBytes a (bcdDigits b)).mem
    (m.read a).toNat = b.toNat / 100 ∧ (m.read (a + 1)).toNat = b.toNat / 10 % 10 ∧
      (m.read (a + 2)).toNat = b.toNat % 10 := by
  have hread (k : Nat) (hk : k < 3) : (s.storeBytes a (bcdDigits b)).mem.read (a + k) = (bcdDigits b)[k] :=
    Memory.read_writeBytes_inside (bcdDigits b) s.mem a k hk
  have hundreds : (b / 100).toNat = b.toNat / 100 := BitVec.toNat_udiv
  have tens : (b / 10 % 10).toNat = b.toNat / 10 % 10 := by rw [BitVec.toNat_umod, BitVec.toNat_udiv]; rfl
  have ones : (b % 10).toNat = b.toNat % 10 := BitVec.toNat_umod
  exact ⟨(congrArg BitVec.toNat (hread 0 (by decide))).trans hundreds,
    (congrArg BitVec.toNat (hread 1 (by decide))).trans tens,
    (congrArg BitVec.toNat (hread 2 (by decide))).trans ones⟩

/-- FX55 stores Vk at I + k (R154). -/
theorem read_storeBytes_regs (s : State) (a : Nat) {x k : Nibble} (hk : k.toNat ≤ x.toNat) :
    (s.storeBytes a (s.regs (rangeCount x))).mem.read (a + k.toNat) = s.readV k := by
  have hlt : k.toNat < (s.regs (rangeCount x)).length := by rw [State.length_regs, rangeCount]; omega
  rw [State.storeBytes_mem, Memory.read_writeBytes_inside _ _ _ _ hlt, State.getElem_regs, BitVec.ofNat_toNat,
    BitVec.setWidth_eq]

/-- FX65 loads Vk from I + k (R155). -/
theorem readV_writeRegs_readBytes (s : State) (m : Memory) (a : Nat) {x k : Nibble} (hk : k.toNat ≤ x.toNat) :
    (s.writeRegs 0 (m.readBytes a (rangeCount x))).readV k = m.read (a + k.toNat) := by
  have hx := x.isLt
  have hlen : (m.readBytes a (rangeCount x)).length = x.toNat + 1 := Memory.length_readBytes _ _ _
  rw [State.readV_writeRegs _ _ _ _ (by omega), dif_pos (by omega), Memory.getElem_readBytes, Nat.sub_zero]

end Sys2Proof.Machine

namespace Sys2Proof.Safety

open Sys2Proof.Machine

/-! ## Frames of the three shapes: a new I, a store, a load -/

/-- An instruction that writes I and moves on. -/
theorem completes_of_setI {i : Instr} {s : State} {w : Word} {n : Nat} (h : exec i s = .next (s.setI w).advance)
    (hw : w.toNat = n) :
    Completes i s fun t => t.iReg.toNat = n ∧ t.pc = s.pc + 2 ∧ KeepsRegs [] s t ∧ KeepsMem s t ∧ KeepsStack s t ∧
      KeepsTimers s t ∧ KeepsStatus s t ∧ KeepsWorld s t ∧ t.out = s.out :=
  ⟨_, h, hw, rfl, fun _ _ => rfl, fun _ => rfl, ⟨rfl, rfl⟩, ⟨rfl, rfl⟩,
    ⟨rfl, rfl, ⟨rfl, rfl, rfl⟩, ⟨rfl, rfl, rfl, rfl⟩⟩, ⟨rfl, rfl, rfl, rfl, rfl, rfl⟩, rfl⟩

/-- What a store that moves on leaves unchanged, and what the memory port shows of it. -/
theorem keeps_storeBytes_advance (s : State) (a : Nat) {bytes : List Byte} {n : Nat} (hn : bytes.length = n) :
    let t := (s.storeBytes a bytes).advance
    KeepsMemOutside a n s t ∧ t.pc = s.pc + 2 ∧ KeepsRegs [] s t ∧ KeepsI s t ∧ KeepsStack s t ∧ KeepsTimers s t ∧
      KeepsStatus s t ∧ KeepsWorld s t ∧ KeepsRequests s t ∧ KeepsPulses s t ∧ BusAdds (busCycles true a bytes) s t :=
  ⟨fun _ hb => Memory.read_writeBytes_outside bytes s.mem (hn ▸ hb), rfl, fun _ _ => rfl, rfl, ⟨rfl, rfl⟩,
    ⟨rfl, rfl⟩, ⟨rfl, rfl, ⟨rfl, rfl, rfl⟩, ⟨rfl, rfl, rfl, rfl⟩⟩,
    ⟨Memory.font_writeBytes bytes s.mem a, rfl, rfl, rfl, rfl, rfl⟩, rfl, ⟨rfl, rfl, rfl⟩, rfl⟩

/-- What a load into registers that moves on leaves unchanged, and what the memory port shows of it. -/
theorem keeps_loadRegs_advance (s : State) (a n : Nat) :
    let t := ((s.loadBytes a n).1.writeRegs 0 (s.loadBytes a n).2).advance
    t.pc = s.pc + 2 ∧ KeepsRest s t ∧ KeepsRequests s t ∧ KeepsPulses s t ∧
      BusAdds (busCycles false a (s.mem.readBytes a n)) s t := by
  rw [State.writeRegs_eq]
  exact ⟨rfl, keepsRest_of_only_v_pc_out s _ _ _, rfl, ⟨rfl, rfl, rfl⟩, rfl⟩

/-! ## The transfers -/

/-- Settles O26, by the two ends of the range check. -/
theorem ldBStoresDecimalDigits : Obligations.LdBStoresDecimalDigits := by
  refine fun x => ⟨decodeWord_encode (.ldB x), fun s => ⟨fun hlo hhi => ?stores, fun hout => ?refused⟩⟩
  case stores =>
    obtain ⟨hhundreds, htens, hones⟩ := read_storeBytes_bcdDigits s s.dataAddr (s.readV x)
    exact ⟨_, execLdB_store (firstRefused_write_eq_none.2 (.inr ⟨hlo, hhi⟩)), hhundreds, htens, hones,
      keeps_storeBytes_advance s _ (length_bcdDigits _)⟩
  case refused => exact ⟨_, execLdB_refused (firstRefused_write (by omega) hout), haltsWith_raise _ _ _⟩

/-- Settles O27, by the two ends of the range check. -/
theorem ldMemVxStoresRegisters : Obligations.LdMemVxStoresRegisters := by
  refine fun x => ⟨decodeWord_encode (.ldMemVx x), fun s => ⟨fun hlo hhi => ?stores, fun hout => ?refused⟩⟩
  case stores =>
    have hpass : firstRefused writeRefused s.dataAddr (rangeCount x) = none :=
      firstRefused_write_eq_none.2 (.inr ⟨hlo, by rw [rangeCount]; omega⟩)
    exact ⟨_, execLdMemVx_store hpass, fun k hk => read_storeBytes_regs s _ hk,
      keeps_storeBytes_advance s _ (State.length_regs s x)⟩
  case refused =>
    have hfirst := firstRefused_write (a := s.dataAddr) (n := rangeCount x) (Nat.succ_pos _)
      (by rw [rangeCount]; omega)
    exact ⟨_, execLdMemVx_refused hfirst, haltsWith_raise _ _ _⟩

/-- Settles O28, by the two ends of the range check. -/
theorem ldVxMemLoadsRegisters : Obligations.LdVxMemLoadsRegisters := by
  refine fun x => ⟨decodeWord_encode (.ldVxMem x), fun s => ⟨fun hhi => ?loads, fun hout => ?refused⟩⟩
  case loads =>
    have hpass : firstRefused readRefused s.dataAddr (rangeCount x) = none :=
      firstRefused_read_eq_none.2 (.inr (by rw [rangeCount]; omega))
    exact ⟨_, execLdVxMem_load hpass, fun k hk => readV_writeRegs_readBytes _ s.mem _ hk,
      fun k hk => readV_writeRegs_above (Memory.length_readBytes _ _ _) hk, keeps_loadRegs_advance s _ _⟩
  case refused =>
    have hfirst := firstRefused_read (a := s.dataAddr) (n := rangeCount x) (Nat.succ_pos _)
      (by rw [rangeCount]; omega)
    exact ⟨_, execLdVxMem_refused hfirst, haltsWith_raise _ _ _⟩

/-- Settles O33: what FX65 reads from memory is what FX55 put there. -/
theorem storeThenLoadRestores : Obligations.StoreThenLoadRestores := by
  intro s x hlo hhi
  obtain ⟨t, ht, hstored, -, -, -, hI, -⟩ := ((ldMemVxStoresRegisters x).2 s).1 hlo hhi
  refine ⟨t, ht, fun u hmem hiReg => ?_⟩
  have haddr : u.dataAddr = s.dataAddr := congrArg BitVec.toNat (hiReg.trans hI)
  obtain ⟨w, hw, hloaded, -⟩ := ((ldVxMemLoadsRegisters x).2 u).1 (haddr ▸ hhi)
  refine ⟨w, hw, fun k hk => ?_⟩
  calc w.readV k = u.mem.read (u.dataAddr + k.toNat) := hloaded k hk
    _ = t.mem.read (s.dataAddr + k.toNat) := by rw [hmem, haddr]
    _ = s.readV k := hstored k hk

/-! ## The address register -/

/-- The instructions that write I (R156). -/
def WritesI (i : Instr) : Prop := (∃ nnn, i = .ldI nnn) ∨ (∃ x, i = .addI x) ∨ (∃ x, i = .ldF x)

theorem exec_keepsI_or_writesI {i : Instr} {s t : State} (h : exec i s = .next t) : KeepsI s t ∨ WritesI i := by
  refine exec_next_elim (P := fun i t => KeepsI s t ∨ WritesI i) h
    ?_ ?_ ?_ ?_ ?_ ?_ ?_ ?_ ?_ ?_ ?_ ?load ?others
  case load => intro x _; rw [State.writeRegs_eq]; exact .inl rfl
  case others =>
    intro j u hj hret hcall hdrw hldB hstore hload
    cases j
    case ret | call | drw | ldB | ldMemVx | ldVxMem => simp at hret hcall hdrw hldB hstore hload
    case ldI nnn => exact .inr (.inl ⟨nnn, rfl⟩)
    case addI x => exact .inr (.inr (.inl ⟨x, rfl⟩))
    case ldF x => exact .inr (.inr (.inr ⟨x, rfl⟩))
    all_goals obtain rfl := Host.Outcome.next.inj hj; exact .inl rfl
  all_goals intros; exact .inl rfl

/-- Settles O41. -/
theorem onlyThreeInstructionsWriteI : Obligations.OnlyThreeInstructionsWriteI :=
  fun _ _ _ h hne => (exec_keepsI_or_writesI h).resolve_left hne

/-- Settles O25: the three new values of I as integers. -/
theorem indexRegisterIsSet : Obligations.IndexRegisterIsSet := by
  refine ⟨fun nnn => ⟨decodeWord_encode (.ldI nnn), fun s => ?ldI⟩,
    fun x => ⟨decodeWord_encode (.addI x), fun s => ?addI⟩, fun x => ⟨decodeWord_encode (.ldF x), fun s => ?ldF⟩⟩
  case ldI => exact completes_of_setI rfl (toNat_zextAddr nnn)
  case addI => exact completes_of_setI rfl (s.toNat_iReg_add_zextByte (s.readV x))
  case ldF => exact completes_of_setI rfl (toNat_glyphAddr (s.readV x))

end Sys2Proof.Safety

/-! PROOF. Timer access and the key wait (45_timers_keys.md R160 to R163). -/

namespace Sys2Proof.Machine

/-- The tone follows ST (60_exceptions.md R213). -/
theorem State.tone_eq_true_iff (s : State) : s.tone = true ↔ s.st ≠ 0 := bne_iff_ne

/-! ## The three ends of a key-wait step (R161) -/

theorem waitStep_stop {s : State} (hs : s.inputs.stop = true) : waitStep s = s.raise .stop 0 := by
  unfold waitStep; rw [if_pos hs]

theorem waitStep_noEvent {s : State} (hs : s.inputs.stop = false) (he : s.inputs.keyEvent = none) :
    waitStep s = s := by
  unfold waitStep; rw [if_neg (by simp [hs]), he]

theorem waitStep_press {s : State} {k : Byte} (hs : s.inputs.stop = false) (he : s.inputs.keyEvent = some k) :
    waitStep s = (s.ackKey.writeV s.waitX k).leaveWait.advance := by
  unfold waitStep; rw [if_neg (by simp [hs]), he]

/-- The instruction leaves `run_state` as it is, halts the core, or is FX0A and enters the wait. -/
def KeepsRunStateOrHaltsOrWaits (s : State) (i : Instr) (t : State) : Prop :=
  t.runState = s.runState ∨ t.runState = .halted ∨ ∃ x, i = .ldVxK x ∧ t.runState = .waitKey

theorem exec_keepsRunStateOrHaltsOrWaits {i : Instr} {s t : State} (h : exec i s = .next t) :
    KeepsRunStateOrHaltsOrWaits s i t := by
  refine exec_next_elim (P := KeepsRunStateOrHaltsOrWaits s) h
    ?retHalt ?_ ?callHalt ?_ ?drwHalt ?_ ?ldBHalt ?_ ?storeHalt ?_ ?loadHalt ?load ?others
  case load => intro x _; rw [State.writeRegs_eq]; exact .inl rfl
  case others =>
    intro j u hj hret hcall hdrw hldB hstore hload
    cases j
    case ret | call | drw | ldB | ldMemVx | ldVxMem => simp at hret hcall hdrw hldB hstore hload
    all_goals obtain rfl := Host.Outcome.next.inj hj
    case ldVxK x => exact .inr (.inr ⟨x, rfl, rfl⟩)
    all_goals exact .inl rfl
  case retHalt | callHalt | drwHalt | ldBHalt | storeHalt | loadHalt => intros; exact .inr (.inl rfl)
  all_goals intros; exact .inl rfl

end Sys2Proof.Machine

namespace Sys2Proof.Safety

open Sys2Proof.Machine

/-- What FX15 and FX18 leave unchanged (R162, R163). -/
theorem keeps_of_only_pc_timers (s : State) (pc : Word) (dt st : Byte) :
    let t := { s with pc := pc, dt := dt, st := st }
    KeepsRegs [] s t ∧ KeepsMem s t ∧ KeepsI s t ∧ KeepsStack s t ∧ KeepsStatus s t ∧ KeepsWorld s t ∧
      t.out = s.out :=
  ⟨fun _ _ => rfl, fun _ => rfl, rfl, ⟨rfl, rfl⟩, ⟨rfl, rfl, ⟨rfl, rfl, rfl⟩, ⟨rfl, rfl, rfl, rfl⟩⟩,
    ⟨rfl, rfl, rfl, rfl, rfl, rfl⟩, rfl⟩

/-- What a press event that is taken leaves unchanged (R161; 60_exceptions.md R212). -/
theorem keeps_press (s : State) (k : Byte) :
    let t := (s.ackKey.writeV s.waitX k).leaveWait.advance
    KeepsRegs [s.waitX] s t ∧ KeepsMem s t ∧ KeepsI s t ∧ KeepsStack s t ∧ KeepsTimers s t ∧ KeepsHalt s t ∧
      KeepsFlags s t ∧ t.waitX = s.waitX ∧ KeepsWorld s t ∧ t.out = { s.out with keyAck := true } :=
  ⟨keepsRegs_writeV s.ackKey s.waitX k, fun _ => rfl, rfl, ⟨rfl, rfl⟩, ⟨rfl, rfl⟩, ⟨rfl, rfl, rfl⟩,
    ⟨rfl, rfl, rfl, rfl⟩, rfl, ⟨rfl, rfl, rfl, rfl, rfl, rfl⟩, rfl⟩

/-- Settles O31: the stop comes first, then whether an event is offered. -/
theorem waitStepTakesOnePress : Obligations.WaitStepTakesOnePress := by
  refine fun s inp hr => ⟨waitStep (s.latch inp), coreStep_waitKey hr, fun hs => ?stop, fun hs he => ?noEvent,
    fun k hs he => ?press⟩
  case stop => rw [waitStep_stop hs]; exact haltsWith_raise _ _ _
  case noEvent => exact waitStep_noEvent hs he
  case press =>
    rw [waitStep_press hs he]
    exact ⟨readV_writeV_same (s.latch inp).ackKey s.waitX k, rfl, rfl, keeps_press (s.latch inp) k⟩

/-- Settles O45. -/
theorem onlyKeyWaitSuspends : Obligations.OnlyKeyWaitSuspends :=
  fun _ _ _ hr h hne => (exec_keepsRunStateOrHaltsOrWaits h).resolve_left fun e => hne (e.trans hr)

/-- Settles O29: one register written, then one timer twice. -/
theorem timersAreReadAndSet : Obligations.TimersAreReadAndSet := by
  refine fun x => ⟨decodeWord_encode (.ldVxDt x), decodeWord_encode (.ldDtVx x), decodeWord_encode (.ldStVx x),
    fun s => ⟨completes_of_writeV rfl, ?setDt, ?setSt⟩⟩
  case setDt => exact ⟨_, rfl, rfl, rfl, rfl, keeps_of_only_pc_timers s _ _ _⟩
  case setSt => exact ⟨_, rfl, rfl, State.tone_eq_true_iff _, rfl, rfl, keeps_of_only_pc_timers s _ _ _⟩

/-- Settles O30: `wait_x` and `run_state` are written and nothing else. -/
theorem ldVxKEntersWait : Obligations.LdVxKEntersWait :=
  fun x => ⟨decodeWord_encode (.ldVxK x), fun _ => ⟨_, rfl, rfl, rfl, rfl, fun _ _ => rfl, fun _ => rfl, rfl,
    ⟨rfl, rfl⟩, ⟨rfl, rfl⟩, ⟨rfl, rfl, rfl⟩, ⟨rfl, rfl, rfl, rfl⟩, ⟨rfl, rfl, rfl, rfl, rfl, rfl⟩, rfl⟩⟩

end Sys2Proof.Safety

/-! PROOF. What an instruction raises (60_exceptions.md R201, R202) and which pulses it drives (R212, R214). -/

namespace Sys2Proof.Machine

/-- An address that fits the 17 bits of `fault_info` is recorded as it is. -/
theorem toNat_outOfBoundsInfo {a : Nat} (h : a ≤ 0x10000) : (BitVec.ofNat 17 a).toNat = a := by
  rw [BitVec.toNat_ofNat, Nat.mod_eq_of_lt (by omega)]

theorem State.dataAddr_lt (s : State) : s.dataAddr < 0x10000 := s.iReg.isLt

/-- The first refused address of a read is past memory. -/
theorem State.refusedRead_info (s : State) : 0xFFF < (BitVec.ofNat 17 (max s.dataAddr 0x1000)).toNat := by
  have := s.dataAddr_lt
  rw [toNat_outOfBoundsInfo (by omega)]
  omega

/-- The first refused address of a program write is past memory or below 0x200. -/
theorem State.refusedWrite_info (s : State) :
    0xFFF < (BitVec.ofNat 17 (if s.dataAddr < 0x200 then s.dataAddr else max s.dataAddr 0x1000)).toNat ∨
    (BitVec.ofNat 17 (if s.dataAddr < 0x200 then s.dataAddr else max s.dataAddr 0x1000)).toNat < 0x200 := by
  split
  · rw [toNat_outOfBoundsInfo (by omega)]
    exact .inr ‹_›
  · exact .inl s.refusedRead_info

end Sys2Proof.Machine

namespace Sys2Proof.Safety

open Sys2Proof.Machine

/-- The halts an instruction raises, each with its cause and information (60_exceptions.md R201). -/
def RaisesItsOwnCause (s : State) (i : Instr) (t : State) : Prop :=
  (i = .ret ∧ t.haltCause = .stackUnderflow ∧ t.faultInfo = 0 ∧ s.sp = 0) ∨
  (∃ nnn, i = .call nnn ∧ t.haltCause = .stackOverflow ∧ t.faultInfo.toNat = s.sp.toNat ∧ 16 ≤ s.sp.toNat) ∨
  ((∃ x y n, i = .drw x y n ∧ n ≠ 0) ∧ t.haltCause = .outOfBounds ∧ 0xFFF < t.faultInfo.toNat) ∨
  (∃ x, (i = .ldB x ∨ i = .ldMemVx x) ∧ t.haltCause = .outOfBounds ∧
    (0xFFF < t.faultInfo.toNat ∨ t.faultInfo.toNat < 0x200)) ∨
  (∃ x, i = .ldVxMem x ∧ t.haltCause = .outOfBounds ∧ 0xFFF < t.faultInfo.toNat)

/-- An instruction halts the core by the halt entry, with its own cause, or does not halt it. -/
def HaltsOnlyByItsOwnRaise (s : State) (i : Instr) (t : State) : Prop :=
  (HaltsWith t.haltCause t.faultInfo s t ∧ RaisesItsOwnCause s i t) ∨ t.runState = s.runState ∨ t.runState = .waitKey

theorem exec_haltsOnlyByItsOwnRaise {i : Instr} {s t : State} (h : exec i s = .next t) :
    HaltsOnlyByItsOwnRaise s i t := by
  refine exec_next_elim (P := HaltsOnlyByItsOwnRaise s) h
    ?retHalt ?_ ?callHalt ?_ ?drwHalt ?_ ?ldBHalt ?_ ?storeHalt ?_ ?loadHalt ?load ?others
  case retHalt => exact fun hsp => .inl ⟨haltsWith_raise _ _ _, .inl ⟨rfl, rfl, rfl, hsp⟩⟩
  case callHalt =>
    refine fun nnn hsp => .inl ⟨haltsWith_raise _ _ _, .inr (.inl ⟨nnn, rfl, rfl, ?_, hsp⟩)⟩
    exact BitVec.toNat_setWidth_of_le (by decide)
  case drwHalt =>
    exact fun x y n hn _ =>
      .inl ⟨haltsWith_raise _ _ _, .inr (.inr (.inl ⟨⟨x, y, n, rfl, hn⟩, rfl, s.refusedRead_info⟩))⟩
  case ldBHalt =>
    exact fun x _ =>
      .inl ⟨haltsWith_raise _ _ _, .inr (.inr (.inr (.inl ⟨x, .inl rfl, rfl, s.refusedWrite_info⟩)))⟩
  case storeHalt =>
    exact fun x _ =>
      .inl ⟨haltsWith_raise _ _ _, .inr (.inr (.inr (.inl ⟨x, .inr rfl, rfl, s.refusedWrite_info⟩)))⟩
  case loadHalt =>
    exact fun x _ => .inl ⟨haltsWith_raise _ _ _, .inr (.inr (.inr (.inr ⟨x, rfl, rfl, s.refusedRead_info⟩)))⟩
  case load => intro x _; rw [State.writeRegs_eq]; exact .inr (.inl rfl)
  case others =>
    intro j u hj hret hcall hdrw hldB hstore hload
    cases j
    case ret | call | drw | ldB | ldMemVx | ldVxMem => simp at hret hcall hdrw hldB hstore hload
    all_goals obtain rfl := Host.Outcome.next.inj hj
    case ldVxK x => exact .inr (.inr rfl)
    all_goals exact .inr (.inl rfl)
  all_goals intros; exact .inr (.inl rfl)

/-- Settles O40: a core that was not halted and now is has neither kept `run_state` nor entered the wait. -/
theorem onlySixInstructionsRaise : Obligations.OnlySixInstructionsRaise := by
  intro i s t hs h ht
  rcases exec_haltsOnlyByItsOwnRaise h with hraise | hkeep | hwait
  · exact hraise
  · exact absurd (hkeep.symm.trans ht) hs
  · exact absurd (hwait.symm.trans ht) (by decide)

/-- `key_evt_ack` is as before, and so is `rnd_req` unless the instruction is CXNN. -/
def AcksNoKeyAndOnlyRndRequests (s : State) (i : Instr) (t : State) : Prop :=
  t.out.keyAck = s.out.keyAck ∧ (t.out.rndReq = s.out.rndReq ∨ ∃ x nn, i = .rnd x nn)

theorem exec_acksNoKeyAndOnlyRndRequests {i : Instr} {s t : State} (h : exec i s = .next t) :
    AcksNoKeyAndOnlyRndRequests s i t := by
  refine exec_next_elim (P := AcksNoKeyAndOnlyRndRequests s) h
    ?_ ?_ ?_ ?_ ?_ ?_ ?_ ?_ ?_ ?_ ?_ ?load ?others
  case load => intro x _; rw [State.writeRegs_eq]; exact ⟨rfl, .inl rfl⟩
  case others =>
    intro j u hj hret hcall hdrw hldB hstore hload
    cases j
    case ret | call | drw | ldB | ldMemVx | ldVxMem => simp at hret hcall hdrw hldB hstore hload
    all_goals obtain rfl := Host.Outcome.next.inj hj
    case rnd x nn => exact ⟨rfl, .inr ⟨x, nn, rfl⟩⟩
    all_goals exact ⟨rfl, .inl rfl⟩
  all_goals intros; exact ⟨rfl, .inl rfl⟩

/-- Settles O46. -/
theorem onlyRndTakesARandomByte : Obligations.OnlyRndTakesARandomByte := by
  intro i s t h
  obtain ⟨hack, hrnd⟩ := exec_acksNoKeyAndOnlyRndRequests h
  exact ⟨hack, fun hne => hrnd.resolve_left hne⟩

end Sys2Proof.Safety

/-! PROOF. Where the next move comes from, and that an unscheduled tick always comes (60_exceptions.md R209). -/

namespace Sys2Proof.Safety

open Sys2Proof.Machine

/-- Settles O36, by the schedule and then by the count of steps before the tick. -/
theorem nextMoveIsTheSchedules : Obligations.NextMoveIsTheSchedules := by
  refine ⟨fun s m rest hs => ?scheduled, fun s hs hk => ⟨Config.freeGap s.draws, ?tick⟩,
    fun s hs hk => ⟨freeInputs s.draws, rfl, ?step⟩⟩
  case scheduled => rw [step, State.nextMove_scheduled hs]
  case tick => rw [step, State.nextMove_tick hs hk]
  case step => rw [step, State.nextMove_step hs (Nat.sub_add_cancel hk).symm]

/-- How many moves at most come before an unscheduled tick. -/
def movesBeforeTick (s : State) : Nat := s.schedule.length + s.stepsToTick

/-- Each step is a tick or brings the next unscheduled tick nearer. -/
theorem step_ticks_or_nearer {s t : State} (h : step s = .next t) :
    ticksNext s = true ∨ movesBeforeTick t < movesBeforeTick s := by
  obtain ⟨hsched, hsteps, -⟩ := step_moves h
  rw [movesBeforeTick, movesBeforeTick, hsched, hsteps]
  cases hs : s.schedule with
  | cons m rest => rw [State.nextMove_scheduled hs]; exact .inr (by simp)
  | nil =>
    cases hk : s.stepsToTick with
    | zero => exact .inl (by rw [ticksNext, State.nextMove_tick hs hk])
    | succ k => rw [State.nextMove_step hs hk]; exact .inr (by simp [hs])

/-- From every point of a run a tick comes within the moves before an unscheduled one. -/
theorem Run.exists_tick (r : Run) (n : Nat) : ∃ m, n ≤ m ∧ ticksNext (r.state m) = true := by
  induction h : movesBeforeTick (r.state n) using Nat.strongRecOn generalizing n with
  | ind k ih =>
    rcases step_ticks_or_nearer (r.next n) with htick | hlt
    · exact ⟨n, le_refl n, htick⟩
    · obtain ⟨m, hm, htick⟩ := ih _ (h ▸ hlt) (n + 1) rfl
      exact ⟨m, Nat.le_of_succ_le hm, htick⟩

/-- Settles O60: a tick comes after every point, whether the core ever halts or not. -/
theorem everyRunIsFair : Obligations.EveryRunIsFair := fun r _ n => r.exists_tick n

end Sys2Proof.Safety

/-! PROOF. Ticks, clock edges and the host's moves (60_exceptions.md R204, R207 to R210, R215). -/

namespace Sys2Proof.Machine

/-! ## Ticks -/

theorem RunState.active_iff (r : RunState) : r.active = true ↔ r = .run ∨ r = .waitKey := by
  cases r <;> decide

theorem RunState.active_eq_false_iff (r : RunState) : r.active = false ↔ r = .idle ∨ r = .halted := by
  cases r <;> decide

theorem State.tick_inactive {s : State} (h : s.runState.active = false) : s.tick = s := by
  rw [State.tick, h]; rfl

theorem State.toNat_dt_tick {s : State} (h : s.runState.active = true) : s.tick.dt.toNat = s.dt.toNat - 1 := by
  rw [State.tick_dt, if_pos h, toNat_countDown]

theorem State.toNat_st_tick {s : State} (h : s.runState.active = true) : s.tick.st.toNat = s.st.toNat - 1 := by
  rw [State.tick_st, if_pos h, toNat_countDown]

/-! ## Dividers -/

theorem divide_fst (div cnt : Nat) : (divide div cnt).1 = if cnt = div - 1 then 0 else cnt + 1 := by
  unfold divide; split <;> rfl

theorem divide_wrap {div cnt : Nat} (h : cnt = div - 1) : divide div cnt = (0, true) := if_pos h

theorem divide_count {div cnt : Nat} (h : cnt ≠ div - 1) : divide div cnt = (cnt + 1, false) := if_neg h

/-- An edge on which `div_cnt` wraps is a tick, and both dividers count. -/
theorem State.clockEdge_tick {td : Nat} {s : State} (id : Nat) (h : s.divCnt = td - 1) :
    (s.clockEdge td id).1 = s.tick.setDividers 0 (divide id s.stepCnt).1 := by
  unfold State.clockEdge; rw [divide_wrap h]; rfl

/-- On an edge on which it does not, the dividers count and nothing else happens. -/
theorem State.clockEdge_noTick {td : Nat} {s : State} (id : Nat) (h : s.divCnt ≠ td - 1) :
    (s.clockEdge td id).1 = s.setDividers (s.divCnt + 1) (divide id s.stepCnt).1 := by
  unfold State.clockEdge; rw [divide_count h]; rfl

/-- In IDLE and HALTED only the dividers count. -/
theorem State.clockEdge_inactive {s : State} (td id : Nat) (h : s.runState.active = false) :
    (s.clockEdge td id).1 = s.setDividers (divide td s.divCnt).1 (divide id s.stepCnt).1 := by
  unfold State.clockEdge; rw [State.tick_inactive h]; dsimp only; split <;> rfl

/-- The timers count down on the edge of a tick in RUN and WAIT_KEY. -/
theorem State.toNat_timers_clockEdge (td id : Nat) (s : State) :
    (s.clockEdge td id).1.dt.toNat = (if s.divCnt = td - 1 ∧ (s.runState = .run ∨ s.runState = .waitKey)
      then s.dt.toNat - 1 else s.dt.toNat) ∧
    (s.clockEdge td id).1.st.toNat = (if s.divCnt = td - 1 ∧ (s.runState = .run ∨ s.runState = .waitKey)
      then s.st.toNat - 1 else s.st.toNat) := by
  have hactive := RunState.active_iff s.runState
  by_cases h : s.divCnt = td - 1 ∧ (s.runState = .run ∨ s.runState = .waitKey)
  · have ha := hactive.2 h.2
    rw [if_pos h, if_pos h, State.clockEdge_tick id h.1]
    exact ⟨State.toNat_dt_tick ha, State.toNat_st_tick ha⟩
  · rw [if_neg h, if_neg h]
    by_cases hd : s.divCnt = td - 1
    · have ha : s.runState.active = false := Bool.eq_false_of_not_eq_true fun ha => h ⟨hd, hactive.1 ha⟩
      rw [State.clockEdge_inactive td id ha]
      exact ⟨rfl, rfl⟩
    · rw [State.clockEdge_noTick id hd]
      exact ⟨rfl, rfl⟩

/-! ## Clock edges with and without a step -/

theorem State.clockEdge_due {s : State} {td id : Nat} (ha : s.runState.active = true) (hc : s.stepCnt = id - 1) :
    (s.clockEdge td id).2 = true := by
  rw [State.clockEdge_snd, ha, decide_eq_true hc]; rfl

theorem State.clockEdge_notDue {s : State} {td id : Nat}
    (h : s.stepCnt ≠ id - 1 ∨ s.runState = .idle ∨ s.runState = .halted) : (s.clockEdge td id).2 = false := by
  rw [State.clockEdge_snd]
  rcases h with hc | hr
  · rw [decide_eq_false hc, Bool.false_and]
  · rw [(RunState.active_eq_false_iff _).2 hr, Bool.and_false]

/-- In IDLE and HALTED an edge counts the dividers and samples the stop pin. -/
theorem clkMove_inactive {td id : Nat} {inp : Inputs} {s : State} (h : s.runState.active = false) :
    clkMove td id inp s =
      .next ((s.quietOut.setDividers (divide td s.divCnt).1 (divide id s.stepCnt).1).sampleStop inp.stop) := by
  rw [clkMove_no_step (State.clockEdge_notDue (.inr ((RunState.active_eq_false_iff _).1 h))),
    State.clockEdge_inactive td id h]
  rfl

/-- A step in RUN or WAIT_KEY answers (30_encoding.md R79). -/
theorem coreStep_answers {s : State} (h : s.runState.active = true) : ∃ t, coreStep s = .next t := by
  rcases (RunState.active_iff _).1 h with hr | hr
  · rcases fetch_cases s with ⟨e, info, hf, -⟩ | ⟨w, -, hf⟩ | ⟨-, -, hf⟩ | ⟨-, -, i, -, hf⟩
    · exact ⟨_, coreStep_ended hr hf⟩
    · exact ⟨_, coreStep_ended hr hf⟩
    · exact ⟨_, coreStep_ended hr hf⟩
    · rw [coreStep_instr hr hf]; exact exec_answers i _
  · exact ⟨_, coreStep_waitKey hr⟩

/-- A step in RUN that no check stops is the instruction the word at pc encodes. -/
theorem coreStep_encode {s : State} (i : Instr) (hr : s.runState = .run) (hs : s.inputs.stop = false)
    (hl : s.loaded = true) (hp : s.pc.toNat ≤ 0xFFE)
    (hw : s.mem.read s.pc.toNat ++ s.mem.read (s.pc.toNat + 1) = encode i) :
    coreStep s = exec i s.logFetch :=
  coreStep_instr hr (fetch_instr hs hl hp (by rw [hw, decodeWord_encode]))

/-! ## start and stop (R215) -/

theorem State.startBy_idle {s : State} (h : s.runState = .idle) : s.startBy = { s with runState := .run } := by
  unfold State.startBy; rw [h]

theorem State.startBy_ignored {s : State} (h : s.runState ≠ .idle) : s.startBy = s :=
  s.startBy_cases.elim (fun hi => absurd hi.1 h) id

theorem State.stopBy_halts {s : State} (h : s.runState ≠ .halted) : s.stopBy = s.raise .stop 0 := by
  unfold State.stopBy
  cases hr : s.runState with
  | halted => exact absurd hr h
  | _ => rfl

theorem State.stopBy_ignored {s : State} (h : s.runState = .halted) : s.stopBy = s := by
  unfold State.stopBy; rw [h]

theorem State.sampleStop_idle {s : State} (h : s.runState = .idle) : s.sampleStop true = s.raise .stop 0 := by
  unfold State.sampleStop; rw [h]; rfl

theorem State.sampleStop_ignored {s : State} {stop : Bool} (h : s.runState = .idle → stop = false) :
    s.sampleStop stop = s := by
  rcases s.sampleStop_cases stop with ⟨hi, hs, -⟩ | ⟨-, e⟩
  · exact absurd (hs.symm.trans (h hi)) (by decide)
  · exact e

end Sys2Proof.Machine

namespace Sys2Proof.Safety

open Sys2Proof.Machine

/-- A move that changes timers, dividers and output pins alone keeps the rest. -/
theorem keeps_of_only_timers_dividers_out (s : State) (dt st : Byte) (d c : Nat) (out : Outputs) :
    let t := { s with dt := dt, st := st, divCnt := d, stepCnt := c, out := out }
    KeepsRegs [] s t ∧ KeepsMem s t ∧ KeepsI s t ∧ t.pc = s.pc ∧ KeepsStack s t ∧ t.runState = s.runState ∧
      t.waitX = s.waitX ∧ KeepsHalt s t ∧ t.loaded = s.loaded ∧ t.illSeen = s.illSeen ∧ KeepsWorld s t ∧
      t.out = out :=
  ⟨fun _ _ => rfl, fun _ => rfl, rfl, rfl, ⟨rfl, rfl⟩, rfl, rfl, ⟨rfl, rfl, rfl⟩, rfl, rfl,
    ⟨rfl, rfl, rfl, rfl, rfl, rfl⟩, rfl⟩

/-! ## The tick -/

/-- Settles O48, by whether the core is in RUN or WAIT_KEY. -/
theorem tickCountsDown : Obligations.TickCountsDown := by
  refine fun s => ⟨s.quietOut.tick, rfl, fun ha => ?counts, fun hn => ?stands, ?frame⟩
  case counts =>
    have ha : s.quietOut.runState.active = true := (RunState.active_iff _).2 ha
    exact ⟨State.toNat_dt_tick ha, State.toNat_st_tick ha⟩
  case stands =>
    rw [State.tick_inactive (s := s.quietOut) ((RunState.active_eq_false_iff _).2 hn)]
    exact ⟨rfl, rfl⟩
  case frame =>
    unfold State.tick
    split <;>
      exact ⟨fun _ _ => rfl, fun _ => rfl, rfl, rfl, ⟨rfl, rfl⟩,
        ⟨rfl, rfl, ⟨rfl, rfl, rfl⟩, ⟨rfl, rfl, rfl, rfl⟩⟩, ⟨rfl, rfl, rfl, rfl, rfl, rfl⟩⟩

/-! ## Clock edges -/

/-- The count and the wraps are the remainder and the quotient of the edges, so that one edge more adds 1 to the
remainder or takes it to 0 and adds 1 to the quotient (R208). -/
theorem afterEdges_eq {d : Nat} (hd : 1 ≤ d) (n : Nat) : afterEdges d n = (n % d, n / d) := by
  induction n with
  | zero => rw [Nat.zero_mod, Nat.zero_div]; rfl
  | succ n ih =>
    have hlt := Nat.mod_lt n hd
    have hn := Nat.mod_add_div n d
    rw [afterEdges, ih]
    by_cases hw : n % d = d - 1
    · have ⟨hq, hr⟩ : (n + 1) / d = n / d + 1 ∧ (n + 1) % d = 0 :=
        (Nat.div_mod_unique hd).2 ⟨by rw [Nat.mul_succ]; omega, hd⟩
      rw [divide_wrap hw, hq, hr]; rfl
    · have ⟨hq, hr⟩ : (n + 1) / d = n / d ∧ (n + 1) % d = n % d + 1 :=
        (Nat.div_mod_unique hd).2 ⟨by omega, by omega⟩
      rw [divide_count hw, hq, hr]; rfl

theorem clkMove_dividers {td id : Nat} {inp : Inputs} {s t : State} (h : clkMove td id inp s = .next t) :
    t.divCnt = (divide td s.divCnt).1 ∧ t.stepCnt = (divide id s.stepCnt).1 := by
  cases hdue : (s.clockEdge td id).2 with
  | true =>
    rw [clkMove_step hdue, State.clockEdge_fst] at h
    exact (coreStep_keeps h).2
  | false =>
    rw [clkMove_no_step hdue, State.clockEdge_fst] at h
    obtain rfl := Host.Outcome.next.inj h
    rcases State.sampleStop_cases _ inp.stop with ⟨-, -, e⟩ | ⟨-, e⟩ <;> rw [e] <;> exact ⟨rfl, rfl⟩

/-- A clock edge answers in every state: a step falls due in RUN and WAIT_KEY alone. -/
theorem clkMove_answers (td id : Nat) (inp : Inputs) (s : State) : ∃ t, clkMove td id inp s = .next t := by
  cases hdue : (s.clockEdge td id).2 with
  | false => exact ⟨_, clkMove_no_step hdue⟩
  | true =>
    rw [clkMove_step hdue, State.clockEdge_fst]
    rw [State.clockEdge_snd, Bool.and_eq_true] at hdue
    exact coreStep_answers hdue.2

/-- Settles O49: the dividers count as remainders, and an edge without a step is the dividers and the tick. -/
theorem dividerWrapsEveryDivEdges : Obligations.DividerWrapsEveryDivEdges := by
  refine ⟨fun d n hd => afterEdges_eq hd n, fun _ _ => rfl, fun td id inp s => ?_⟩
  obtain ⟨t, ht⟩ := clkMove_answers td id inp s
  obtain ⟨hdiv, hstep⟩ := clkMove_dividers ht
  refine ⟨t, ht, hdiv.trans (divide_fst _ _), hstep.trans (divide_fst _ _), fun hnone hstop => ?_⟩
  have hsame : (s.clockEdge td id).1.quietOut.runState = s.runState := by rw [State.clockEdge_fst]; rfl
  rw [clkMove_no_step (State.clockEdge_notDue hnone), State.sampleStop_ignored (hsame ▸ hstop)] at ht
  obtain rfl := Host.Outcome.next.inj ht
  obtain ⟨hdt, hst⟩ := State.toNat_timers_clockEdge td id s
  refine ⟨hdt, hst, ?_⟩
  rw [State.clockEdge_fst]
  exact keeps_of_only_timers_dividers_out s _ _ _ _ _

/-- In RUN and WAIT_KEY an edge on which both dividers wrap is a step after a tick (R209). -/
theorem clkMove_tick_step {td id : Nat} {inp : Inputs} {s : State} (ha : s.runState.active = true)
    (hd : s.divCnt = td - 1) (hc : s.stepCnt = id - 1) :
    clkMove td id inp s = coreStep ((s.tick.setDividers 0 0).latch inp) := by
  rw [clkMove_step (State.clockEdge_due ha hc), State.clockEdge_tick id hd, divide_wrap hc]

/-- In RUN and WAIT_KEY an edge on which `step_cnt` alone wraps is a step. -/
theorem clkMove_noTick_step {td id : Nat} {inp : Inputs} {s : State} (ha : s.runState.active = true)
    (hd : s.divCnt ≠ td - 1) (hc : s.stepCnt = id - 1) :
    clkMove td id inp s = coreStep ((s.setDividers (s.divCnt + 1) 0).latch inp) := by
  rw [clkMove_step (State.clockEdge_due ha hc), State.clockEdge_noTick id hd, divide_wrap hc]

/-- With both dividers wrapping, the instruction at pc runs from the registers and the pc as they were, the timers one
less and the dividers at 0. -/
theorem clkMove_tick_instr {td id : Nat} {inp : Inputs} {s : State} (i : Instr) (hd : s.divCnt = td - 1)
    (hc : s.stepCnt = id - 1) (hr : s.runState = .run) (hs : inp.stop = false) (hl : s.loaded = true)
    (hp : s.pc.toNat ≤ 0xFFE) (hw : s.mem.read s.pc.toNat ++ s.mem.read (s.pc.toNat + 1) = encode i) :
    ∃ u, clkMove td id inp s = exec i u ∧ (∀ x, u.readV x = s.readV x) ∧ u.dt.toNat = s.dt.toNat - 1 ∧
      u.st.toNat = s.st.toNat - 1 ∧ u.divCnt = 0 ∧ u.stepCnt = 0 ∧ u.pc = s.pc := by
  have ha : s.runState.active = true := (RunState.active_iff _).2 (.inl hr)
  refine ⟨((s.tick.setDividers 0 0).latch inp).logFetch, ?_, State.readV_tick s, State.toNat_dt_tick ha,
    State.toNat_st_tick ha, rfl, rfl, State.tick_pc s⟩
  rw [clkMove_tick_step ha hd hc]
  exact coreStep_encode i (by simpa using hr) hs (by simpa using hl) (by simpa using hp) (by simpa using hw)

/-- Settles O50: the state an instruction runs from on the edge of a tick is the one the tick leaves. -/
theorem tickComesBeforeStep : Obligations.TickComesBeforeStep := by
  intro td id inp s ha hc
  replace ha := (RunState.active_iff _).2 ha
  refine ⟨fun hd => clkMove_noTick_step ha hd hc, fun hd => ⟨⟨s.quietOut.tick, rfl, ?step⟩,
    fun hr hs hl hp x => ⟨fun hw => ?ldDtVx, fun hw => ?ldStVx, fun hw => ?ldVxDt⟩⟩⟩
  case step => rw [clkMove_tick_step ha hd hc, State.tick_quietOut]; rfl
  all_goals
    obtain ⟨u, hrun, hx, hdt, hst, hdiv, hcnt, hpc⟩ := clkMove_tick_instr _ hd hc hr hs hl hp hw
    have hnext : u.pc + 2 = s.pc + 2 := congrArg (· + 2) hpc
  case ldDtVx => exact ⟨_, hrun, hx x, hst, hdiv, hcnt, hnext⟩
  case ldStVx => exact ⟨_, hrun, hx x, hdt, hdiv, hcnt, hnext⟩
  case ldVxDt => exact ⟨_, hrun, (congrArg _ (readV_writeV_same u x u.dt)).trans hdt, hdt, hdiv, hcnt, hnext⟩

/-! ## The host's moves -/

/-- Settles O52, by the state the move finds. -/
theorem startAndStopMoveTheCore : Obligations.StartAndStopMoveTheCore := by
  refine fun s => ⟨fun h => ?start, fun h => ?startIgnored, fun h => ⟨_, rfl, ?stop⟩, fun h => ?stopIgnored,
    fun h td id inp hs => ?stopPin⟩
  case start => exact congrArg _ (State.startBy_idle (s := s.quietOut) h)
  case startIgnored => exact congrArg _ (State.startBy_ignored (s := s.quietOut) h)
  case stop =>
    rw [State.stopBy_halts (s := s.quietOut) h]
    exact haltsWith_raise _ _ _
  case stopIgnored => exact congrArg _ (State.stopBy_ignored (s := s.quietOut) h)
  case stopPin =>
    refine ⟨_, clkMove_inactive ((RunState.active_eq_false_iff _).2 (.inl h)), ?_⟩
    rw [hs, divide_fst, divide_fst, State.sampleStop_idle]
    · exact haltsWith_raise _ _ _
    · exact h

/-- `t` is `s` but for the dividers and the output pins. -/
def SameButDividersOut (s t : State) : Prop := t = { s with divCnt := t.divCnt, stepCnt := t.stepCnt, out := t.out }

/-- A move other than reset leaves a halted core as it was, or has no meaning there (R204). -/
theorem runMove_halted {m : Move} {s t : State} (hr : s.runState = .halted) (hm : m ≠ .rst)
    (h : runMove m s = .next t) : SameButDividersOut s t := by
  have hinactive : s.runState.active = false := (RunState.active_eq_false_iff _).2 (.inr hr)
  cases m with
  | step inp => cases (coreStep_halted (s := s.latch inp) hr).symm.trans h
  | tick =>
    obtain rfl := Host.Outcome.next.inj h
    rw [State.tick_inactive (s := s.quietOut) hinactive]; rfl
  | clk inp =>
    rw [runMove, clkMove_inactive hinactive, State.sampleStop_ignored (by simp [hr])] at h
    obtain rfl := Host.Outcome.next.inj h; rfl
  | start =>
    obtain rfl := Host.Outcome.next.inj h
    rw [State.startBy_ignored (s := s.quietOut) (by simp [hr])]; rfl
  | stop =>
    obtain rfl := Host.Outcome.next.inj h
    rw [State.stopBy_ignored (s := s.quietOut) hr]; rfl
  | load bytes => cases (loadProgram_outsideIdle (s := s.quietOut) (by simp [hr])).symm.trans h
  | rst => exact absurd rfl hm

/-- Settles O53: taking the move and carrying it out change none of the fields named. -/
theorem haltedUntilReset : Obligations.HaltedUntilReset := by
  refine ⟨fun s hr inp => coreStep_idle (s := s.latch inp) hr,
    fun s hr => ⟨fun inp => coreStep_halted (s := s.latch inp) hr, fun t h hm => ?_⟩⟩
  have htaken := s.nextMove_snd
  have hmoved : SameButDividersOut s.nextMove.2 t := runMove_halted (by rw [htaken]; exact hr) hm h
  rw [SameButDividersOut, htaken] at hmoved
  rw [hmoved]
  exact ⟨hr, ⟨fun _ _ => rfl, rfl, rfl, ⟨rfl, rfl⟩, ⟨rfl, rfl⟩, fun _ => rfl⟩, ⟨rfl, rfl, rfl⟩, rfl, rfl, rfl⟩

end Sys2Proof.Safety
